-- ==== Sys2Proof/Word.lean ====
section
/-! DEFINITION. The bit-vector types of the spec (00_scope.md R8). -/

namespace Sys2Proof

/-- One byte of data memory (20_memory.md R60). -/
abbrev Byte := BitVec 8

/-- One 16-bit lane: a sample part, a Q15 value or a sample index (00_scope.md R8, 20_memory.md R67). -/
abbrev Half := BitVec 16

/-- One 32-bit register, command word or data-memory word (10_state.md R22, 20_memory.md R68). -/
abbrev Word := BitVec 32

end Sys2Proof
end

