-- ==== Sys2Proof/Syntax.lean ====
section
/-! DEFINITION. The twelve commands (30_encoding.md R91), the register names (10_state.md R22) and the host program
forms (30_encoding.md R99 to R101). -/

namespace Sys2Proof

/-- The twelve commands of 30_encoding.md R91. No command has an operand of its own (R95, R99). -/
inductive Instr where
  | nop
  | stg1f
  | stg1i
  | stg2f
  | stg2i
  | stg3f
  | stg3i
  | bitrev
  | xform
  | rotf
  | roti
  | presc
deriving DecidableEq, Repr

/-- The sixteen registers of the window in the order of their offsets (10_state.md R22). `reserved` is offset 0x3C. -/
inductive Reg where
  | id
  | ctrl
  | status
  | cmd
  | cfg
  | bufAddr
  | twAddr
  | twStride
  | twLen
  | brAddr
  | brCount
  | errInfo
  | opa
  | opb
  | res
  | reserved
deriving DecidableEq, Repr

/-- Transform direction (10_state.md R29, 41_stage_one.md R140). -/
inductive Dir where
  | fwd
  | inv
deriving DecidableEq, Repr

/-- Output ordering (10_state.md R29). -/
inductive OutOrder where
  | bitReversed
  | natural
deriving DecidableEq, Repr

/-- One line of a host program (30_encoding.md R100, and the pseudos of R101). A field of `poll` and `expect` is
given as a mask of the register's bits and the value those bits must have. -/
inductive HostForm where
  | wr (r : Reg) (imm : Word)
  | rd (r : Reg)
  | poll (r : Reg) (mask value : Word)
  | expect (r : Reg) (mask value : Word)
  | st32 (addr : Nat) (imm : Word)
  | st16 (addr : Nat) (imm : Half)
  | ld32 (addr : Nat)
  | expect32 (addr : Nat) (value : Word)
  | cmd (m : Instr)
  | wait
  | clr
  | cfg (l : Nat) (dir : Dir) (ord : OutOrder)
  | run (m : Instr)
  | rawCmd (w : Word)
deriving DecidableEq, Repr

end Sys2Proof
end

