-- ==== Sys2Proof/Decode.lean ====
section
/-! DEFINITION. The decoder of command words (30_encoding.md R90 to R98) and, after it, the encoder. -/

namespace Sys2Proof

/-- Why a word is none of the twelve of 30_encoding.md R91. The hardware makes no difference between them: each ends
with `ILLEGAL_CMD` (R96). The names are the model's. -/
inductive Reject where
  /-- A bit of [31:8] is set (R92). -/
  | reservedBits
  /-- `OPC[3:1]` is not 0 (R90, R96). -/
  | opcMiddleBits
  /-- `D` = 1 in class 0, 4, 5 or 7 (R90, R96). -/
  | directionInUndirectedClass
  /-- `CLASS` is one of 8 to 15 (R96). -/
  | unusedClass
deriving DecidableEq, Repr

/-- `OPC[7:4]` (30_encoding.md R90). -/
def wordClass (w : Word) : BitVec 4 := w.extractLsb' 4 4

/-- `OPC[0]` = `D` (30_encoding.md R90). -/
def wordD (w : Word) : Bool := w.getLsbD 0

/-- A command class without a direction: `D` must be 0 (30_encoding.md R90). -/
def undirected (d : Bool) (i : Instr) : Except Reject Instr :=
  if d then .error .directionInUndirectedClass else .ok i

/-- A command class with a direction: `D` picks the forward or the inverse command (30_encoding.md R90). -/
def directed (d : Bool) (fwd inv : Instr) : Except Reject Instr := .ok (if d then inv else fwd)

/-- `Decode` (30_encoding.md R93), total on words: the fields of R90 select the command of R91. -/
def decode (w : Word) : Except Reject Instr :=
  if w.extractLsb' 8 24 ≠ 0#24 then .error .reservedBits
  else if w.extractLsb' 1 3 ≠ 0#3 then .error .opcMiddleBits
  else match (wordClass w).toNat with
    | 0 => undirected (wordD w) .nop
    | 1 => directed (wordD w) .stg1f .stg1i
    | 2 => directed (wordD w) .stg2f .stg2i
    | 3 => directed (wordD w) .stg3f .stg3i
    | 4 => undirected (wordD w) .bitrev
    | 5 => undirected (wordD w) .xform
    | 6 => directed (wordD w) .rotf .roti
    | 7 => undirected (wordD w) .presc
    | _ => .error .unusedClass

/-- The command read from an opcode-table row: its bits are the one 32-bit command word (30_encoding.md R98), bit 0
the least significant. Bits above `nbits` are 0. -/
def decodeTableWord (nbits w : Nat) : Option Instr :=
  match decode (BitVec.ofNat 32 (w % 2 ^ nbits)) with
  | .ok i => some i
  | .error _ => none

/-- The word of each command, as the opcode map lists it (30_encoding.md R91). -/
def encode (i : Instr) : Word :=
  match i with
  | .nop => 0x00000000#32
  | .stg1f => 0x00000010#32
  | .stg1i => 0x00000011#32
  | .stg2f => 0x00000020#32
  | .stg2i => 0x00000021#32
  | .stg3f => 0x00000030#32
  | .stg3i => 0x00000031#32
  | .bitrev => 0x00000040#32
  | .xform => 0x00000050#32
  | .rotf => 0x00000060#32
  | .roti => 0x00000061#32
  | .presc => 0x00000070#32

end Sys2Proof
end

