-- ==== Sys2Proof/Config.lean ====
section
/-! DEFINITION. The instance parameters of 00_scope.md R6, and the free values: constants without a body for what
the spec leaves open. -/

namespace Sys2Proof.Config

/-- `PACK_ORDER` (00_scope.md R6, 20_memory.md R64): which halfword of a sample is the real part. -/
inductive PackOrder where
  | reIm
  | imRe
deriving DecidableEq, Repr

/-- `RND` (00_scope.md R6, 40_datapath.md R112): the rounding of every rounded shift. -/
inductive Rnd where
  | halfUp
  | trunc
deriving DecidableEq, Repr

/-- The parameters of one instance of the hardware (00_scope.md R6). They never change after reset. `regBase` is the
platform's `REG_BASE`, which the spec leaves OPEN. DESIGN CHOICE, safe: they stand in `State`, so that every
statement holds for every instance (log entry 1). -/
structure Params where
  log4nMax : Nat
  addrW : Nat
  packOrder : PackOrder
  rnd : Rnd
  regBase : Nat
deriving DecidableEq, Repr

/-- The defaults of 00_scope.md R6. `regBase` has none there: 0 is a DESIGN CHOICE (log entry 1). -/
def defaultParams : Params :=
  { log4nMax := 5, addrW := 32, packOrder := .reIm, rnd := .halfUp, regBase := 0 }

/-- FREE VALUE. What data memory holds at power-on at each address (70_reset_and_hazards.md R263: unspecified). -/
opaque powerOnByte : Nat → Byte

/-- FREE VALUE. The byte that draw `n` leaves at an address, where the spec says a model gives it any value
(20_memory.md R77, R82, 60_exceptions.md R236, 70_reset_and_hazards.md R262). -/
opaque freeByte : Nat → Nat → Byte

/-- FREE VALUE. The word that draw `n` returns to a host read that races with a command (20_memory.md R77). -/
opaque freeWord : Nat → Word

end Sys2Proof.Config
end

