-- ==== Sys2Proof/Machine/Datapath.lean ====
section
/-! DEFINITION. The exact-integer arithmetic of the datapath (00_scope.md R8, R9, 40_datapath.md R110 to R125). -/

namespace Sys2Proof.Machine

open Sys2Proof.Config (Rnd)

/-- A sample (x, y): real and imaginary part, 16-bit signed integers (00_scope.md R13). -/
structure Sample where
  x : Int
  y : Int
deriving DecidableEq, Repr

/-- A twiddle entry (c, s): cosine and sine, 16-bit signed Q15 integers (20_memory.md R66). -/
structure Twiddle where
  c : Int
  s : Int
deriving DecidableEq, Repr

/-- `s16` (00_scope.md R8): a 16-bit pattern as a signed integer. -/
def s16 (p : Half) : Int := p.toInt

/-- `u16` (00_scope.md R8): the 16-bit pattern of an integer, v mod 2^16. -/
def u16 (v : Int) : Half := BitVec.ofInt 16 v

/-- `cat(a, b)` of two 16-bit patterns, `a` in the high bits (00_scope.md R8). -/
def cat (a b : Half) : Word := a ++ b

/-- Bits [15:0] of a word. -/
def loHalf (w : Word) : Half := w.extractLsb' 0 16

/-- Bits [31:16] of a word. -/
def hiHalf (w : Word) : Half := w.extractLsb' 16 16

/-- `sat16` (40_datapath.md R110). -/
def sat16 (v : Int) : Int := min (max v (-32768)) 32767

/-- `asr` (40_datapath.md R111): the floor of v / 2^k. -/
def asr (v : Int) (k : Nat) : Int := v / 2 ^ k

/-- `rshift` (40_datapath.md R112), for k >= 1. -/
def rshift (rnd : Rnd) (v : Int) (k : Nat) : Int :=
  match rnd with
  | .halfUp => asr (v + 2 ^ (k - 1)) k
  | .trunc => asr v k

/-- `add_s` (40_datapath.md R113). -/
def addS (a b : Int) : Int := sat16 (a + b)

/-- `sub_s` (40_datapath.md R113). -/
def subS (a b : Int) : Int := sat16 (a - b)

/-- `hadd` (40_datapath.md R114). -/
def hadd (rnd : Rnd) (a b : Int) : Int := sat16 (rshift rnd (a + b) 1)

/-- `hsub` (40_datapath.md R114). -/
def hsub (rnd : Rnd) (a b : Int) : Int := sat16 (rshift rnd (a - b) 1)

/-- `pre` (40_datapath.md R115): the rescaler's 2-bit pre-shift, never rounded. -/
def pre (v : Int) : Int := asr v 2

/-- `shr1` (40_datapath.md R116). -/
def shr1 (rnd : Rnd) (v : Int) : Int := sat16 (rshift rnd v 1)

/-- `rot_F` (40_datapath.md R117). -/
def rotF (rnd : Rnd) (p : Sample) (t : Twiddle) : Sample :=
  { x := sat16 (rshift rnd (p.x * t.c + p.y * t.s) 16)
    y := sat16 (rshift rnd (p.y * t.c - p.x * t.s) 16) }

/-- `rot_I` (40_datapath.md R118). -/
def rotI (rnd : Rnd) (p : Sample) (t : Twiddle) : Sample :=
  { x := sat16 (rshift rnd (p.x * t.c - p.y * t.s) 16)
    y := sat16 (rshift rnd (p.y * t.c + p.x * t.s) 16) }

/-- The rotation of a direction (41_stage_one.md R141, R143). -/
def rot (rnd : Rnd) (dir : Dir) (p : Sample) (t : Twiddle) : Sample :=
  match dir with
  | .fwd => rotF rnd p t
  | .inv => rotI rnd p t

/-- `pre` on both lanes. -/
def preSample (p : Sample) : Sample := { x := pre p.x, y := pre p.y }

/-- The butterfly kinds (41_stage_one.md R140). -/
inductive Kind where
  | s1
  | s2
  | s3
deriving DecidableEq, Repr

/-- Four samples of a butterfly, at offsets 0, n2, 2·n2 and 3·n2 (41_stage_one.md R140). -/
structure Quad where
  q0 : Sample
  q1 : Sample
  q2 : Sample
  q3 : Sample
deriving DecidableEq, Repr

/-- The pre-shift of the four inputs, in kind `S1` only (41_stage_one.md R141, step 1). -/
def prescale (k : Kind) (q : Quad) : Quad :=
  match k with
  | .s1 => { q0 := preSample q.q0, q1 := preSample q.q1, q2 := preSample q.q2, q3 := preSample q.q3 }
  | .s2 => q
  | .s3 => q

/-- First combine level (41_stage_one.md R141, step 2): P, Q, R, S, saturating and never halving. -/
def firstCombine (q : Quad) : Quad :=
  { q0 := { x := addS q.q0.x q.q2.x, y := addS q.q0.y q.q2.y }
    q1 := { x := subS q.q0.x q.q2.x, y := subS q.q0.y q.q2.y }
    q2 := { x := addS q.q1.x q.q3.x, y := addS q.q1.y q.q3.y }
    q3 := { x := subS q.q1.x q.q3.x, y := subS q.q1.y q.q3.y } }

/-- The sum output A of P and R (41_stage_one.md R141, step 3), with stage two's extra shift (R161). -/
def sumOut (rnd : Rnd) (k : Kind) (p r : Sample) : Sample :=
  match k with
  | .s1 => { x := hadd rnd p.x r.x, y := hadd rnd p.y r.y }
  | .s2 => { x := shr1 rnd (hadd rnd p.x r.x), y := shr1 rnd (hadd rnd p.y r.y) }
  | .s3 => { x := hadd rnd p.x r.x, y := hadd rnd p.y r.y }

/-- The adder of D, Mn and Pl: saturating in `S1`, halving in `S2` and `S3` (41_stage_one.md R141, step 3). -/
def crossAdd (rnd : Rnd) (k : Kind) (a b : Int) : Int :=
  match k with
  | .s1 => addS a b
  | .s2 => hadd rnd a b
  | .s3 => hadd rnd a b

/-- The subtracter of D, Mn and Pl: saturating in `S1`, halving in `S2` and `S3` (41_stage_one.md R141, step 3). -/
def crossSub (rnd : Rnd) (k : Kind) (a b : Int) : Int :=
  match k with
  | .s1 => subS a b
  | .s2 => hsub rnd a b
  | .s3 => hsub rnd a b

/-- The difference D of P and R (41_stage_one.md R141, step 3). -/
def diffOut (rnd : Rnd) (k : Kind) (p r : Sample) : Sample :=
  { x := crossSub rnd k p.x r.x, y := crossSub rnd k p.y r.y }

/-- The cross-sign combination Mn = Q - jS (41_stage_one.md R141, step 3). -/
def crossMinus (rnd : Rnd) (k : Kind) (q s : Sample) : Sample :=
  { x := crossAdd rnd k q.x s.y, y := crossSub rnd k q.y s.x }

/-- The cross-sign combination Pl = Q + jS (41_stage_one.md R141, step 3). -/
def crossPlus (rnd : Rnd) (k : Kind) (q s : Sample) : Sample :=
  { x := crossSub rnd k q.x s.y, y := crossAdd rnd k q.y s.x }

/-- Second combine level (41_stage_one.md R141, step 3), in the placement of R142: A, D, B1, B3. The inverse exchanges
the two cross-sign combinations (R143). -/
def secondCombine (rnd : Rnd) (k : Kind) (dir : Dir) (f : Quad) : Quad :=
  { q0 := sumOut rnd k f.q0 f.q2
    q1 := diffOut rnd k f.q0 f.q2
    q2 := match dir with
      | .fwd => crossMinus rnd k f.q1 f.q3
      | .inv => crossPlus rnd k f.q1 f.q3
    q3 := match dir with
      | .fwd => crossPlus rnd k f.q1 f.q3
      | .inv => crossMinus rnd k f.q1 f.q3 }

/-- Steps 1 to 3 of the butterfly core: the combinations A, D, B1, B3 of four loaded samples (41_stage_one.md R141). -/
def combine (rnd : Rnd) (k : Kind) (dir : Dir) (q : Quad) : Quad :=
  secondCombine rnd k dir (firstCombine (prescale k q))

/-- Step 4 of the butterfly core for `S1` and `S2` (41_stage_one.md R141, R142): D by entry 2t, B1 by entry t, B3 by
entry 3t; A is not rotated. -/
def rotateQuad (rnd : Rnd) (dir : Dir) (q : Quad) (w2 w1 w3 : Twiddle) : Quad :=
  { q0 := q.q0, q1 := rot rnd dir q.q1 w2, q2 := rot rnd dir q.q2 w1, q3 := rot rnd dir q.q3 w3 }

end Sys2Proof.Machine
end

