-- ==== Sys2Proof/Machine/State.lean ====
section
/-! DEFINITION. The machine's state as plain data (10_state.md R47), the reasons a step can stop, and reset. -/

namespace Sys2Proof.Machine

/-- `CTRL` (10_state.md R26): the two interrupt enables. `SRST` holds nothing and the reserved bits read 0. -/
structure Ctrl where
  ieDone : Bool
  ieErr : Bool
deriving DecidableEq, Repr

/-- `STATUS` (10_state.md R27). The reserved bits read 0 and are not stored (log entry 18). -/
structure Status where
  busy : Bool
  done : Bool
  err : Bool
  ovr : Bool
  errcode : Byte
deriving DecidableEq, Repr

/-- `CFG` (10_state.md R29). The reserved bits read 0 and are not stored (log entry 18). -/
structure Cfg where
  log4n : BitVec 4
  dir : Dir
  ord : OutOrder
deriving DecidableEq, Repr

/-- The size of a host access: 8, 16 or 32 bits (20_memory.md R61, 30_encoding.md R100). -/
inductive AccessSize where
  | b8
  | b16
  | b32
deriving DecidableEq, Repr

/-- One input of the machine (log entry 4). `addr` of a register access is a platform address, `REG_BASE` + offset
(30_encoding.md R100); `addr` of a memory access is a data-memory address. -/
inductive Event where
  /-- A host write to the register window. -/
  | regWrite (addr : Nat) (size : AccessSize) (value : Word)
  /-- A host read of the register window. -/
  | regRead (addr : Nat) (size : AccessSize)
  /-- Repeated 32-bit reads of a register until the masked bits have a value (30_encoding.md R100). -/
  | regPoll (addr : Nat) (mask value : Word)
  /-- One 32-bit register read that a test program compares (30_encoding.md R100). -/
  | regExpect (addr : Nat) (mask value : Word)
  /-- A host store to data memory, little-endian. -/
  | memWrite (addr : Nat) (size : AccessSize) (value : Word)
  /-- A host load from data memory. -/
  | memRead (addr : Nat) (size : AccessSize)
  /-- One host load that a test program compares (30_encoding.md R100). -/
  | memExpect (addr : Nat) (value : Word)
  /-- The reset input is driven asserted (true) or released (false) (70_reset_and_hazards.md R260). Driving it to the
  released level when it is released already is the model's own event, and does nothing (log entry 12). -/
  | resetLine (asserted : Bool)
  /-- The engine takes its step now: it completes the latched command (70_reset_and_hazards.md R270). -/
  | engine
deriving DecidableEq, Repr

/-- Data memory: the bytes that something has written, as (address, byte) pairs with strictly rising addresses. A byte
that is not listed has no value of its own and reads as a free value (log entry 2). -/
abbrev Memory := List Host.Cell

/-- The machine (10_state.md R47): instance parameters, registers, command latch and data memory, the reset input,
and below them the model's own fields (log entries 4, 6, 7, 8 and 15). -/
structure State where
  params : Config.Params
  ctrl : Ctrl
  status : Status
  cfg : Cfg
  bufAddr : Word
  twAddr : Word
  twStride : Half
  twLen : Word
  brAddr : Word
  brCount : Half
  errInfo : Word
  opa : Word
  opb : Word
  res : Word
  latch : Option Word
  mem : Memory
  resetIn : Bool
  /-- Model's own: the inputs still to come, head first (log entry 4). -/
  inbox : List Event
  /-- Model's own: the platform's answers to the engine's coming accesses, `true` an error (log entry 6). -/
  busErrs : List Bool
  /-- Model's own: addresses of the words raced by host writes during the running command (log entry 8). -/
  races : List Nat
  /-- Model's own: how many free values have been drawn (log entry 7). -/
  freeCount : Nat
  /-- Model's own: what the last host read returned (log entry 15). -/
  readData : Word
deriving DecidableEq, Repr

/-- Why the machine stops with a fault. No command of the opcode table ends in one. -/
inductive Fault where
  /-- A host data-memory access reaches outside the 2^`ADDR_W` bytes (20_memory.md R60). Raised by host loads and
  stores. Safe: the spec gives no such byte (log entry 10). -/
  | memOutsideSpace (addr : Nat)
  /-- A host test program's `expect` differs: "the program fails if it differs" (30_encoding.md R100). Raised by
  `regExpect` and `memExpect`. Safe (log entry 17). -/
  | expectFailed (got wanted : Word)
deriving DecidableEq, Repr

/-- Why the machine refuses a step. No command of the opcode table ends in one. -/
inductive Refusal where
  /-- An instruction without a meaning yet. Raised by no arm of `exec`: every command has its meaning. -/
  | notModelled (mnemonic : String)
  /-- A register access of another width than 32 bits, or at an offset that is no multiple of 4: "A model refuses
  such an access" (10_state.md R23). Raised by host register accesses. Safe. -/
  | regAccessUndefined (addr : Nat)
  /-- A register access at an address outside the 64-byte window (10_state.md R22), which is another device's. Raised
  by host register accesses. Safe (log entry 11). -/
  | outsideWindow (addr : Nat)
deriving DecidableEq, Repr

/-- The machine of an instance right after the release of reset (10_state.md R44, 70_reset_and_hazards.md R260, R263):
data memory lists nothing. -/
def State.resetOf (p : Config.Params) : State :=
  { params := p
    ctrl := { ieDone := false, ieErr := false }
    status := { busy := false, done := false, err := false, ovr := false, errcode := 0#8 }
    cfg := { log4n := 0#4, dir := .fwd, ord := .bitReversed }
    bufAddr := 0#32, twAddr := 0#32, twStride := 0#16, twLen := 0#32, brAddr := 0#32, brCount := 0#16
    errInfo := 0#32, opa := 0#32, opb := 0#32, res := 0#32
    latch := none
    mem := []
    resetIn := false
    inbox := [], busErrs := [], races := [], freeCount := 0, readData := 0#32 }

/-- The machine right after reset, with the default parameters of 00_scope.md R6. -/
def State.reset : State := State.resetOf Config.defaultParams

end Sys2Proof.Machine
end

