-- ==== Sys2Proof/Machine/Flags.lean ====
section
/-! DEFINITION. The flags of `STATUS` (10_state.md R27, R41), their W1C acknowledge, and the interrupt output. -/

namespace Sys2Proof.Machine

/-- One bit of a register word. -/
def bit (b : Bool) (at' : Nat) : Word := if b then 1#32 <<< at' else 0#32

/-- `STATUS` as the host reads it (10_state.md R27). -/
def statusWord (st : Status) : Word :=
  bit st.busy 0 ||| bit st.done 1 ||| bit st.err 2 ||| bit st.ovr 3 ||| (st.errcode.setWidth 32 <<< 8)

/-- `CTRL` as the host reads it: `SRST` and the reserved bits read 0 (10_state.md R26). -/
def ctrlWord (c : Ctrl) : Word := bit c.ieDone 0 ||| bit c.ieErr 1

/-- The interrupt enables a `CTRL` write stores (10_state.md R26). -/
def ctrlOfWord (v : Word) : Ctrl := { ieDone := v.getLsbD 0, ieErr := v.getLsbD 1 }

/-- The flags at acceptance of a command: `DONE <- 0; BUSY <- 1` (60_exceptions.md R232). -/
def Status.accepted (st : Status) : Status := { st with done := false, busy := true }

/-- The flags at a successful completion: `BUSY <- 0; DONE <- 1` (60_exceptions.md R237). -/
def Status.completed (st : Status) : Status := { st with busy := false, done := true }

/-- The flags at an error completion: `BUSY <- 0; ERR <- 1; ERRCODE <- c` (60_exceptions.md R238). -/
def Status.failed (st : Status) (code : Byte) : Status := { st with busy := false, err := true, errcode := code }

/-- A dropped write: `OVR <- 1` (60_exceptions.md R244). -/
def Status.overrun (st : Status) : Status := { st with ovr := true }

/-- A `STATUS` write of `v`: W1C of `DONE` (bit 1), of `ERR` with `ERRCODE` (bit 2), of `OVR` (bit 3); writing `BUSY` has
no effect (10_state.md R27, 60_exceptions.md R242). -/
def Status.writeOneToClear (st : Status) (v : Word) : Status :=
  { busy := st.busy
    done := st.done && !v.getLsbD 1
    err := st.err && !v.getLsbD 2
    ovr := st.ovr && !v.getLsbD 3
    errcode := if v.getLsbD 2 then 0#8 else st.errcode }

/-- A `STATUS` write: the W1C of the flags, and with `ERR` the whole `ERRINFO` (10_state.md R27, R36). This is the
return from an error (60_exceptions.md R242). -/
def acknowledge (v : Word) (s : State) : State :=
  { s with status := s.status.writeOneToClear v, errInfo := if v.getLsbD 2 then 0#32 else s.errInfo }

/-- The level interrupt output (60_exceptions.md R240). -/
def State.irq (s : State) : Bool := (s.status.done && s.ctrl.ieDone) || (s.status.err && s.ctrl.ieErr)

end Sys2Proof.Machine
end

