-- ==== Sys2Proof/Machine/Ops.lean ====
section
/-! DEFINITION. The named operations over data memory, the engine's accesses, acceptance, completion and errors. -/

namespace Sys2Proof.Machine

/-! Data memory (00_scope.md R10, 20_memory.md R60, R61). -/

/-- The canonical form: addresses strictly rise, so each address is listed at most once. -/
def memWf (m : Memory) : Bool :=
  match m with
  | [] => true
  | (a, _) :: rest => (match rest with | [] => true | (b, _) :: _ => decide (a < b)) && memWf rest

/-- The byte listed at an address, if something has written it. -/
def memLookup (m : Memory) (a : Nat) : Option Byte :=
  match m with
  | [] => none
  | (b, v) :: rest => if b = a then some v else memLookup rest a

/-- One byte written, in the canonical form. -/
def memInsert (m : Memory) (a : Nat) (v : Byte) : Memory :=
  match m with
  | [] => [(a, v)]
  | (b, u) :: rest =>
    if a < b then (a, v) :: (b, u) :: rest
    else if a = b then (a, v) :: rest
    else (b, u) :: memInsert rest a v

/-- One byte read: "a read returns the last value written" (20_memory.md R60). A byte nothing has written is a free
value (70_reset_and_hazards.md R263, log entry 2). -/
def memByte (m : Memory) (a : Nat) : Byte := (memLookup m a).getD (Config.powerOnByte a)

/-- `MemRead(a, n)` (00_scope.md R10): the byte at the lowest address is the low byte (20_memory.md R61). -/
def memRead (m : Memory) (a : Nat) (n : Nat) : Nat :=
  match n with
  | 0 => 0
  | k + 1 => (memByte m a).toNat + 256 * memRead m (a + 1) k

/-- `MemWrite(a, n, v)` (00_scope.md R10), little-endian (20_memory.md R61). -/
def memWrite (m : Memory) (a : Nat) (n : Nat) (v : Nat) : Memory :=
  match n with
  | 0 => m
  | k + 1 => memWrite (memInsert m a (BitVec.ofNat 8 v)) (a + 1) k (v / 256)

/-- `n` bytes from `a` given any value: those of free draw `draw` (log entry 7). -/
def memFree (draw : Nat) (m : Memory) (a : Nat) (n : Nat) : Memory :=
  match n with
  | 0 => m
  | k + 1 => memInsert (memFree draw m a k) (a + k) (Config.freeByte draw (a + k))

/-- The words at some addresses given any value. -/
def memFreeWords (draw : Nat) (m : Memory) (words : List Nat) : Memory :=
  match words with
  | [] => m
  | a :: rest => memFree draw (memFreeWords draw m rest) a 4

/-! The errors of 60_exceptions.md R231. -/

/-- The exceptions `raise` takes, with their `ERRINFO` (00_scope.md R11, 60_exceptions.md R231). -/
inductive CmdError where
  | illegalCmd (word : Word)
  | badN (log4n : Word)
  | badAlign (base : Word)
  | badStride (stride : Word)
  | badRange (base : Word)
  | badTable (pair : Word)
  | busErr (addr : Word)
deriving DecidableEq, Repr

/-- The code of an error (60_exceptions.md R231). -/
def errorCode (x : CmdError) : Byte :=
  match x with
  | .illegalCmd _ => 0x01#8
  | .badN _ => 0x02#8
  | .badAlign _ => 0x03#8
  | .badStride _ => 0x04#8
  | .badRange _ => 0x05#8
  | .badTable _ => 0x06#8
  | .busErr _ => 0x07#8

/-- The detail of an error (60_exceptions.md R231). -/
def errorInfo (x : CmdError) : Word :=
  match x with
  | .illegalCmd w => w
  | .badN l => l
  | .badAlign b => b
  | .badStride t => t
  | .badRange b => b
  | .badTable p => p
  | .busErr a => a

/-! The engine's accesses. -/

/-- What a running command works on: data memory, the platform's coming answers (20_memory.md R83), and whether writes
are kept. `dry` is set when the buffer overlaps a table: the buffer's final contents are then unspecified
(20_memory.md R82), so only the answers to the accesses matter (log entry 9). -/
structure Eng where
  mem : Memory
  bus : List Bool
  dry : Bool
deriving DecidableEq, Repr

/-- A piece of a command's pseudocode: it goes on, or it ends with `raise`. -/
abbrev EngM (α : Type) := EStateM CmdError Eng α

/-- The platform's answer to an access at `a`: an error ends the command with `BUS_ERR` and the byte address of the
access (20_memory.md R83, 60_exceptions.md R236). With no answer left there is no error. -/
def busAnswer (a : Nat) : EngM Unit := fun e =>
  match e.bus with
  | [] => .ok () e
  | false :: rest => .ok () { e with bus := rest }
  | true :: rest => .error (.busErr (BitVec.ofNat 32 a)) { e with bus := rest }

/-- One engine read of a 4-byte word (20_memory.md R68). -/
def engRead (a : Nat) : EngM Word := do
  busAnswer a
  let e ← get
  pure (BitVec.ofNat 32 (memRead e.mem a 4))

/-- One engine write of a 4-byte word (20_memory.md R68). -/
def engWrite (a : Nat) (w : Word) : EngM Unit := do
  busAnswer a
  modify fun e => if e.dry then e else { e with mem := memWrite e.mem a 4 w.toNat }

/-- `for i in 0 .. n-1: body i`, ascending; no iteration for n = 0 (00_scope.md R12). -/
def forUp (n : Nat) (body : Nat → EngM Unit) : EngM Unit :=
  match n with
  | 0 => pure ()
  | k + 1 => do
    forUp k body
    body k

/-! Acceptance and completion. -/

/-- Acceptance of a command word (60_exceptions.md R232). -/
def accept (w : Word) (s : State) : State := { s with status := s.status.accepted, latch := some w }

/-- A dropped write (60_exceptions.md R232, R244, 10_state.md R40). -/
def dropWrite (s : State) : State := { s with status := s.status.overrun }

/-- `complete` (60_exceptions.md R237): successful completion. -/
def complete (s : State) : State := { s with status := s.status.completed, latch := none }

/-- `raise E(info)`, the error completion (60_exceptions.md R238, 00_scope.md R11): the one way an error is taken. -/
def raiseError (x : CmdError) (s : State) : State :=
  { s with status := s.status.failed (errorCode x), errInfo := errorInfo x, latch := none }

/-- Every register of the block at its reset value (10_state.md R44), everything else kept: the parameters, the data
memory, the reset input and the model's own inputs and counters. No command runs afterwards, so no race is left. -/
def clearRegisters (s : State) : State :=
  { State.resetOf s.params with
    mem := s.mem
    resetIn := s.resetIn
    inbox := s.inbox
    busErrs := s.busErrs
    freeCount := s.freeCount
    readData := s.readData }

end Sys2Proof.Machine
end

