-- ==== Sys2Proof/Machine/Operands.lean ====
section
/-! DEFINITION. The operands of the commands (30_encoding.md R95): register fields, sample, twiddle and pair accessors,
the regions of each command and the register check `Validate`. -/

namespace Sys2Proof.Machine

open Sys2Proof.Config (PackOrder)

/-! Register operands. -/

/-- L = `CFG.LOG4N` (10_state.md R29). -/
def State.log4n (s : State) : Nat := s.cfg.log4n.toNat

/-- N = 4^L (00_scope.md R7). -/
def State.fftLen (s : State) : Nat := 4 ^ s.log4n

/-- S = `TW_STRIDE` (10_state.md R32). -/
def State.stride (s : State) : Nat := s.twStride.toNat

/-- P = `BR_COUNT` (10_state.md R35). -/
def State.pairCount (s : State) : Nat := s.brCount.toNat

/-- `OPA` as the sample (u, v) (10_state.md R37). -/
def opaSample (s : State) : Sample := { x := s16 (loHalf s.opa), y := s16 (hiHalf s.opa) }

/-- `OPB` as the twiddle entry (c, s) (10_state.md R38). -/
def opbTwiddle (s : State) : Twiddle := { c := s16 (loHalf s.opb), s := s16 (hiHalf s.opb) }

/-- The `RES` word of a result: `RE` in bits [15:0], `IM` in bits [31:16] (10_state.md R39). -/
def resWord (p : Sample) : Word := cat (u16 p.y) (u16 p.x)

/-! Accessors. -/

/-- The sample a buffer word holds (20_memory.md R64). -/
def sampleOfWord (pack : PackOrder) (w : Word) : Sample :=
  match pack with
  | .reIm => { x := s16 (loHalf w), y := s16 (hiHalf w) }
  | .imRe => { x := s16 (hiHalf w), y := s16 (loHalf w) }

/-- The buffer word that holds a sample (20_memory.md R64). -/
def wordOfSample (pack : PackOrder) (p : Sample) : Word :=
  match pack with
  | .reIm => cat (u16 p.y) (u16 p.x)
  | .imRe => cat (u16 p.x) (u16 p.y)

/-- The twiddle entry a table word holds, whatever `PACK_ORDER` is (20_memory.md R66). -/
def twiddleOfWord (w : Word) : Twiddle := { c := s16 (loHalf w), s := s16 (hiHalf w) }

/-- The byte address of sample i (20_memory.md R64). -/
def sampleAddr (s : State) (i : Nat) : Nat := s.bufAddr.toNat + 4 * i

/-- The byte address of twiddle entry m (20_memory.md R66). -/
def twiddleAddr (s : State) (m : Nat) : Nat := s.twAddr.toNat + 4 * m

/-- The byte address of swap pair p (20_memory.md R67). -/
def pairAddr (s : State) (p : Nat) : Nat := s.brAddr.toNat + 4 * p

/-- `LoadSample(i)` (20_memory.md R64). -/
def loadSample (s : State) (i : Nat) : EngM Sample := do
  let w ← engRead (sampleAddr s i)
  pure (sampleOfWord s.params.packOrder w)

/-- `StoreSample(i, (x, y))` (20_memory.md R64). -/
def storeSample (s : State) (i : Nat) (p : Sample) : EngM Unit :=
  engWrite (sampleAddr s i) (wordOfSample s.params.packOrder p)

/-- `LoadTwiddle(m)` (20_memory.md R66). -/
def loadTwiddle (s : State) (m : Nat) : EngM Twiddle := do
  let w ← engRead (twiddleAddr s m)
  pure (twiddleOfWord w)

/-- `LoadPair(p)` (20_memory.md R67): two sample indices. -/
def loadPair (s : State) (p : Nat) : EngM (Nat × Nat) := do
  let w ← engRead (pairAddr s p)
  pure ((loHalf w).toNat, (hiHalf w).toNat)

/-! What memory holds, without an access: the same layouts, for the host's view and for statements. -/

/-- The word of memory at a byte address. -/
def wordAt (m : Memory) (a : Nat) : Word := BitVec.ofNat 32 (memRead m a 4)

/-- Sample i as memory `m` holds it (20_memory.md R64). -/
def sampleAt (s : State) (m : Memory) (i : Nat) : Sample := sampleOfWord s.params.packOrder (wordAt m (sampleAddr s i))

/-- Twiddle entry k as memory `m` holds it (20_memory.md R66). -/
def twiddleAt (s : State) (m : Memory) (k : Nat) : Twiddle := twiddleOfWord (wordAt m (twiddleAddr s k))

/-- Swap pair p as memory `m` holds it (20_memory.md R67). -/
def pairAt (s : State) (m : Memory) (p : Nat) : Nat × Nat :=
  ((loHalf (wordAt m (pairAddr s p))).toNat, (hiHalf (wordAt m (pairAddr s p))).toNat)

/-! Regions (20_memory.md R63, 60_exceptions.md R234). -/

/-- A region of data memory: its base register and its size in bytes (20_memory.md R63). -/
structure Region where
  base : Word
  size : Nat
deriving DecidableEq, Repr

/-- The buffer region (20_memory.md R63). -/
def bufRegion (s : State) : Region := { base := s.bufAddr, size := 4 * s.fftLen }

/-- The twiddle region (20_memory.md R63). -/
def twRegion (s : State) : Region := { base := s.twAddr, size := 4 * s.twLen.toNat }

/-- The bit-reversal region (20_memory.md R63). -/
def brRegion (s : State) : Region := { base := s.brAddr, size := 4 * s.pairCount }

/-- The regions of a command in the order BUF, TW, BR (60_exceptions.md R234). -/
def regions (i : Instr) (s : State) : List Region :=
  match i with
  | .nop => []
  | .stg1f => [bufRegion s, twRegion s]
  | .stg1i => [bufRegion s, twRegion s]
  | .stg2f => [bufRegion s, twRegion s]
  | .stg2i => [bufRegion s, twRegion s]
  | .stg3f => [bufRegion s]
  | .stg3i => [bufRegion s]
  | .bitrev => [bufRegion s, brRegion s]
  | .xform => match s.cfg.ord with
    | .bitReversed => [bufRegion s, twRegion s]
    | .natural => [bufRegion s, twRegion s, brRegion s]
  | .rotf => []
  | .roti => []
  | .presc => []

/-- Whether a command uses N, and so has its registers checked (60_exceptions.md R233, first line of `Validate`). -/
def usesLength (i : Instr) : Bool :=
  match i with
  | .nop => false
  | .stg1f => true
  | .stg1i => true
  | .stg2f => true
  | .stg2i => true
  | .stg3f => true
  | .stg3i => true
  | .bitrev => true
  | .xform => true
  | .rotf => false
  | .roti => false
  | .presc => false

/-- Whether a command reads twiddles, and so has its stride checked (60_exceptions.md R234). -/
def readsTwiddles (i : Instr) : Bool :=
  match i with
  | .nop => false
  | .stg1f => true
  | .stg1i => true
  | .stg2f => true
  | .stg2i => true
  | .stg3f => false
  | .stg3i => false
  | .bitrev => false
  | .xform => true
  | .rotf => false
  | .roti => false
  | .presc => false

/-- A region base with bit [1] or [0] set (20_memory.md R62). -/
def Region.misaligned (r : Region) : Bool := r.base.extractLsb' 0 2 != 0#2

/-- A region that ends above 2^`ADDR_W`, computed exactly (20_memory.md R63). -/
def Region.outOfRange (r : Region) (addrW : Nat) : Bool := decide (2 ^ addrW < r.base.toNat + r.size)

/-- Whether a byte range meets a region. A range or region of size 0 meets nothing. -/
def Region.meets (r : Region) (a n : Nat) : Bool :=
  decide (0 < n) && decide (0 < r.size) && decide (a < r.base.toNat + r.size) && decide (r.base.toNat < a + n)

/-- The alignment and range checks over some regions, in their order (60_exceptions.md R233). -/
def checkRegions (rs : List Region) (addrW : Nat) : Option CmdError :=
  match rs.find? (fun r => r.misaligned) with
  | some r => some (.badAlign r.base)
  | none =>
    match rs.find? (fun r => r.outOfRange addrW) with
    | some r => some (.badRange r.base)
    | none => none

/-- `Validate(m)` (60_exceptions.md R233): the error of the first check that fails, if one does. -/
def validate (i : Instr) (s : State) : Option CmdError :=
  if usesLength i = false then none
  else if s.log4n < 2 ∨ s.params.log4nMax < s.log4n then some (.badN (s.cfg.log4n.setWidth 32))
  else if readsTwiddles i = true ∧ (s.stride = 0 ∨ s.stride * s.fftLen ≠ s.twLen.toNat) then
    some (.badStride (s.twStride.setWidth 32))
  else checkRegions (regions i s) s.params.addrW

/-- Whether the buffer of a command overlaps one of its table regions (20_memory.md R82): its final contents are then
unspecified, for every command that has both regions. -/
def bufferOverlaps (i : Instr) (s : State) : Bool :=
  match regions i s with
  | [] => false
  | buf :: tables => tables.any (fun t => t.meets buf.base.toNat buf.size)

/-! Buffers that become unspecified. -/

/-- The part of the first region of a command, its buffer, that exists in data memory gets any value (20_memory.md R77,
R82, 60_exceptions.md R236, 70_reset_and_hazards.md R262). Nothing happens for a command without regions. -/
def freeBuffer (i : Instr) (s : State) : State :=
  match regions i s with
  | [] => s
  | buf :: _ =>
    { s with
      mem := memFree s.freeCount s.mem buf.base.toNat (min buf.size (2 ^ s.params.addrW - buf.base.toNat))
      freeCount := s.freeCount + 1 }

/-- At the end of a command that raced with a host write, every word of the buffer and every raced word gets any value
(20_memory.md R77). -/
def settleRaces (i : Instr) (s : State) : State :=
  match s.races with
  | [] => s
  | a :: rest =>
    let t := freeBuffer i s
    { t with mem := memFreeWords t.freeCount t.mem (a :: rest), freeCount := t.freeCount + 1, races := [] }

/-- The command the latch holds, if its word is legal (60_exceptions.md R233). -/
def runningCommand (s : State) : Option Instr :=
  match s.latch with
  | none => none
  | some w =>
    match decode w with
    | .ok i => some i
    | .error _ => none

/-- Hardware and soft reset (70_reset_and_hazards.md R260 to R262): every register at its reset value; the buffer of a
command in flight becomes unspecified. -/
def applyReset (s : State) : State :=
  match runningCommand s with
  | none => clearRegisters s
  | some i => clearRegisters (freeBuffer i s)

/-! Running a command that has regions. -/

/-- The end of a command with an error (60_exceptions.md R236, R238, R239): `BUS_ERR` leaves the buffer unspecified, every
other error leaves data memory as it was at acceptance. -/
def endWithError (i : Instr) (x : CmdError) (s : State) : State :=
  match x with
  | .busErr _ => raiseError x (settleRaces i (freeBuffer i s))
  | .illegalCmd _ => raiseError x (settleRaces i s)
  | .badN _ => raiseError x (settleRaces i s)
  | .badAlign _ => raiseError x (settleRaces i s)
  | .badStride _ => raiseError x (settleRaces i s)
  | .badRange _ => raiseError x (settleRaces i s)
  | .badTable _ => raiseError x (settleRaces i s)

/-- The end of a command without an error (60_exceptions.md R237): its buffer writes are performed, and with an
overlap the buffer is unspecified (20_memory.md R82). -/
def endWithSuccess (i : Instr) (e : Eng) (s : State) : State :=
  let t := { s with mem := e.mem, busErrs := e.bus }
  complete (settleRaces i (if bufferOverlaps i s then freeBuffer i t else t))

/-- What a command's body starts from: data memory as it is at acceptance and the platform's coming answers. -/
def engStart (i : Instr) (s : State) : Eng := { mem := s.mem, bus := s.busErrs, dry := bufferOverlaps i s }

/-- A command whose rule is `Validate; body; complete` (60_exceptions.md R233). -/
def runCommand (i : Instr) (body : EngM Unit) (s : State) : Host.Outcome State Fault Refusal :=
  match validate i s with
  | some x => .next (endWithError i x s)
  | none =>
    match body (engStart i s) with
    | .ok _ e => .next (endWithSuccess i e s)
    | .error x e => .next (endWithError i x { s with busErrs := e.bus })

/-- A primitive command (40_datapath.md R122 to R124): no register check, no data memory, one result in `RES`. -/
def runPrimitive (p : Sample) (s : State) : Host.Outcome State Fault Refusal :=
  .next (complete { s with res := resWord p })

end Sys2Proof.Machine
end

