-- ==== Sys2Proof/Machine/Bus.lean ====
section
/-! DEFINITION. The host's side: the register window (10_state.md R22 to R40), the acceptance of commands
(60_exceptions.md R232) and the host's data-memory accesses (20_memory.md R75, R77). -/

namespace Sys2Proof.Machine

open Sys2Proof.Config (PackOrder Rnd)

/-! The register window. -/

/-- The byte offset of a register (10_state.md R22). -/
def regOffset (r : Reg) : Nat :=
  match r with
  | .id => 0x00
  | .ctrl => 0x04
  | .status => 0x08
  | .cmd => 0x0C
  | .cfg => 0x10
  | .bufAddr => 0x14
  | .twAddr => 0x18
  | .twStride => 0x1C
  | .twLen => 0x20
  | .brAddr => 0x24
  | .brCount => 0x28
  | .errInfo => 0x2C
  | .opa => 0x30
  | .opb => 0x34
  | .res => 0x38
  | .reserved => 0x3C

/-- The sixteen registers of the window (10_state.md R22). -/
def windowRegs : List Reg :=
  [.id, .ctrl, .status, .cmd, .cfg, .bufAddr, .twAddr, .twStride, .twLen, .brAddr, .brCount, .errInfo, .opa, .opb,
    .res, .reserved]

/-- The register at a byte offset, if the offset is a multiple of 4 below 0x40 (10_state.md R22, R23). -/
def regAtOffset (off : Nat) : Option Reg := windowRegs.find? fun r => regOffset r == off

/-- The platform address of a register: `REG_BASE` + offset (30_encoding.md R100). -/
def regAddr (p : Config.Params) (r : Reg) : Nat := p.regBase + regOffset r

/-- How a register access is answered: by a register, refused, or by another device. -/
inductive WindowHit where
  | reg (r : Reg)
  | undefinedAccess
  | outside
deriving DecidableEq, Repr

/-- The register access of a platform address: only 32-bit accesses at multiples of 4 are defined (10_state.md R22,
R23). -/
def decodeAccess (p : Config.Params) (addr : Nat) (size : AccessSize) : WindowHit :=
  if addr < p.regBase ∨ p.regBase + 64 ≤ addr then .outside
  else match size with
    | .b8 => .undefinedAccess
    | .b16 => .undefinedAccess
    | .b32 =>
      match regAtOffset (addr - p.regBase) with
      | some r => .reg r
      | none => .undefinedAccess

/-- `ID` (10_state.md R25), a constant of the instance. -/
def idWord (p : Config.Params) : Word :=
  bit (decide (p.packOrder = .imRe)) 0 ||| bit (decide (p.rnd = .trunc)) 1
    ||| ((BitVec.ofNat 4 p.log4nMax).setWidth 32 <<< 4) ||| (0x01#32 <<< 8) ||| (0x4634#32 <<< 16)

/-- `CFG` as the host reads it (10_state.md R29). -/
def cfgWord (c : Cfg) : Word :=
  c.log4n.setWidth 32 ||| bit (decide (c.dir = .inv)) 4 ||| bit (decide (c.ord = .natural)) 5

/-- The fields a `CFG` write stores (10_state.md R29). -/
def cfgOfWord (v : Word) : Cfg :=
  { log4n := v.extractLsb' 0 4
    dir := if v.getLsbD 4 then .inv else .fwd
    ord := if v.getLsbD 5 then .natural else .bitReversed }

/-- An address register keeps bits [`ADDR_W`-1:0] of what is written (10_state.md R30). -/
def maskAddr (p : Config.Params) (v : Word) : Word := BitVec.ofNat 32 (v.toNat % 2 ^ p.addrW)

/-- A register as the host reads it, without side effects (10_state.md R22 to R39). -/
def readReg (r : Reg) (s : State) : Word :=
  match r with
  | .id => idWord s.params
  | .ctrl => ctrlWord s.ctrl
  | .status => statusWord s.status
  | .cmd => 0#32
  | .cfg => cfgWord s.cfg
  | .bufAddr => s.bufAddr
  | .twAddr => s.twAddr
  | .twStride => s.twStride.setWidth 32
  | .twLen => s.twLen
  | .brAddr => s.brAddr
  | .brCount => s.brCount.setWidth 32
  | .errInfo => s.errInfo
  | .opa => s.opa
  | .opb => s.opb
  | .res => s.res
  | .reserved => 0#32

/-- A write of word w to `CMD` (60_exceptions.md R232): accepted, or dropped while `BUSY` or `ERR` is set. -/
def writeCmd (w : Word) (s : State) : State :=
  if s.status.busy || s.status.err then dropWrite s else accept w s

/-- A `CTRL` write: soft reset when `SRST` is written 1, else the interrupt enables (10_state.md R26,
70_reset_and_hazards.md R261). -/
def writeCtrl (v : Word) (s : State) : State :=
  if v.getLsbD 31 then applyReset s else { s with ctrl := ctrlOfWord v }

/-- A write to an input register of commands: dropped while `BUSY` is set (10_state.md R40). -/
def writeInput (s t : State) : State := if s.status.busy then dropWrite s else t

/-- A 32-bit host write to a register (10_state.md R22 to R40). -/
def writeReg (r : Reg) (v : Word) (s : State) : State :=
  match r with
  | .id => s
  | .ctrl => writeCtrl v s
  | .status => acknowledge v s
  | .cmd => writeCmd v s
  | .cfg => writeInput s { s with cfg := cfgOfWord v }
  | .bufAddr => writeInput s { s with bufAddr := maskAddr s.params v }
  | .twAddr => writeInput s { s with twAddr := maskAddr s.params v }
  | .twStride => writeInput s { s with twStride := v.extractLsb' 0 16 }
  | .twLen => writeInput s { s with twLen := v }
  | .brAddr => writeInput s { s with brAddr := maskAddr s.params v }
  | .brCount => writeInput s { s with brCount := v.extractLsb' 0 16 }
  | .errInfo => s
  | .opa => writeInput s { s with opa := v }
  | .opb => writeInput s { s with opb := v }
  | .res => s
  | .reserved => s

/-- A host register write. While the reset input is asserted every register keeps its reset value
(70_reset_and_hazards.md R260, log entry 12). -/
def hostRegWrite (addr : Nat) (size : AccessSize) (v : Word) (s : State) : Host.Outcome State Fault Refusal :=
  match decodeAccess s.params addr size with
  | .reg r => .next (if s.resetIn then s else writeReg r v s)
  | .undefinedAccess => .refused (.regAccessUndefined addr)
  | .outside => .refused (.outsideWindow addr)

/-- A host register read: the register's value is returned and nothing else changes (10_state.md R23). -/
def hostRegRead (addr : Nat) (size : AccessSize) (s : State) : Host.Outcome State Fault Refusal :=
  match decodeAccess s.params addr size with
  | .reg r => .next { s with readData := readReg r s }
  | .undefinedAccess => .refused (.regAccessUndefined addr)
  | .outside => .refused (.outsideWindow addr)

/-- A host register read that a test program compares (30_encoding.md R100). -/
def hostRegExpect (addr : Nat) (mask value : Word) (s : State) : Host.Outcome State Fault Refusal :=
  match decodeAccess s.params addr .b32 with
  | .reg r =>
    if readReg r s &&& mask = value then .next { s with readData := readReg r s }
    else .fault (.expectFailed (readReg r s &&& mask) value)
  | .undefinedAccess => .refused (.regAccessUndefined addr)
  | .outside => .refused (.outsideWindow addr)

/-! The reset input. -/

/-- The reset input is driven to a level: "While it is asserted, and when it is released", every register has its reset
value (70_reset_and_hazards.md R260). DESIGN CHOICE (log entry 12): an input that drives the released level while the
line is released already is no release, and changes nothing. The spec names no such event. -/
def setResetLine (asserted : Bool) (s : State) : State :=
  if asserted || s.resetIn then { applyReset s with resetIn := asserted } else s

/-! The host's data-memory accesses. -/

/-- The bytes of an access. -/
def accessBytes (size : AccessSize) : Nat :=
  match size with
  | .b8 => 1
  | .b16 => 2
  | .b32 => 4

/-- The regions of the running command (20_memory.md R77): none when no command runs or its word is illegal. -/
def runningRegions (s : State) : List Region :=
  match runningCommand s with
  | none => []
  | some i => regions i s

/-- Whether a host access meets a region of the running command (20_memory.md R77). -/
def racesWithCommand (a n : Nat) (s : State) : Bool := (runningRegions s).any fun r => r.meets a n

/-- The aligned words an access of `n` bytes at `a` touches. -/
def touchedWords (a n : Nat) : List Nat :=
  if (a + n - 1) / 4 = a / 4 then [4 * (a / 4)] else [4 * (a / 4), 4 * (a / 4) + 4]

/-- A host load (20_memory.md R75, R77): little-endian, zero-extended; a free value when it races. -/
def hostLoad (a : Nat) (size : AccessSize) (s : State) : Host.Outcome State Fault Refusal :=
  if 2 ^ s.params.addrW < a + accessBytes size then .fault (.memOutsideSpace a)
  else if racesWithCommand a (accessBytes size) s then
    .next { s with
      readData := BitVec.ofNat 32 ((Config.freeWord s.freeCount).toNat % 256 ^ accessBytes size)
      freeCount := s.freeCount + 1 }
  else .next { s with readData := BitVec.ofNat 32 (memRead s.mem a (accessBytes size)) }

/-- A host store (20_memory.md R75, R77): little-endian. When it races, the words it touches get any value, now and
again when the command completes (log entry 8). -/
def hostStore (a : Nat) (size : AccessSize) (v : Word) (s : State) : Host.Outcome State Fault Refusal :=
  if 2 ^ s.params.addrW < a + accessBytes size then .fault (.memOutsideSpace a)
  else if racesWithCommand a (accessBytes size) s then
    .next { s with
      mem := memFreeWords s.freeCount s.mem (touchedWords a (accessBytes size))
      freeCount := s.freeCount + 1
      races := touchedWords a (accessBytes size) ++ s.races }
  else .next { s with mem := memWrite s.mem a (accessBytes size) v.toNat }

/-- A host load that a test program compares (30_encoding.md R100). -/
def hostMemExpect (a : Nat) (value : Word) (s : State) : Host.Outcome State Fault Refusal :=
  match hostLoad a .b32 s with
  | .next t => if t.readData = value then .next t else .fault (.expectFailed t.readData value)
  | .fault f => .fault f
  | .refused r => .refused r

/-! Host programs (30_encoding.md R100, R101). -/

/-- The bus transactions of one line of a host program, with the pseudos expanded (30_encoding.md R100, R101). -/
def formEvents (p : Config.Params) (f : HostForm) : List Event :=
  match f with
  | .wr r imm => [.regWrite (regAddr p r) .b32 imm]
  | .rd r => [.regRead (regAddr p r) .b32]
  | .poll r mask value => [.regPoll (regAddr p r) mask value]
  | .expect r mask value => [.regExpect (regAddr p r) mask value]
  | .st32 a imm => [.memWrite a .b32 imm]
  | .st16 a imm => [.memWrite a .b16 (imm.setWidth 32)]
  | .ld32 a => [.memRead a .b32]
  | .expect32 a value => [.memExpect a value]
  | .cmd m => [.regWrite (regAddr p .cmd) .b32 (encode m)]
  | .wait => [.regPoll (regAddr p .status) 1#32 0#32]
  | .clr => [.regWrite (regAddr p .status) .b32 0x0000000E#32]
  | .cfg l dir ord => [.regWrite (regAddr p .cfg) .b32 (cfgWord { log4n := BitVec.ofNat 4 l, dir := dir, ord := ord })]
  | .run m => [.regWrite (regAddr p .cmd) .b32 (encode m), .regPoll (regAddr p .status) 1#32 0#32]
  | .rawCmd w => [.regWrite (regAddr p .cmd) .b32 w]

/-- The encoding of a host program: its bus transactions in program order (30_encoding.md R100). -/
def programEvents (p : Config.Params) (prog : List HostForm) : List Event := prog.flatMap (formEvents p)

end Sys2Proof.Machine
end

