-- ==== Sys2Proof/Machine/Butterfly.lean ====
section
/-! DEFINITION. The butterfly core and the passes built from it (41_stage_one.md R140 to R144, 42_stage_two.md R160,
43_stage_three.md R180, 44_permute_dispatch.md R201, R202, R205). Register operands come from the state `s` at
acceptance, which rule R40 of 10_state.md freezes. -/

namespace Sys2Proof.Machine

/-- Steps 4 of the butterfly core: the twiddle entries 2t, t and 3t rotate D, B1 and B3 (41_stage_one.md R141). -/
def rotateFrom (s : State) (dir : Dir) (t : Nat) (q : Quad) : EngM Quad := do
  let w2 ← loadTwiddle s (2 * t)
  let w1 ← loadTwiddle s t
  let w3 ← loadTwiddle s (3 * t)
  pure (rotateQuad s.params.rnd dir q w2 w1 w3)

/-- Step 4 by kind: `S3` rotates nothing and reads no entry (41_stage_one.md R141, 43_stage_three.md R181). -/
def rotateStep (s : State) (k : Kind) (dir : Dir) (t : Nat) (q : Quad) : EngM Quad :=
  match k with
  | .s1 => rotateFrom s dir t q
  | .s2 => rotateFrom s dir t q
  | .s3 => pure q

/-- Step 1 of the butterfly core: four reads (41_stage_one.md R141). -/
def loadQuad (s : State) (i0 n2 : Nat) : EngM Quad := do
  let a ← loadSample s i0
  let b ← loadSample s (i0 + n2)
  let c ← loadSample s (i0 + 2 * n2)
  let d ← loadSample s (i0 + 3 * n2)
  pure { q0 := a, q1 := b, q2 := c, q3 := d }

/-- Step 5 of the butterfly core: four writes in place (41_stage_one.md R141, R142). -/
def storeQuad (s : State) (i0 n2 : Nat) (q : Quad) : EngM Unit := do
  storeSample s i0 q.q0
  storeSample s (i0 + n2) q.q1
  storeSample s (i0 + 2 * n2) q.q2
  storeSample s (i0 + 3 * n2) q.q3

/-- `Butterfly(kind, dir, i0, n2, t)` (41_stage_one.md R140, R141): every read of a sample precedes every write
(20_memory.md R73). -/
def butterfly (s : State) (k : Kind) (dir : Dir) (i0 n2 t : Nat) : EngM Unit := do
  let q ← loadQuad s i0 n2
  let o ← rotateStep s k dir t (combine s.params.rnd k dir q)
  storeQuad s i0 n2 o

/-- `StageOne(dir)` (41_stage_one.md R144). -/
def stageOne (s : State) (dir : Dir) : EngM Unit :=
  forUp (s.fftLen / 4) fun k => butterfly s .s1 dir k (s.fftLen / 4) (k * s.stride)

/-- One level of stage two (42_stage_two.md R160): active block size n1, twiddle step st. -/
def stageTwoLevel (s : State) (dir : Dir) (n1 st : Nat) : EngM Unit :=
  forUp (n1 / 4) fun j =>
    forUp (s.fftLen / n1) fun b =>
      butterfly s .s2 dir (j + b * n1) (n1 / 4) (j * st)

/-- The level loop of stage two: `levels` levels from block size n1 and twiddle step st (42_stage_two.md R160). -/
def stageTwoLevels (s : State) (dir : Dir) (levels n1 st : Nat) : EngM Unit :=
  match levels with
  | 0 => pure ()
  | k + 1 => do
    stageTwoLevel s dir n1 st
    stageTwoLevels s dir k (n1 / 4) (4 * st)

/-- `StageTwo(dir)` (42_stage_two.md R160): levels 1 to L-2, none for N = 16 (R162). -/
def stageTwo (s : State) (dir : Dir) : EngM Unit :=
  stageTwoLevels s dir (s.log4n - 2) (s.fftLen / 4) (4 * s.stride)

/-- `StageThree(dir)` (43_stage_three.md R180). -/
def stageThree (s : State) (dir : Dir) : EngM Unit :=
  forUp (s.fftLen / 4) fun g => butterfly s .s3 dir (4 * g) 1 0

/-- One turn of `CheckTable` (44_permute_dispatch.md R201). -/
def checkPair (s : State) (p : Nat) : EngM Unit := do
  let ij ← loadPair s p
  if s.fftLen ≤ ij.1 ∨ s.fftLen ≤ ij.2 then throw (.badTable (BitVec.ofNat 32 p)) else pure ()

/-- `CheckTable()` (44_permute_dispatch.md R201): stops at the first pair with an index that is not below N. -/
def checkTable (s : State) : EngM Unit := forUp s.pairCount (checkPair s)

/-- The exchange of two sample words (44_permute_dispatch.md R202). -/
def swapWords (s : State) (i j : Nat) : EngM Unit := do
  let wi ← engRead (sampleAddr s i)
  let wj ← engRead (sampleAddr s j)
  engWrite (sampleAddr s i) wj
  engWrite (sampleAddr s j) wi

/-- One turn of `BitRev` (44_permute_dispatch.md R202): a pair (i, i) changes nothing. -/
def swapPair (s : State) (p : Nat) : EngM Unit := do
  let ij ← loadPair s p
  if ij.1 ≠ ij.2 then swapWords s ij.1 ij.2 else pure ()

/-- `BitRev()` (44_permute_dispatch.md R202): the swaps in ascending p (R200). -/
def bitRev (s : State) : EngM Unit := forUp s.pairCount (swapPair s)

/-- `Transform()` (44_permute_dispatch.md R205): the table is checked before any buffer write (R206). -/
def transform (s : State) : EngM Unit := do
  if s.cfg.ord = .natural then checkTable s else pure ()
  stageOne s s.cfg.dir
  if 2 < s.log4n then stageTwo s s.cfg.dir else pure ()
  stageThree s s.cfg.dir
  if s.cfg.ord = .natural then bitRev s else pure ()

end Sys2Proof.Machine
end

