-- ==== Sys2Proof/Machine/Permute.lean ====
section
/-! DEFINITION. `BITREV` and `XFORM` (44_permute_dispatch.md R202, R207). -/

namespace Sys2Proof.Machine

/-- The body of `BITREV` (44_permute_dispatch.md R202): the table is checked, then applied. -/
def permuteBuffer (s : State) : EngM Unit := do
  checkTable s
  bitRev s

/-- `BITREV` (44_permute_dispatch.md R202). -/
def execBitrev (s : State) : Host.Outcome State Fault Refusal := runCommand .bitrev (permuteBuffer s) s

/-- `XFORM` (44_permute_dispatch.md R207). -/
def execXform (s : State) : Host.Outcome State Fault Refusal := runCommand .xform (transform s) s

end Sys2Proof.Machine
end

