-- ==== Sys2Proof/Machine/Primitive.lean ====
section
/-! DEFINITION. The primitive commands `NOP`, `ROTF`, `ROTI` and `PRESC` (40_datapath.md R121 to R124). -/

namespace Sys2Proof.Machine

/-- `NOP` (40_datapath.md R121): nothing, then complete. -/
def execNop (s : State) : Host.Outcome State Fault Refusal := .next (complete s)

/-- `ROTF` (40_datapath.md R122): the forward rotation of `OPA` by `OPB`. -/
def execRotf (s : State) : Host.Outcome State Fault Refusal :=
  runPrimitive (rotF s.params.rnd (opaSample s) (opbTwiddle s)) s

/-- `ROTI` (40_datapath.md R123): the inverse rotation of `OPA` by `OPB`. -/
def execRoti (s : State) : Host.Outcome State Fault Refusal :=
  runPrimitive (rotI s.params.rnd (opaSample s) (opbTwiddle s)) s

/-- `PRESC` (40_datapath.md R124): the pre-shift of both lanes of `OPA`. -/
def execPresc (s : State) : Host.Outcome State Fault Refusal :=
  runPrimitive (preSample (opaSample s)) s

end Sys2Proof.Machine
end

