-- ==== Sys2Proof/Machine/StageOne.lean ====
section
/-! DEFINITION. `STG1F` and `STG1I` (41_stage_one.md R145, R146). -/

namespace Sys2Proof.Machine

/-- `STG1F` (41_stage_one.md R145). -/
def execStg1f (s : State) : Host.Outcome State Fault Refusal := runCommand .stg1f (stageOne s .fwd) s

/-- `STG1I` (41_stage_one.md R146). -/
def execStg1i (s : State) : Host.Outcome State Fault Refusal := runCommand .stg1i (stageOne s .inv) s

end Sys2Proof.Machine
end

