-- ==== Sys2Proof/Machine/StageThree.lean ====
section
/-! DEFINITION. `STG3F` and `STG3I` (43_stage_three.md R182, R183). -/

namespace Sys2Proof.Machine

/-- `STG3F` (43_stage_three.md R182). -/
def execStg3f (s : State) : Host.Outcome State Fault Refusal := runCommand .stg3f (stageThree s .fwd) s

/-- `STG3I` (43_stage_three.md R183). -/
def execStg3i (s : State) : Host.Outcome State Fault Refusal := runCommand .stg3i (stageThree s .inv) s

end Sys2Proof.Machine
end

