-- ==== Sys2Proof/Machine/StageTwo.lean ====
section
/-! DEFINITION. `STG2F` and `STG2I` (42_stage_two.md R163, R164). -/

namespace Sys2Proof.Machine

/-- `STG2F` (42_stage_two.md R163). -/
def execStg2f (s : State) : Host.Outcome State Fault Refusal := runCommand .stg2f (stageTwo s .fwd) s

/-- `STG2I` (42_stage_two.md R164). -/
def execStg2i (s : State) : Host.Outcome State Fault Refusal := runCommand .stg2i (stageTwo s .inv) s

end Sys2Proof.Machine
end

