-- ==== Sys2Proof/Machine/Dispatch.lean ====
section
/-! DEFINITION. The engine's step on a decoded command (60_exceptions.md R233): one arm per command. -/

namespace Sys2Proof.Machine

def exec (i : Instr) (s : State) : Host.Outcome State Fault Refusal :=
  match i with
  | .nop => Sys2Proof.Machine.execNop s
  | .stg1f => Sys2Proof.Machine.execStg1f s
  | .stg1i => Sys2Proof.Machine.execStg1i s
  | .stg2f => Sys2Proof.Machine.execStg2f s
  | .stg2i => Sys2Proof.Machine.execStg2i s
  | .stg3f => Sys2Proof.Machine.execStg3f s
  | .stg3i => Sys2Proof.Machine.execStg3i s
  | .bitrev => Sys2Proof.Machine.execBitrev s
  | .xform => Sys2Proof.Machine.execXform s
  | .rotf => Sys2Proof.Machine.execRotf s
  | .roti => Sys2Proof.Machine.execRoti s
  | .presc => Sys2Proof.Machine.execPresc s

end Sys2Proof.Machine
end

