-- ==== Sys2Proof/Machine/Turn.lean ====
section
/-! DEFINITION. Whose turn it is: the engine's completion of the latched word (60_exceptions.md R233), or the next
input. -/

namespace Sys2Proof.Machine

/-- The engine's turn (60_exceptions.md R233): it decodes and runs the latched word, an illegal word ends with
`ILLEGAL_CMD` (30_encoding.md R96), and an empty latch leaves the block idle (60_exceptions.md R250). -/
def engineTurn (s : State) : Host.Outcome State Fault Refusal :=
  match s.latch with
  | none => .next s
  | some w =>
    match decode w with
    | .ok i => exec i s
    | .error _ => .next (raiseError (.illegalCmd w) s)

/-- A poll (30_encoding.md R100): the register is read until the masked bits have the value. While they have not, the
poll stays the next input `again`, and the engine completes its command if it has one (70_reset_and_hazards.md R270). -/
def pollTurn (addr : Nat) (mask value : Word) (again s : State) : Host.Outcome State Fault Refusal :=
  match decodeAccess s.params addr .b32 with
  | .reg r =>
    if readReg r s &&& mask = value then .next { s with readData := readReg r s }
    else engineTurn { again with readData := readReg r s }
  | .undefinedAccess => .refused (.regAccessUndefined addr)
  | .outside => .refused (.outsideWindow addr)

/-- One input taken: `s` has it removed from its inbox, `again` has it still at the head. -/
def inputTurn (e : Event) (again s : State) : Host.Outcome State Fault Refusal :=
  match e with
  | .regWrite addr size v => hostRegWrite addr size v s
  | .regRead addr size => hostRegRead addr size s
  | .regPoll addr mask value => pollTurn addr mask value again s
  | .regExpect addr mask value => hostRegExpect addr mask value s
  | .memWrite addr size v => hostStore addr size v s
  | .memRead addr size => hostLoad addr size s
  | .memExpect addr value => hostMemExpect addr value s
  | .resetLine asserted => .next (setResetLine asserted s)
  | .engine => engineTurn s

/-- One turn of the machine: the next input if there is one, else the engine's (log entries 4 and 5). -/
def turn (s : State) : Host.Outcome State Fault Refusal :=
  match s.inbox with
  | [] => engineTurn s
  | e :: rest => inputTurn e s { s with inbox := rest }

/-- A command word put where the engine takes its next one from, with the engine's turn as the next input: the
acceptance of the word (60_exceptions.md R232), as a `CMD` write by the host would leave it (log entry 4). -/
def placeWord (w : Word) (s : State) : State :=
  let t := accept w s
  { t with inbox := .engine :: t.inbox }

end Sys2Proof.Machine
end

