-- ==== Sys2Proof/Machine/Step.lean ====
section
/-! DEFINITION. One step of the machine, and the placing of a word for the very next step. -/

namespace Sys2Proof.Machine

/-- One step: one turn of the host, the platform or the engine (10_state.md R47). -/
def step (s : State) : Host.Outcome State Fault Refusal := turn s

/-- `s` with the command word of an opcode-table row accepted and the engine's turn next. Bits above `nbits` are 0. -/
def State.withFetchWord (s : State) (nbits w : Nat) : State := placeWord (BitVec.ofNat 32 (w % 2 ^ nbits)) s

end Sys2Proof.Machine
end

