-- ==== Sys2Proof/WellFormed.lean ====
section
/-! DEFINITION. Which parameters, commands and host program lines are well formed. -/

namespace Sys2Proof

/-- The legal values of the parameters (00_scope.md R6). -/
def Config.Params.legal (p : Config.Params) : Bool :=
  decide (2 ≤ p.log4nMax) && decide (p.log4nMax ≤ 8) && decide (16 ≤ p.addrW) && decide (p.addrW ≤ 32)

/-- Every command is well formed: a command word has no operand field (30_encoding.md R95). -/
def Instr.wellFormed (i : Instr) : Bool :=
  match i with
  | .nop => true
  | .stg1f => true
  | .stg1i => true
  | .stg2f => true
  | .stg2i => true
  | .stg3f => true
  | .stg3i => true
  | .bitrev => true
  | .xform => true
  | .rotf => true
  | .roti => true
  | .presc => true

/-- A host program line is well formed when its numbers fit: `cfg` takes L in 0..15 (30_encoding.md R101), and a
store or load lies inside the data memory of 2^`ADDR_W` bytes (20_memory.md R60). -/
def HostForm.wellFormed (p : Config.Params) (f : HostForm) : Bool :=
  match f with
  | .wr _ _ => true
  | .rd _ => true
  | .poll _ mask value => value &&& mask == value
  | .expect _ mask value => value &&& mask == value
  | .st32 addr _ => decide (addr + 4 ≤ 2 ^ p.addrW)
  | .st16 addr _ => decide (addr + 2 ≤ 2 ^ p.addrW)
  | .ld32 addr => decide (addr + 4 ≤ 2 ^ p.addrW)
  | .expect32 addr _ => decide (addr + 4 ≤ 2 ^ p.addrW)
  | .cmd m => m.wellFormed
  | .wait => true
  | .clr => true
  | .cfg l _ _ => decide (l ≤ 15)
  | .run m => m.wellFormed
  | .rawCmd _ => true

end Sys2Proof
end

