-- ==== Sys2Proof/Safety.lean ====
section
/-! DEFINITION. The terms claims use: when a command's operands are legal, what a completed command leaves, what the
passes compute on plain functions, and the invariant of every reachable state. -/

namespace Sys2Proof.Machine

open Sys2Proof.Config (Rnd)

/-! Legal operands, in the spec's own conditions. -/

/-- `BAD_N` does not apply (60_exceptions.md R231). -/
def LengthLegal (s : State) : Prop := 2 ≤ s.log4n ∧ s.log4n ≤ s.params.log4nMax

/-- `BAD_STRIDE` does not apply (60_exceptions.md R231). -/
def StrideLegal (s : State) : Prop := s.stride ≠ 0 ∧ s.stride * s.fftLen = s.twLen.toNat

/-- `BAD_ALIGN` does not apply to a region (20_memory.md R62). -/
def RegionAligned (r : Region) : Prop := r.base.toNat % 4 = 0

/-- `BAD_RANGE` does not apply to a region (20_memory.md R63). -/
def RegionInRange (s : State) (r : Region) : Prop := r.base.toNat + r.size ≤ 2 ^ s.params.addrW

/-- A region that passes both checks. -/
def RegionLegal (s : State) (r : Region) : Prop := RegionAligned r ∧ RegionInRange s r

/-- Two regions without a common byte (20_memory.md R82). -/
def RegionsApart (r t : Region) : Prop :=
  r.size = 0 ∨ t.size = 0 ∨ r.base.toNat + r.size ≤ t.base.toNat ∨ t.base.toNat + t.size ≤ r.base.toNat

/-- A byte address outside a region. -/
def OutsideRegion (r : Region) (a : Nat) : Prop := a < r.base.toNat ∨ r.base.toNat + r.size ≤ a

/-- The platform reports no error on any coming access (20_memory.md R83). -/
def NoBusError (s : State) : Prop := ∀ b ∈ s.busErrs, b = false

/-- No bus error comes and no host write has raced with the command (20_memory.md R77, R83). -/
def Undisturbed (s : State) : Prop := NoBusError s ∧ s.races = []

/-- Every pair of the bit-reversal table has both indices below N (44_permute_dispatch.md R201). -/
def TableLegal (s : State) : Prop :=
  ∀ p < s.pairCount, (pairAt s s.mem p).1 < s.fftLen ∧ (pairAt s s.mem p).2 < s.fftLen

/-- The operands of `STG3F` and `STG3I` are legal (43_stage_three.md R182). -/
structure BufferReady (s : State) : Prop where
  len : LengthLegal s
  buf : RegionLegal s (bufRegion s)
  calm : Undisturbed s

/-- The operands of `STG1F` to `STG2I` are legal (41_stage_one.md R145, 42_stage_two.md R163). -/
structure TwiddleReady (s : State) : Prop extends BufferReady s where
  stride : StrideLegal s
  tw : RegionLegal s (twRegion s)
  apart : RegionsApart (bufRegion s) (twRegion s)

/-- The operands of `BITREV` are legal (44_permute_dispatch.md R202). -/
structure PermuteReady (s : State) : Prop extends BufferReady s where
  br : RegionLegal s (brRegion s)
  apartBr : RegionsApart (bufRegion s) (brRegion s)
  table : TableLegal s

/-- The operands of `XFORM` are legal (44_permute_dispatch.md R206, R207). -/
structure TransformReady (s : State) : Prop extends TwiddleReady s where
  permute : s.cfg.ord = .natural → PermuteReady s

/-- The operands of a command are legal and nothing disturbs it. -/
def CommandReady (i : Instr) (s : State) : Prop :=
  match i with
  | .nop => True
  | .stg1f => TwiddleReady s
  | .stg1i => TwiddleReady s
  | .stg2f => TwiddleReady s
  | .stg2i => TwiddleReady s
  | .stg3f => BufferReady s
  | .stg3i => BufferReady s
  | .bitrev => PermuteReady s
  | .xform => TransformReady s
  | .rotf => True
  | .roti => True
  | .presc => True

/-- Every register check of 60_exceptions.md R233 passes. -/
def ChecksPass (i : Instr) (s : State) : Prop :=
  LengthLegal s ∧ (readsTwiddles i = true → StrideLegal s) ∧ ∀ r ∈ regions i s, RegionLegal s r

/-- `t` is `s` after a successful completion that changed data memory inside the buffer only: every register but
`STATUS` is as before (60_exceptions.md R237). -/
def CompletedInBuffer (s t : State) : Prop :=
  t = { s with mem := t.mem, busErrs := t.busErrs, status := s.status.completed, latch := none } ∧
    ∀ a, OutsideRegion (bufRegion s) a → memByte t.mem a = memByte s.mem a

/-- `t` is `s` after the error completion of `x` (60_exceptions.md R238), data memory included. -/
def EndedWith (x : CmdError) (s t : State) : Prop :=
  t = { s with
    status := { s.status with busy := false, err := true, errcode := errorCode x }
    errInfo := errorInfo x
    latch := none
    busErrs := t.busErrs }

/-! What the passes compute, on functions from indices to samples. -/

/-- The sample of a butterfly at offset m·n2. -/
def Quad.at (q : Quad) (m : Nat) : Sample :=
  match m with
  | 0 => q.q0
  | 1 => q.q1
  | 2 => q.q2
  | _ => q.q3

/-- The outputs of one butterfly from its inputs and the twiddle table (41_stage_one.md R141). -/
def butterflyOut (rnd : Rnd) (k : Kind) (dir : Dir) (tw : Nat → Twiddle) (t : Nat) (q : Quad) : Quad :=
  match k with
  | .s1 => rotateQuad rnd dir (combine rnd .s1 dir q) (tw (2 * t)) (tw t) (tw (3 * t))
  | .s2 => rotateQuad rnd dir (combine rnd .s2 dir q) (tw (2 * t)) (tw t) (tw (3 * t))
  | .s3 => combine rnd .s3 dir q

/-- Sample i after one decimation level of block size n1 and twiddle step st: i lies at offset m·n2 of the butterfly
(j, b) with i = j + m·n2 + b·n1 (20_memory.md R72). -/
def levelOut (rnd : Rnd) (k : Kind) (dir : Dir) (n1 st : Nat) (tw : Nat → Twiddle) (x : Nat → Sample) (i : Nat) : Sample :=
  let n2 := n1 / 4
  let j := i % n1 % n2
  let i0 := j + i / n1 * n1
  (butterflyOut rnd k dir tw (j * st)
    { q0 := x i0, q1 := x (i0 + n2), q2 := x (i0 + 2 * n2), q3 := x (i0 + 3 * n2) }).at (i % n1 / n2)

/-- The levels of stage two, each on the previous level's output (42_stage_two.md R160). -/
def levelsOut (rnd : Rnd) (dir : Dir) (tw : Nat → Twiddle) (levels n1 st : Nat) (x : Nat → Sample) : Nat → Sample :=
  match levels with
  | 0 => x
  | k + 1 => levelsOut rnd dir tw k (n1 / 4) (4 * st) (levelOut rnd .s2 dir n1 st tw x)

/-- StageOne on the samples of `s` (41_stage_one.md R144). -/
def stageOneOut (s : State) (dir : Dir) (x : Nat → Sample) : Nat → Sample :=
  levelOut s.params.rnd .s1 dir s.fftLen s.stride (twiddleAt s s.mem) x

/-- StageTwo on the samples of `s` (42_stage_two.md R160). -/
def stageTwoOut (s : State) (dir : Dir) (x : Nat → Sample) : Nat → Sample :=
  levelsOut s.params.rnd dir (twiddleAt s s.mem) (s.log4n - 2) (s.fftLen / 4) (4 * s.stride) x

/-- StageThree on the samples of `s` (43_stage_three.md R180). -/
def stageThreeOut (s : State) (dir : Dir) (x : Nat → Sample) : Nat → Sample :=
  levelOut s.params.rnd .s3 dir 4 0 (twiddleAt s s.mem) x

/-- The first `p` swaps of a table, in ascending order (44_permute_dispatch.md R200). -/
def swapsOut {α : Type} (pairs : Nat → Nat × Nat) (p : Nat) (x : Nat → α) : Nat → α :=
  match p with
  | 0 => x
  | k + 1 => fun i =>
    if i = (pairs k).1 then swapsOut pairs k x (pairs k).2
    else if i = (pairs k).2 then swapsOut pairs k x (pairs k).1
    else swapsOut pairs k x i

/-- The whole transform on the samples of `s` (44_permute_dispatch.md R205). -/
def transformOut (s : State) (x : Nat → Sample) : Nat → Sample :=
  let y := stageThreeOut s s.cfg.dir
    (if 2 < s.log4n then stageTwoOut s s.cfg.dir (stageOneOut s s.cfg.dir x) else stageOneOut s s.cfg.dir x)
  match s.cfg.ord with
  | .bitReversed => y
  | .natural => swapsOut (pairAt s s.mem) s.pairCount y

/-! Host accesses. -/

/-- The bits of an input register that a write stores; the others are RAZ/WI (10_state.md R29 to R38). -/
def writableBits (p : Config.Params) (r : Reg) : Word :=
  match r with
  | .id => 0#32
  | .ctrl => 0x00000003#32
  | .status => 0x0000000E#32
  | .cmd => 0xFFFFFFFF#32
  | .cfg => 0x0000003F#32
  | .bufAddr => BitVec.ofNat 32 (2 ^ p.addrW - 1)
  | .twAddr => BitVec.ofNat 32 (2 ^ p.addrW - 1)
  | .twStride => 0x0000FFFF#32
  | .twLen => 0xFFFFFFFF#32
  | .brAddr => BitVec.ofNat 32 (2 ^ p.addrW - 1)
  | .brCount => 0x0000FFFF#32
  | .errInfo => 0#32
  | .opa => 0xFFFFFFFF#32
  | .opb => 0xFFFFFFFF#32
  | .res => 0#32
  | .reserved => 0#32

/-- The reserved bits of a register: they read 0 and a write to them is ignored (10_state.md R24 to R38). -/
def reservedBits (p : Config.Params) (r : Reg) : Word :=
  match r with
  | .id => 0x0000000C#32
  | .ctrl => 0x7FFFFFFC#32
  | .status => 0xFFFF00F0#32
  | .cmd => 0#32
  | .cfg => 0xFFFFFFC0#32
  | .bufAddr => ~~~ BitVec.ofNat 32 (2 ^ p.addrW - 1)
  | .twAddr => ~~~ BitVec.ofNat 32 (2 ^ p.addrW - 1)
  | .twStride => 0xFFFF0000#32
  | .twLen => 0#32
  | .brAddr => ~~~ BitVec.ofNat 32 (2 ^ p.addrW - 1)
  | .brCount => 0xFFFF0000#32
  | .errInfo => 0#32
  | .opa => 0#32
  | .opb => 0#32
  | .res => 0#32
  | .reserved => 0xFFFFFFFF#32

/-- A 16-bit signed value (00_scope.md R9). -/
def Lane (v : Int) : Prop := -32768 ≤ v ∧ v ≤ 32767

/-- A sample of two 16-bit signed values (00_scope.md R13). -/
def LaneSample (p : Sample) : Prop := Lane p.x ∧ Lane p.y

/-- The registers whose writes are dropped while `BUSY` = 1 (10_state.md R40). -/
def inputRegs : List Reg := [.cfg, .bufAddr, .twAddr, .twStride, .twLen, .brAddr, .brCount, .opa, .opb]

/-! The invariant. -/

/-- What every reachable state satisfies: legal parameters (00_scope.md R6), memory in its canonical form inside the
address space (20_memory.md R60), address registers without a bit above `ADDR_W` (10_state.md R30, R31, R34), the
latch in step with `BUSY` (10_state.md R42, 60_exceptions.md R232), the flags as 60_exceptions.md R237, R238 and R243
leave them, races only during a command with regions, and every register at reset while the reset input is asserted
(70_reset_and_hazards.md R260). -/
structure Inv (s : State) : Prop where
  legal : s.params.legal = true
  wf : memWf s.mem = true
  inside : ∀ c ∈ s.mem, c.1 < 2 ^ s.params.addrW
  bufAddr : s.bufAddr.toNat < 2 ^ s.params.addrW
  twAddr : s.twAddr.toNat < 2 ^ s.params.addrW
  brAddr : s.brAddr.toNat < 2 ^ s.params.addrW
  busyLatch : s.status.busy = s.latch.isSome
  busyFlags : s.status.busy = true → s.status.done = false ∧ s.status.err = false
  exclusive : ¬ (s.status.done = true ∧ s.status.err = true)
  noError : s.status.err = false → s.status.errcode = 0#8 ∧ s.errInfo = 0#32
  code : s.status.err = true → 1 ≤ s.status.errcode.toNat ∧ s.status.errcode.toNat ≤ 7
  racesRun : s.races ≠ [] → ∃ i, runningCommand s = some i ∧ usesLength i = true
  racesInside : ∀ a ∈ s.races, a % 4 = 0 ∧ a + 4 ≤ 2 ^ s.params.addrW
  held : s.resetIn = true → clearRegisters s = s

end Sys2Proof.Machine
end

