-- ==== Sys2Proof/Certificates/Slice0/Obligations.lean ====
section
/-! DEFINITION. The statements for the provers. A statement about a next state quantifies over every state that meets
its hypotheses, reachable or not; the free fields (log entries 2, 6, 7) are never given a value. -/

open Sys2Proof Sys2Proof.Machine
open Sys2Proof.Config (PackOrder Rnd Params)

/-! ## Encoding -/

/-- 30_encoding.md R91, R93: the decoder reads every command back from its word. -/
def Obligations.DecodeReadsEncodedCommand : Prop :=
  ∀ i : Instr, i.wellFormed = true → decode (encode i) = .ok i

/-- 30_encoding.md R93: on the twelve words of the opcode map the decoder gives the command the map names, on every
other word it rejects. -/
def Obligations.DecodeAcceptsExactlyTheTwelveWords : Prop :=
  ∀ w : Word,
    (∀ i : Instr, decode w = .ok i ↔
      (w, i) ∈ [(0x00#32, Instr.nop), (0x10#32, .stg1f), (0x11#32, .stg1i), (0x20#32, .stg2f), (0x21#32, .stg2i),
        (0x30#32, .stg3f), (0x31#32, .stg3i), (0x40#32, .bitrev), (0x50#32, .xform), (0x60#32, .rotf),
        (0x61#32, .roti), (0x70#32, .presc)]) ∧
    ((∃ r, decode w = .error r) ↔
      w ∉ [0x00#32, 0x10#32, 0x11#32, 0x20#32, 0x21#32, 0x30#32, 0x31#32, 0x40#32, 0x50#32, 0x60#32, 0x61#32, 0x70#32])

/-- 30_encoding.md R91: one word of each family, as the opcode map prints it. -/
def Obligations.PrintedWordsDecode : Prop :=
  decode 0x00000000#32 = .ok .nop ∧ decode 0x00000011#32 = .ok .stg1i ∧ decode 0x00000020#32 = .ok .stg2f ∧
    decode 0x00000031#32 = .ok .stg3i ∧ decode 0x00000040#32 = .ok .bitrev ∧ decode 0x00000050#32 = .ok .xform ∧
    decode 0x00000061#32 = .ok .roti ∧ decode 0x00000070#32 = .ok .presc

/-- 30_encoding.md R96: a word outside the twelve is accepted like a command and ends with `ILLEGAL_CMD` and the word in
`ERRINFO`; nothing else of the block changes, no byte of memory does, and no access is made. Whose turn it is is the
model's choice (log entries 4 and 5). -/
def Obligations.IllegalWordEndsWithIllegalCmd : Prop :=
  ∀ (s : State) (w : Word),
    w ∉ [0x00#32, 0x10#32, 0x11#32, 0x20#32, 0x21#32, 0x30#32, 0x31#32, 0x40#32, 0x50#32, 0x60#32, 0x61#32, 0x70#32] →
    (∀ rest, s.inbox = .regWrite (regAddr s.params .cmd) .b32 w :: rest → s.resetIn = false →
      s.status.busy = false → s.status.err = false →
      step s = .next { s with
        inbox := rest
        status := { s.status with done := false, busy := true }
        latch := some w }) ∧
    (∀ rest, (s.inbox = [] ∧ rest = []) ∨ s.inbox = .engine :: rest → s.latch = some w →
      step s = .next { s with
        inbox := rest
        status := { s.status with busy := false, err := true, errcode := 0x01#8 }
        errInfo := w
        latch := none })

/-! ## The step -/

/-- 60_exceptions.md R233, 70_reset_and_hazards.md R270: when it is the engine's turn and the latched word decodes to a
command, the step is that command's meaning. Around it the step only takes its input from the inbox. Whose turn it is
is the model's choice: an engine turn may stand among the inputs (log entry 4), and the engine moves when no input is
left (log entry 5). -/
def Obligations.StepRunsTheLatchedCommand : Prop :=
  ∀ (s : State) (w : Word) (i : Instr), i.wellFormed = true → s.latch = some w → decode w = .ok i →
    (s.inbox = [] → step s = exec i s) ∧
    (∀ rest, s.inbox = .engine :: rest → step s = exec i { s with inbox := rest })

/-- 60_exceptions.md R232, R233: a word placed for the next step is accepted as by a `CMD` write, and the very next step
runs its command. That an input decides when the engine moves is the model's choice (log entry 4). -/
def Obligations.PlacedWordRunsNext : Prop :=
  ∀ (s : State) (i : Instr),
    step (s.withFetchWord 32 (encode i).toNat) =
      exec i { s with status := { s.status with done := false, busy := true }, latch := some (encode i) }

/-! ## The register window -/

/-- 10_state.md R22, R23, R28: a 32-bit access at `REG_BASE` + offset reaches the register the map prints at that offset;
a read returns its value and changes nothing else; any other access inside the window is refused; `CMD` and offset
0x3C read 0. -/
def Obligations.RegisterAccessesReachTheWindow : Prop :=
  (∀ (s : State) (off : Nat) (r : Reg) (v : Word) (rest : List Event),
    (off, r) ∈ [(0x00, Reg.id), (0x04, .ctrl), (0x08, .status), (0x0C, .cmd), (0x10, .cfg), (0x14, .bufAddr),
      (0x18, .twAddr), (0x1C, .twStride), (0x20, .twLen), (0x24, .brAddr), (0x28, .brCount), (0x2C, .errInfo),
      (0x30, .opa), (0x34, .opb), (0x38, .res), (0x3C, .reserved)] →
    regAddr s.params r = s.params.regBase + off ∧
    (s.inbox = .regRead (s.params.regBase + off) .b32 :: rest →
      step s = .next { s with inbox := rest, readData := readReg r s }) ∧
    (s.inbox = .regWrite (s.params.regBase + off) .b32 v :: rest → s.resetIn = false →
      step s = .next (writeReg r v { s with inbox := rest }))) ∧
  (∀ (s : State) (v : Word) (size : AccessSize) (off : Nat) (rest : List Event),
    off < 64 → (size ≠ .b32 ∨ off % 4 ≠ 0) →
    (s.inbox = .regRead (s.params.regBase + off) size :: rest ∨
      s.inbox = .regWrite (s.params.regBase + off) size v :: rest) →
    step s = .refused (.regAccessUndefined (s.params.regBase + off))) ∧
  (∀ s : State, readReg .cmd s = 0#32 ∧ readReg .reserved s = 0#32)

/-- 10_state.md R26, R27, R29 to R39: every readable register reads as its field layout says. -/
def Obligations.RegistersReadAsLaidOut : Prop :=
  ∀ s : State,
    ((readReg .ctrl s).getLsbD 0 = s.ctrl.ieDone ∧ (readReg .ctrl s).getLsbD 1 = s.ctrl.ieErr ∧
      (readReg .ctrl s).getLsbD 31 = false) ∧
    ((readReg .status s).getLsbD 0 = s.status.busy ∧ (readReg .status s).getLsbD 1 = s.status.done ∧
      (readReg .status s).getLsbD 2 = s.status.err ∧ (readReg .status s).getLsbD 3 = s.status.ovr ∧
      (readReg .status s).extractLsb' 8 8 = s.status.errcode) ∧
    ((readReg .cfg s).extractLsb' 0 4 = s.cfg.log4n ∧ (readReg .cfg s).getLsbD 4 = decide (s.cfg.dir = .inv) ∧
      (readReg .cfg s).getLsbD 5 = decide (s.cfg.ord = .natural)) ∧
    readReg .bufAddr s = s.bufAddr ∧ readReg .twAddr s = s.twAddr ∧ readReg .brAddr s = s.brAddr ∧
    (readReg .twStride s).toNat = s.stride ∧ readReg .twLen s = s.twLen ∧ (readReg .brCount s).toNat = s.pairCount ∧
    readReg .errInfo s = s.errInfo ∧ readReg .opa s = s.opa ∧ readReg .opb s = s.opb ∧ readReg .res s = s.res

/-- 60_exceptions.md R232: a `CMD` write while `BUSY` or `ERR` is set sets `OVR` and nothing else; otherwise it clears
`DONE`, sets `BUSY` and latches the word. -/
def Obligations.CmdWriteIsAcceptedOrDropped : Prop :=
  ∀ (s : State) (w : Word) (rest : List Event),
    s.inbox = .regWrite (regAddr s.params .cmd) .b32 w :: rest → s.resetIn = false →
    (s.status.busy = true ∨ s.status.err = true →
      step s = .next { s with inbox := rest, status := { s.status with ovr := true } }) ∧
    (s.status.busy = false → s.status.err = false →
      step s = .next { s with
        inbox := rest
        status := { s.status with done := false, busy := true }
        latch := some w })

/-- 10_state.md R27, R36, 60_exceptions.md R242: a `STATUS` write clears, by ones, `DONE`, `ERR` with `ERRCODE` and
`ERRINFO`, and `OVR`; it changes nothing else. -/
def Obligations.StatusWriteClearsByOnes : Prop :=
  ∀ (s : State) (v : Word) (rest : List Event),
    s.inbox = .regWrite (regAddr s.params .status) .b32 v :: rest → s.resetIn = false →
    step s = .next { s with
      inbox := rest
      status :=
        { busy := s.status.busy
          done := s.status.done && !v.getLsbD 1
          err := s.status.err && !v.getLsbD 2
          ovr := s.status.ovr && !v.getLsbD 3
          errcode := if v.getLsbD 2 then 0#8 else s.status.errcode }
      errInfo := if v.getLsbD 2 then 0#32 else s.errInfo }

/-- 10_state.md R40: while `BUSY` = 1 a write to a command's input register is dropped with `OVR`; while `BUSY` = 0 it
takes effect, whatever `ERR` is: the register's writable bits read back as written and every other register as before.
`CTRL` and `STATUS` writes are never dropped; writes to `ID`, `ERRINFO`, `RES` and 0x3C are ignored without `OVR`. -/
def Obligations.InputWritesDropOrTakeEffect : Prop :=
  ∀ (s : State) (r : Reg) (v : Word),
    (r ∈ inputRegs → s.status.busy = true →
      writeReg r v s = { s with status := { s.status with ovr := true } }) ∧
    (r ∈ inputRegs → s.status.busy = false →
      readReg r (writeReg r v s) = v &&& writableBits s.params r ∧
        (∀ q, q ≠ r → readReg q (writeReg r v s) = readReg q s) ∧
        (writeReg r v s).latch = s.latch ∧ (writeReg r v s).mem = s.mem) ∧
    (v.getLsbD 31 = false → readReg .ctrl (writeReg .ctrl v s) = v &&& writableBits s.params .ctrl ∧
      (writeReg .ctrl v s).status = s.status) ∧
    (v.getLsbD 31 = true → readReg .ctrl (writeReg .ctrl v s) = 0#32 ∧ (writeReg .ctrl v s).status.ovr = false) ∧
    (readReg .status (writeReg .status v s) &&& 0x0000000F#32
      = readReg .status s &&& 0x0000000F#32 &&& ~~~ (v &&& writableBits s.params .status)) ∧
    (r ∈ [Reg.id, .errInfo, .res, .reserved] → writeReg r v s = s)

/-- 10_state.md R24: reserved bits read 0, and writes that differ only in reserved bits do the same, but for `CMD`,
where a nonzero reserved bit makes the word illegal. The address registers' hypotheses are kept by every step
(StepKeepsTheInvariant). -/
def Obligations.ReservedBitsReadZeroAndIgnoreWrites : Prop :=
  ∀ (s : State) (r : Reg) (v u : Word),
    s.bufAddr.toNat < 2 ^ s.params.addrW → s.twAddr.toNat < 2 ^ s.params.addrW → s.brAddr.toNat < 2 ^ s.params.addrW →
    readReg r s &&& reservedBits s.params r = 0#32 ∧
    (r ≠ .cmd → v &&& ~~~ reservedBits s.params r = u &&& ~~~ reservedBits s.params r → writeReg r v s = writeReg r u s) ∧
    (v &&& 0xFFFFFF00#32 ≠ 0#32 → ∃ e, decode v = .error e)

/-- 10_state.md R25: the fields of `ID` are the instance parameters, its default value is 0x46340150, and writes to it
are ignored. -/
def Obligations.IdReadsTheParameters : Prop :=
  (∀ (s : State) (v : Word), s.params.legal = true →
    (readReg .id s).getLsbD 0 = decide (s.params.packOrder = .imRe) ∧
    (readReg .id s).getLsbD 1 = decide (s.params.rnd = .trunc) ∧
    (readReg .id s).extractLsb' 2 2 = 0#2 ∧
    ((readReg .id s).extractLsb' 4 4).toNat = s.params.log4nMax ∧
    (readReg .id s).extractLsb' 8 8 = 0x01#8 ∧
    (readReg .id s).extractLsb' 16 16 = 0x4634#16 ∧
    writeReg .id v s = s) ∧
  readReg .id State.reset = 0x46340150#32

/-! ## Reset and the interrupt -/

/-- 70_reset_and_hazards.md R261, R262 (and R260, 10_state.md R44): a soft reset, and the assertion and the release of the
reset input, leave every register at its reset value, no command, no interrupt; data memory changes at most inside the
buffer of the command in flight, and not at all when none is. They differ only in the level of the reset input. That
driving the released line to its released level does nothing is the model's choice (log entry 12). -/
def Obligations.ResetClearsRegistersAndAbandonsTheCommand : Prop :=
  (∀ (s : State) (b : Bool) (v : Word) (rest : List Event),
    ((s.inbox = .resetLine b :: rest ∧ (b = true ∨ s.resetIn = true)) ∨
      (s.inbox = .regWrite (regAddr s.params .ctrl) .b32 v :: rest ∧ v.getLsbD 31 = true ∧ s.resetIn = false ∧
        b = false)) →
    ∃ t, step s = .next t ∧
      t = { State.resetOf s.params with
        mem := t.mem
        resetIn := b
        inbox := rest
        busErrs := s.busErrs
        freeCount := t.freeCount
        readData := s.readData } ∧
      t.irq = false ∧
      (runningCommand s = none → t.mem = s.mem) ∧
      (∀ i, runningCommand s = some i → ∀ a, (regions i s = [] ∨ OutsideRegion (bufRegion s) a) →
        memByte t.mem a = memByte s.mem a)) ∧
  (∀ (s : State) (rest : List Event), s.resetIn = false → s.inbox = .resetLine false :: rest →
    step s = .next { s with inbox := rest })

/-- 70_reset_and_hazards.md R260: while the reset input is asserted the registers keep their reset values, so a register
write changes nothing. That such a write is ignored is the model's reading (log entry 12). -/
def Obligations.WritesDuringResetChangeNothing : Prop :=
  ∀ (s : State) (r : Reg) (v : Word) (rest : List Event),
    s.resetIn = true → s.inbox = .regWrite (regAddr s.params r) .b32 v :: rest →
    step s = .next { s with inbox := rest }

/-- 60_exceptions.md R240: the interrupt level is a function of the `STATUS` and `CTRL` words the host reads; setting an
enable while its status bit is 1 asserts it at once; `OVR` never does. -/
def Obligations.InterruptFollowsStatusAndEnables : Prop :=
  ∀ (s : State) (v : Word),
    s.irq = (((readReg .status s).getLsbD 1 && (readReg .ctrl s).getLsbD 0) ||
      ((readReg .status s).getLsbD 2 && (readReg .ctrl s).getLsbD 1)) ∧
    (v.getLsbD 31 = false →
      (writeReg .ctrl v s).irq = ((s.status.done && v.getLsbD 0) || (s.status.err && v.getLsbD 1))) ∧
    (dropWrite s).irq = s.irq

/-! ## Arithmetic -/

/-- 40_datapath.md R111, R112: `asr` is the floor of v / 2^k; `rshift` rounds to nearest with ties toward +infinity in
`HALF_UP` and toward -infinity in `TRUNC`. -/
def Obligations.RoundedShiftFollowsItsMode : Prop :=
  (∀ (v : Int) (k : Nat), 2 ^ k * asr v k ≤ v ∧ v < 2 ^ k * asr v k + 2 ^ k) ∧
  (∀ (v : Int) (k : Nat), 1 ≤ k →
    (2 ^ k * rshift .halfUp v k ≤ v + 2 ^ (k - 1) ∧ v + 2 ^ (k - 1) < 2 ^ k * rshift .halfUp v k + 2 ^ k) ∧
    (2 ^ k * rshift .trunc v k ≤ v ∧ v < 2 ^ k * rshift .trunc v k + 2 ^ k)) ∧
  asr (-1) 2 = -1 ∧ asr (-5) 2 = -2 ∧ asr 3 2 = 0

/-- 40_datapath.md R113: the sum or difference is exact before clamping. -/
def Obligations.SaturatingAddsClampExactSums : Prop :=
  ∀ a b : Int, Lane a → Lane b →
    (addS a b = if a + b > 32767 then 32767 else if a + b < -32768 then -32768 else a + b) ∧
    (subS a b = if a - b > 32767 then 32767 else if a - b < -32768 then -32768 else a - b) ∧
    addS 32767 1 = 32767 ∧ subS (-32768) 1 = -32768 ∧ addS (-32768) (-32768) = -32768

/-- 40_datapath.md R114: the clamp of the halving operations changes a result only for `HALF_UP` and a - b = 65535. -/
def Obligations.HalvingClampsAtOnePointOnly : Prop :=
  ∀ (rnd : Rnd) (a b : Int), Lane a → Lane b →
    hadd rnd a b = rshift rnd (a + b) 1 ∧
    (hsub rnd a b ≠ rshift rnd (a - b) 1 ↔ rnd = .halfUp ∧ a - b = 65535) ∧
    (a - b = 65535 → hsub rnd a b = 32767) ∧
    2 * hadd rnd a b ≤ a + b + 1 ∧ a + b ≤ 2 * hadd rnd a b + 1

/-- 40_datapath.md R115: the pre-shift is the floor of v/4 and lies in [-8192, 8191]. -/
def Obligations.PreShiftIsTheFloorOfAQuarter : Prop :=
  ∀ v : Int, Lane v → pre v = Int.fdiv v 4 ∧ -8192 ≤ pre v ∧ pre v ≤ 8191 ∧ pre (-1) = -1

/-- 40_datapath.md R116: the clamp of stage two's extra shift never changes the result. -/
def Obligations.StageTwoShiftNeverClamps : Prop :=
  ∀ (rnd : Rnd) (v : Int), Lane v →
    shr1 rnd v = rshift rnd v 1 ∧ -16384 ≤ shr1 rnd v ∧ shr1 rnd v ≤ 16384

/-- From 40_datapath.md R117 to R119: the lanes of the rotations are the clamped shifts of the four exact sums; the range
of the sums, their range after the shift, when the clamp changes a result, and when the low end is reached. The low
ends are those that R117 and R118 give; R119 prints others (log entry 19). -/
def Obligations.RotationClampsOnlyAtTheTop : Prop :=
  ∀ (rnd : Rnd) (u v c s : Int), Lane u → Lane v → Lane c → Lane s →
    rotF rnd { x := u, y := v } { c := c, s := s } =
      { x := sat16 (rshift rnd (u * c + v * s) 16), y := sat16 (rshift rnd (v * c - u * s) 16) } ∧
    rotI rnd { x := u, y := v } { c := c, s := s } =
      { x := sat16 (rshift rnd (u * c - v * s) 16), y := sat16 (rshift rnd (v * c + u * s) 16) } ∧
    ∀ e ∈ [u * c + v * s, v * c - u * s, u * c - v * s, v * c + u * s],
      -2147450880 ≤ e ∧ e ≤ 2147483648 ∧ -32768 ≤ rshift rnd e 16 ∧ rshift rnd e 16 ≤ 32768 ∧
      (sat16 (rshift rnd e 16) ≠ rshift rnd e 16 ↔
        e = 2147483648 ∨ (rnd = .halfUp ∧ e = 2147450880)) ∧
      (rshift rnd e 16 = -32768 ↔ rnd = .trunc ∧ e < -2147418112) ∧
      (e = 2147483648 → u = -32768 ∧ v = -32768 ∧ c = -32768 ∧ s = -32768)

/-- 40_datapath.md R119, its range after the shift as printed, of the lanes of the model's rotations: EXPECTED TO FAIL. With
`TRUNC` a difference lane of R117 and R118 reaches -32768, for example that of u = v = s = -32768 and c = 32767 (log
entry 19). -/
def Obligations.RotationLanesStayInThePrintedRange : Prop :=
  ∀ (rnd : Rnd) (p : Sample) (t : Twiddle), LaneSample p → Lane t.c → Lane t.s →
    ∀ e ∈ [(rotF rnd p t).x, (rotF rnd p t).y, (rotI rnd p t).x, (rotI rnd p t).y], -32767 ≤ e ∧ e ≤ 32768

/-- 41_stage_one.md R147: no node of an `S1` butterfly clamps, and no rotation of its outputs does, whatever the table
holds. -/
def Obligations.StageOneNeverSaturates : Prop :=
  ∀ (rnd : Rnd) (dir : Dir) (q : Quad), LaneSample q.q0 → LaneSample q.q1 → LaneSample q.q2 → LaneSample q.q3 →
    let a := prescale .s1 q
    let f := firstCombine a
    let o := secondCombine rnd .s1 dir f
    (∀ p ∈ [a.q0, a.q1, a.q2, a.q3], ∀ z ∈ [p.x, p.y], -8192 ≤ z ∧ z ≤ 8191) ∧
    f.q0 = { x := a.q0.x + a.q2.x, y := a.q0.y + a.q2.y } ∧
    f.q1 = { x := a.q0.x - a.q2.x, y := a.q0.y - a.q2.y } ∧
    f.q2 = { x := a.q1.x + a.q3.x, y := a.q1.y + a.q3.y } ∧
    f.q3 = { x := a.q1.x - a.q3.x, y := a.q1.y - a.q3.y } ∧
    (∀ p ∈ [f.q0, f.q1, f.q2, f.q3], ∀ z ∈ [p.x, p.y], -16384 ≤ z ∧ z ≤ 16383) ∧
    diffOut rnd .s1 f.q0 f.q2 = { x := f.q0.x - f.q2.x, y := f.q0.y - f.q2.y } ∧
    crossMinus rnd .s1 f.q1 f.q3 = { x := f.q1.x + f.q3.y, y := f.q1.y - f.q3.x } ∧
    crossPlus rnd .s1 f.q1 f.q3 = { x := f.q1.x - f.q3.y, y := f.q1.y + f.q3.x } ∧
    (∀ p ∈ [o.q0, o.q1, o.q2, o.q3], ∀ z ∈ [p.x, p.y], -32767 ≤ z ∧ z ≤ 32766) ∧
    (∀ p ∈ [o.q1, o.q2, o.q3], ∀ t : Twiddle, Lane t.c → Lane t.s →
      rotF rnd p t = { x := rshift rnd (p.x * t.c + p.y * t.s) 16, y := rshift rnd (p.y * t.c - p.x * t.s) 16 } ∧
      rotI rnd p t = { x := rshift rnd (p.x * t.c - p.y * t.s) 16, y := rshift rnd (p.y * t.c + p.x * t.s) 16 })

/-! ## The primitive commands -/

/-- 40_datapath.md R121: `NOP` completes, sets `DONE` and changes nothing else. -/
def Obligations.NopOnlySetsDone : Prop :=
  ∀ s : State, exec .nop s = .next { s with status := { s.status with busy := false, done := true }, latch := none }

/-- 40_datapath.md R117, R118, R122, R123: the words 0x60 and 0x61 are `ROTF` and `ROTI`, which complete with the rotation
of `OPA` by `OPB` in `RES`, whatever `CFG` and the regions are, and change nothing else. -/
def Obligations.RotationCommandsWriteRes : Prop :=
  decode 0x00000060#32 = .ok .rotf ∧ decode 0x00000061#32 = .ok .roti ∧ ∀ s : State,
    let u := (loHalf s.opa).toInt
    let v := (hiHalf s.opa).toInt
    let c := (loHalf s.opb).toInt
    let d := (hiHalf s.opb).toInt
    let lane := fun e : Int => BitVec.ofInt 16 (min (max (rshift s.params.rnd e 16) (-32768)) 32767)
    exec .rotf s = .next { s with
      res := lane (v * c - u * d) ++ lane (u * c + v * d)
      status := { s.status with busy := false, done := true }
      latch := none } ∧
    exec .roti s = .next { s with
      res := lane (v * c + u * d) ++ lane (u * c - v * d)
      status := { s.status with busy := false, done := true }
      latch := none }

/-- 40_datapath.md R124: the word 0x70 is `PRESC`, which completes with both lanes of `OPA` shifted right arithmetically by 2 in `RES`, and
changes nothing else. -/
def Obligations.PrescShiftsBothLanes : Prop :=
  decode 0x00000070#32 = .ok .presc ∧ ∀ s : State, exec .presc s = .next { s with
    res := (hiHalf s.opa).sshiftRight 2 ++ (loHalf s.opa).sshiftRight 2
    status := { s.status with busy := false, done := true }
    latch := none }

/-! ## The passes -/

/-- 41_stage_one.md R141 to R143, 42_stage_two.md R161, 43_stage_three.md R181: the four outputs of a butterfly, at offsets
0, n2, 2*n2 and 3*n2, lane by lane, for each kind and direction. The pass statements below are about this
`butterflyOut`. -/
def Obligations.ButterflyOutputsAreTheFormulas : Prop :=
  ∀ (rnd : Rnd) (tw : Nat → Twiddle) (t : Nat) (xa ya xb yb xc yc xd yd : Int),
    let q : Quad := { q0 := { x := xa, y := ya }, q1 := { x := xb, y := yb },
                      q2 := { x := xc, y := yc }, q3 := { x := xd, y := yd } }
    (let px := addS (pre xa) (pre xc)
     let py := addS (pre ya) (pre yc)
     let qx := subS (pre xa) (pre xc)
     let qy := subS (pre ya) (pre yc)
     let rx := addS (pre xb) (pre xd)
     let ry := addS (pre yb) (pre yd)
     let sx := subS (pre xb) (pre xd)
     let sy := subS (pre yb) (pre yd)
     butterflyOut rnd .s1 .fwd tw t q =
       { q0 := { x := hadd rnd px rx, y := hadd rnd py ry }
         q1 := rotF rnd { x := subS px rx, y := subS py ry } (tw (2 * t))
         q2 := rotF rnd { x := addS qx sy, y := subS qy sx } (tw t)
         q3 := rotF rnd { x := subS qx sy, y := addS qy sx } (tw (3 * t)) } ∧
     butterflyOut rnd .s1 .inv tw t q =
       { q0 := { x := hadd rnd px rx, y := hadd rnd py ry }
         q1 := rotI rnd { x := subS px rx, y := subS py ry } (tw (2 * t))
         q2 := rotI rnd { x := subS qx sy, y := addS qy sx } (tw t)
         q3 := rotI rnd { x := addS qx sy, y := subS qy sx } (tw (3 * t)) }) ∧
    (let px := addS xa xc
     let py := addS ya yc
     let qx := subS xa xc
     let qy := subS ya yc
     let rx := addS xb xd
     let ry := addS yb yd
     let sx := subS xb xd
     let sy := subS yb yd
     butterflyOut rnd .s2 .fwd tw t q =
       { q0 := { x := shr1 rnd (hadd rnd px rx), y := shr1 rnd (hadd rnd py ry) }
         q1 := rotF rnd { x := hsub rnd px rx, y := hsub rnd py ry } (tw (2 * t))
         q2 := rotF rnd { x := hadd rnd qx sy, y := hsub rnd qy sx } (tw t)
         q3 := rotF rnd { x := hsub rnd qx sy, y := hadd rnd qy sx } (tw (3 * t)) } ∧
     butterflyOut rnd .s2 .inv tw t q =
       { q0 := { x := shr1 rnd (hadd rnd px rx), y := shr1 rnd (hadd rnd py ry) }
         q1 := rotI rnd { x := hsub rnd px rx, y := hsub rnd py ry } (tw (2 * t))
         q2 := rotI rnd { x := hsub rnd qx sy, y := hadd rnd qy sx } (tw t)
         q3 := rotI rnd { x := hadd rnd qx sy, y := hsub rnd qy sx } (tw (3 * t)) } ∧
     butterflyOut rnd .s3 .fwd tw t q =
       { q0 := { x := hadd rnd px rx, y := hadd rnd py ry }
         q1 := { x := hsub rnd px rx, y := hsub rnd py ry }
         q2 := { x := hadd rnd qx sy, y := hsub rnd qy sx }
         q3 := { x := hsub rnd qx sy, y := hadd rnd qy sx } } ∧
     butterflyOut rnd .s3 .inv tw t q =
       { q0 := { x := hadd rnd px rx, y := hadd rnd py ry }
         q1 := { x := hsub rnd px rx, y := hsub rnd py ry }
         q2 := { x := hsub rnd qx sy, y := hadd rnd qy sx }
         q3 := { x := hadd rnd qx sy, y := hsub rnd qy sx } })

/-- 41_stage_one.md R141 to R146: with legal operands `STG1F` and `STG1I` complete, every sample of the buffer is what
level 0 computes from the samples and the table before, and nothing outside the buffer changes. -/
def Obligations.StageOneComputesItsLevel : Prop :=
  ∀ (s : State) (i : Instr) (dir : Dir), (i = .stg1f ∧ dir = .fwd) ∨ (i = .stg1i ∧ dir = .inv) → TwiddleReady s →
    ∃ t, exec i s = .next t ∧ CompletedInBuffer s t ∧
      ∀ k < s.fftLen, sampleAt s t.mem k = stageOneOut s dir (sampleAt s s.mem) k

/-- 42_stage_two.md R160, R163, R164: with legal operands `STG2F` and `STG2I` complete, every sample of the buffer is what
levels 1 to L-2, each on the previous one's output, compute, and nothing outside the buffer changes. -/
def Obligations.StageTwoComputesItsLevels : Prop :=
  ∀ (s : State) (i : Instr) (dir : Dir), (i = .stg2f ∧ dir = .fwd) ∨ (i = .stg2i ∧ dir = .inv) → TwiddleReady s →
    ∃ t, exec i s = .next t ∧ CompletedInBuffer s t ∧
      ∀ k < s.fftLen, sampleAt s t.mem k = stageTwoOut s dir (sampleAt s s.mem) k

/-- 43_stage_three.md R180 to R183: with legal operands `STG3F` and `STG3I` complete, every sample of the buffer is what
the last level computes from its group of four, and nothing outside the buffer changes. -/
def Obligations.StageThreeComputesItsLevel : Prop :=
  ∀ (s : State) (i : Instr) (dir : Dir), (i = .stg3f ∧ dir = .fwd) ∨ (i = .stg3i ∧ dir = .inv) → BufferReady s →
    ∃ t, exec i s = .next t ∧ CompletedInBuffer s t ∧
      ∀ k < s.fftLen, sampleAt s t.mem k = stageThreeOut s dir (sampleAt s s.mem) k

/-- 42_stage_two.md R162: for N = 16, `STG2F` and `STG2I` make no access (no platform answer is used up) and complete, and
leave memory as it is, but for a buffer that overlaps the twiddle table, whose contents 20_memory.md R82 leaves open;
their register checks are still made, here the stride's. -/
def Obligations.StageTwoDoesNothingForSixteenSamples : Prop :=
  ∀ (s : State) (i : Instr), i = .stg2f ∨ i = .stg2i → s.log4n = 2 → s.races = [] → LengthLegal s →
    (ChecksPass i s →
      ∃ t, exec i s = .next t ∧
        t = { s with
          mem := t.mem
          freeCount := t.freeCount
          status := { s.status with busy := false, done := true }
          latch := none } ∧
        (RegionsApart (bufRegion s) (twRegion s) → t.mem = s.mem ∧ t.freeCount = s.freeCount) ∧
        ∀ a, OutsideRegion (bufRegion s) a → memByte t.mem a = memByte s.mem a) ∧
    (¬ StrideLegal s → ∃ t, exec i s = .next t ∧ EndedWith (.badStride (s.twStride.setWidth 32)) s t)

/-- 43_stage_three.md R183: `STG3I` is `STG3F` with outputs 2 and 3 of every group exchanged. -/
def Obligations.InverseStageThreeExchangesTwoOutputs : Prop :=
  ∀ s : State, BufferReady s →
    ∃ t u, exec .stg3f s = .next t ∧ exec .stg3i s = .next u ∧
      ∀ g < s.fftLen / 4,
        sampleAt s u.mem (4 * g) = sampleAt s t.mem (4 * g) ∧
        sampleAt s u.mem (4 * g + 1) = sampleAt s t.mem (4 * g + 1) ∧
        sampleAt s u.mem (4 * g + 2) = sampleAt s t.mem (4 * g + 3) ∧
        sampleAt s u.mem (4 * g + 3) = sampleAt s t.mem (4 * g + 2)

/-- 44_permute_dispatch.md R208: no command but `XFORM` reads `CFG.DIR` or `CFG.ORD`. -/
def Obligations.OnlyXformReadsDirectionAndOrdering : Prop :=
  ∀ (s : State) (i : Instr) (d : Dir) (o : OutOrder), i ≠ .xform →
    ∃ t, exec i s = .next t ∧
      exec i { s with cfg := { s.cfg with dir := d, ord := o } } =
        .next { t with cfg := { t.cfg with dir := d, ord := o } }

/-! ## The permuter and the dispatcher -/

/-- 44_permute_dispatch.md R200, R202: with legal operands `BITREV` completes, the words of the buffer are those before
with the table's swaps applied in ascending order, and nothing outside the buffer changes. -/
def Obligations.BitrevAppliesItsTable : Prop :=
  ∀ s : State, PermuteReady s →
    ∃ t, exec .bitrev s = .next t ∧ CompletedInBuffer s t ∧
      ∀ k < s.fftLen, wordAt t.mem (sampleAddr s k) =
        swapsOut (pairAt s s.mem) s.pairCount (fun j => wordAt s.mem (sampleAddr s j)) k

/-- 44_permute_dispatch.md R203: with a table in which no index appears in two pairs, `BITREV` run twice restores every
byte of memory. -/
def Obligations.BitrevTwiceRestoresTheBuffer : Prop :=
  ∀ s : State, PermuteReady s →
    (∀ p < s.pairCount, ∀ q < s.pairCount, p ≠ q →
      (pairAt s s.mem p).1 ≠ (pairAt s s.mem q).1 ∧ (pairAt s s.mem p).1 ≠ (pairAt s s.mem q).2 ∧
      (pairAt s s.mem p).2 ≠ (pairAt s s.mem q).1 ∧ (pairAt s s.mem p).2 ≠ (pairAt s s.mem q).2) →
    ∃ t u, exec .bitrev s = .next t ∧ exec .bitrev t = .next u ∧ ∀ a, memByte u.mem a = memByte s.mem a

/-- 44_permute_dispatch.md R205, R207: with legal operands `XFORM` completes, every sample is what StageOne, StageTwo
(for L > 2), StageThree and, in natural order, the table's swaps compute in the direction of `CFG.DIR`, and nothing
outside the buffer changes. -/
def Obligations.XformComputesTheTransform : Prop :=
  ∀ s : State, TransformReady s →
    ∃ t, exec .xform s = .next t ∧ CompletedInBuffer s t ∧
      ∀ k < s.fftLen, sampleAt s t.mem k = transformOut s (sampleAt s s.mem) k

/-- 44_permute_dispatch.md R207, 70_reset_and_hazards.md R268: `XFORM` leaves the same memory and flags as the separate
commands run one after another with the same registers. The acceptance of each command, which touches only `STATUS`
and the latch, is left out. -/
def Obligations.XformEqualsTheSeparateCommands : Prop :=
  ∀ s : State, TransformReady s →
    ∃ t s1 s2 s3 s4,
      exec .xform s = .next t ∧
      exec (match s.cfg.dir with | .fwd => .stg1f | .inv => .stg1i) s = .next s1 ∧
      (if 2 < s.log4n then exec (match s.cfg.dir with | .fwd => .stg2f | .inv => .stg2i) s1 = .next s2 else s2 = s1) ∧
      exec (match s.cfg.dir with | .fwd => .stg3f | .inv => .stg3i) s2 = .next s3 ∧
      (if s.cfg.ord = .natural then exec .bitrev s3 = .next s4 else s4 = s3) ∧
      t.status = s4.status ∧ ∀ a, memByte t.mem a = memByte s4.mem a

/-! ## Errors -/

/-- 60_exceptions.md R230, R237, R238: every command ends, in success (`DONE`, `ERRINFO` as before) or in an error of one
of the codes 1 to 7 (`DONE` and `RES` as before). -/
def Obligations.EveryCommandEndsInSuccessOrError : Prop :=
  ∀ (i : Instr) (s : State), ∃ t, exec i s = .next t ∧ t.latch = none ∧
    ((t.status = { s.status with busy := false, done := true } ∧ t.errInfo = s.errInfo) ∨
      (∃ x, t.status = { s.status with busy := false, err := true, errcode := errorCode x } ∧ t.errInfo = errorInfo x ∧
        1 ≤ (errorCode x).toNat ∧ (errorCode x).toNat ≤ 7 ∧ t.res = s.res))

/-- 60_exceptions.md R231, R233, R234: the register checks of every command that uses N, in their order: length, stride,
alignment of the regions in the order BUF, TW, BR, range in the same order. The first that fails is reported, and
nothing else changes; no access is made. -/
def Obligations.RegisterChecksReportTheFirstFailure : Prop :=
  ∀ (i : Instr) (s : State), usesLength i = true → s.races = [] →
    (¬ LengthLegal s →
      ∃ t, exec i s = .next t ∧ t.busErrs = s.busErrs ∧ EndedWith (.badN (s.cfg.log4n.setWidth 32)) s t) ∧
    (LengthLegal s → readsTwiddles i = true → ¬ StrideLegal s →
      ∃ t, exec i s = .next t ∧ t.busErrs = s.busErrs ∧ EndedWith (.badStride (s.twStride.setWidth 32)) s t) ∧
    (LengthLegal s → (readsTwiddles i = true → StrideLegal s) →
      ∀ before r after, regions i s = before ++ r :: after →
        ((∀ q ∈ before, RegionAligned q) → ¬ RegionAligned r →
          ∃ t, exec i s = .next t ∧ t.busErrs = s.busErrs ∧ EndedWith (.badAlign r.base) s t) ∧
        ((∀ q ∈ regions i s, RegionAligned q) → (∀ q ∈ before, RegionInRange s q) → ¬ RegionInRange s r →
          ∃ t, exec i s = .next t ∧ t.busErrs = s.busErrs ∧ EndedWith (.badRange r.base) s t))

/-- 44_permute_dispatch.md R201, 60_exceptions.md R235: `BITREV`, and `XFORM` in natural order, report the first pair with
an index that is not below N, before any buffer write: memory is exactly as before. -/
def Obligations.BadTableStopsBeforeAnyWrite : Prop :=
  ∀ (i : Instr) (s : State) (p : Nat), i = .bitrev ∨ (i = .xform ∧ s.cfg.ord = .natural) →
    ChecksPass i s → Undisturbed s → p < s.pairCount →
    (∀ q < p, (pairAt s s.mem q).1 < s.fftLen ∧ (pairAt s s.mem q).2 < s.fftLen) →
    (s.fftLen ≤ (pairAt s s.mem p).1 ∨ s.fftLen ≤ (pairAt s s.mem p).2) →
    ∃ t, exec i s = .next t ∧ EndedWith (.badTable (BitVec.ofNat 32 p)) s t

/-- 20_memory.md R83, 60_exceptions.md R236: when the platform answers a command's first access with an error, the command
ends with `BUS_ERR` and that access's address, makes no further access, and leaves every byte outside the buffer. That
the accesses come in the order of the pseudocode is the model's choice (log entry 6). -/
def Obligations.ErrorOnTheFirstAccessIsReported : Prop :=
  ∀ (i : Instr) (s : State) (rest : List Bool), s.busErrs = true :: rest → s.races = [] → ChecksPass i s →
    ∀ base, ((i ∈ [Instr.stg1f, .stg1i, .stg3f, .stg3i] ∨ (i ∈ [Instr.stg2f, .stg2i] ∧ 2 < s.log4n) ∨
        (i = .xform ∧ (s.cfg.ord = .bitReversed ∨ s.pairCount = 0))) ∧ base = s.bufAddr) ∨
      ((i = .bitrev ∨ (i = .xform ∧ s.cfg.ord = .natural)) ∧ 0 < s.pairCount ∧ base = s.brAddr) →
    ∃ t, exec i s = .next t ∧
      t = { s with
        mem := t.mem
        freeCount := t.freeCount
        status := { s.status with busy := false, err := true, errcode := 0x07#8 }
        errInfo := base
        latch := none
        busErrs := rest } ∧
      ∀ a, OutsideRegion (bufRegion s) a → memByte t.mem a = memByte s.mem a

/-- 60_exceptions.md R236: after `BUS_ERR`, `ERRINFO` is the 4-byte aligned address of an access inside the command's
regions, only `STATUS` and `ERRINFO` changed among the registers, and no byte outside the buffer did. -/
def Obligations.BusErrorLeavesOnlyTheBufferOpen : Prop :=
  ∀ (i : Instr) (s t : State), s.params.legal = true → s.races = [] → s.status.err = false →
    exec i s = .next t → t.status.err = true → t.status.errcode = 0x07#8 →
    (∃ r ∈ regions i s, r.base.toNat ≤ t.errInfo.toNat ∧ t.errInfo.toNat < r.base.toNat + r.size) ∧
    t.errInfo.toNat % 4 = 0 ∧
    t = { s with
      mem := t.mem
      freeCount := t.freeCount
      status := { s.status with busy := false, err := true, errcode := 0x07#8 }
      errInfo := t.errInfo
      latch := none
      busErrs := t.busErrs } ∧
    ∀ a, OutsideRegion (bufRegion s) a → memByte t.mem a = memByte s.mem a

/-- 60_exceptions.md R239: every error but `BUS_ERR` is precise: data memory and every register but `STATUS` and
`ERRINFO` are exactly as at acceptance. -/
def Obligations.ErrorsOtherThanBusErrorArePrecise : Prop :=
  ∀ (i : Instr) (s t : State), s.races = [] → s.status.err = false →
    exec i s = .next t → t.status.err = true → t.status.errcode ≠ 0x07#8 → ∃ x, EndedWith x s t

/-- 20_memory.md R63, R77: no command changes a byte outside its buffer, or any byte if it has none, whatever the
registers, the tables and the platform do; a raced word may change too. -/
def Obligations.CommandsWriteOnlyTheirBuffer : Prop :=
  ∀ (i : Instr) (s t : State) (a : Nat), exec i s = .next t →
    (usesLength i = false ∨ OutsideRegion (bufRegion s) a) → (∀ w ∈ s.races, a < w ∨ w + 4 ≤ a) →
    memByte t.mem a = memByte s.mem a

/-- 20_memory.md R82: a buffer that overlaps a table is not checked for: with legal operands the command still completes,
every byte of the buffer then holds a free value (its form is the model's own, log entry 7), and no byte outside the
buffer changes. -/
def Obligations.OverlappingRegionsStillComplete : Prop :=
  ∀ (i : Instr) (s : State), usesLength i = true → ChecksPass i s → Undisturbed s →
    (i = .bitrev ∨ (i = .xform ∧ s.cfg.ord = .natural) → TableLegal s) →
    ∃ t, exec i s = .next t ∧
      t = { s with
        mem := t.mem
        freeCount := t.freeCount
        busErrs := t.busErrs
        status := { s.status with busy := false, done := true }
        latch := none } ∧
      (∀ a, OutsideRegion (bufRegion s) a → memByte t.mem a = memByte s.mem a) ∧
      ((∃ r ∈ (regions i s).tail, ¬ RegionsApart (bufRegion s) r) →
        ∀ a, ¬ OutsideRegion (bufRegion s) a → memByte t.mem a = Config.freeByte s.freeCount a)

/-! ## The whole machine -/

/-- 10_state.md R39, R44: no step changes `RES` but the completion of `ROTF`, `ROTI` or `PRESC`, which leaves there what
that command computes, and a reset, which clears it. The inputs under which the engine moves are the model's choice
(log entries 4, 5 and 17). -/
def Obligations.OnlyPrimitivesAndResetChangeRes : Prop :=
  ∀ s t : State, step s = .next t → t.res ≠ s.res →
    (∃ i u, i ∈ [Instr.rotf, .roti, .presc] ∧ runningCommand s = some i ∧ exec i s = .next u ∧ t.res = u.res ∧
      t.latch = none ∧ t.status.done = true ∧
      (s.inbox = [] ∨ (∃ rest, s.inbox = .engine :: rest) ∨ ∃ a m v rest, s.inbox = .regPoll a m v :: rest)) ∨
    (t.res = 0#32 ∧
      ((∃ v rest, s.inbox = .regWrite (regAddr s.params .ctrl) .b32 v :: rest ∧ v.getLsbD 31 = true) ∨
        (∃ b rest, s.inbox = .resetLine b :: rest ∧ (b = true ∨ s.resetIn = true))))

/-- 10_state.md R40, 70_reset_and_hazards.md R266: as long as `BUSY` stays 1, no step changes an input register of the
command or the latched word. -/
def Obligations.BusyFreezesTheCommandsInputs : Prop :=
  ∀ s t : State, step s = .next t → s.status.busy = true → t.status.busy = true →
    t.latch = s.latch ∧ t.cfg = s.cfg ∧ t.bufAddr = s.bufAddr ∧ t.twAddr = s.twAddr ∧ t.twStride = s.twStride ∧
    t.twLen = s.twLen ∧ t.brAddr = s.brAddr ∧ t.brCount = s.brCount ∧ t.opa = s.opa ∧ t.opb = s.opb

/-- 70_reset_and_hazards.md R267: while `BUSY` = 1, `RES`, `ERRINFO` and `ERRCODE` hold their values. -/
def Obligations.ResultsHoldWhileBusy : Prop :=
  ∀ s t : State, Inv s → step s = .next t → s.status.busy = true → t.status.busy = true →
    t.res = s.res ∧ t.errInfo = s.errInfo ∧ t.status.errcode = s.status.errcode

/-- 60_exceptions.md R244, 10_state.md R40: `OVR` is set only by a dropped write (to `CMD` while `BUSY` or `ERR`, to an
input register while `BUSY`), and cleared only by a W1C write of its bit or a reset. -/
def Obligations.OverrunIsStickyAndSetByDrops : Prop :=
  ∀ s t : State, step s = .next t →
    (s.status.ovr = false → t.status.ovr = true →
      ∃ r v rest, s.inbox = .regWrite (regAddr s.params r) .b32 v :: rest ∧
        ((r = .cmd ∧ (s.status.busy = true ∨ s.status.err = true)) ∨ (r ∈ inputRegs ∧ s.status.busy = true))) ∧
    (s.status.ovr = true → t.status.ovr = false →
      (∃ v rest, s.inbox = .regWrite (regAddr s.params .status) .b32 v :: rest ∧ v.getLsbD 3 = true) ∨
      (∃ v rest, s.inbox = .regWrite (regAddr s.params .ctrl) .b32 v :: rest ∧ v.getLsbD 31 = true) ∨
      (∃ b rest, s.inbox = .resetLine b :: rest ∧ (b = true ∨ s.resetIn = true)))

/-- 00_scope.md R6, 70_reset_and_hazards.md R265: no step changes a parameter of the instance. -/
def Obligations.ParametersNeverChange : Prop :=
  ∀ s t : State, step s = .next t → t.params = s.params

/-- 70_reset_and_hazards.md R270: an accepted command ends after finitely many steps, whatever inputs come before: within
one step more than there are inputs the latch is empty, unless the machine has stopped. That the engine moves when no
input is left is the model's choice (log entry 5). -/
def Obligations.AcceptedCommandsEndInTime : Prop :=
  ∀ s : State, s.latch ≠ none →
    ∃ k ≤ s.inbox.length + 1,
      (∃ t, Host.Core.run Sys2Proof.core k s = .next t ∧ t.latch = none) ∨
      (∀ t, Host.Core.run Sys2Proof.core k s ≠ .next t)

/-- 20_memory.md R65: two instances that differ only in `PACK_ORDER`, with the same logical samples, end the same command
with the same logical samples and the same flags. -/
def Obligations.PackingOrderIsInvisible : Prop :=
  ∀ (i : Instr) (s : State) (po : PackOrder) (m : Memory), CommandReady i s →
    let s' : State := { s with params := { s.params with packOrder := po }, mem := m }
    (∀ a, OutsideRegion (bufRegion s) a → memByte m a = memByte s.mem a) →
    (∀ k < s.fftLen, sampleAt s' m k = sampleAt s s.mem k) →
    ∃ t t', exec i s = .next t ∧ exec i s' = .next t' ∧ t'.status = t.status ∧ t'.res = t.res ∧
      (∀ k < s.fftLen, sampleAt s' t'.mem k = sampleAt s t.mem k) ∧
      (∀ a, OutsideRegion (bufRegion s) a → memByte t'.mem a = memByte t.mem a)

/-- 10_state.md R43: a command's effect does not depend on the interrupt enables, on what the host read last, on what
inputs are still to come, or on the word in the latch: only the command, its registers, the parameters, memory and the
platform's answers matter. -/
def Obligations.CommandsHaveNoResidualState : Prop :=
  ∀ (i : Instr) (s : State) (c : Ctrl) (d : Word) (q : List Event) (l : Option Word),
    ∃ t, exec i s = .next t ∧
      exec i { s with ctrl := c, readData := d, inbox := q, latch := l } =
        .next { t with ctrl := c, readData := d, inbox := q }

/-! ## The host's data memory -/

/-- 20_memory.md R61: host stores of 1, 2 and 4 bytes are little-endian and change only the bytes they name; a halfword
store lands in the half of the engine's word that its address says; loads return the bytes, zero-extended (kept in
`readData`, log entry 15). That misaligned host accesses are ordinary ones is the model's choice (log entry 10). -/
def Obligations.HostStoresAreLittleEndian : Prop :=
  (accessBytes .b8 = 1 ∧ accessBytes .b16 = 2 ∧ accessBytes .b32 = 4) ∧
  ∀ (s : State) (a : Nat) (size : AccessSize) (v : Word) (rest : List Event), s.latch = none →
    a + accessBytes size ≤ 2 ^ s.params.addrW →
    (s.inbox = .memWrite a size v :: rest →
      ∃ t, step s = .next t ∧ t = { s with inbox := rest, mem := t.mem } ∧
        (∀ k < accessBytes size, memByte t.mem (a + k) = v.extractLsb' (8 * k) 8) ∧
        (∀ b, b < a ∨ a + accessBytes size ≤ b → memByte t.mem b = memByte s.mem b) ∧
        (size = .b32 → wordAt t.mem a = v) ∧
        (size = .b16 → a % 4 = 0 → wordAt t.mem a = hiHalf (wordAt s.mem a) ++ loHalf v) ∧
        (size = .b16 → a % 4 = 2 → wordAt t.mem (a - 2) = loHalf v ++ loHalf (wordAt s.mem (a - 2)))) ∧
    (s.inbox = .memRead a size :: rest →
      ∃ t, step s = .next t ∧ t = { s with inbox := rest, readData := t.readData } ∧
        (∀ k < accessBytes size, t.readData.extractLsb' (8 * k) 8 = memByte s.mem (a + k)) ∧
        t.readData.toNat < 256 ^ accessBytes size)

/-- 20_memory.md R77: during a command, a host access apart from the command's regions is an ordinary one; a load that
meets a region changes nothing but the value returned, which is open; a store that meets one changes no byte outside
the aligned words it touches, and these are recorded as raced. What counts as meeting a region and how a race is
recorded is the model's reading (log entry 8), and that misaligned host accesses are ordinary ones its choice (log
entry 10). -/
def Obligations.HostAccessesDuringACommand : Prop :=
  ∀ (s : State) (i : Instr) (a : Nat) (v : Word) (rest : List Event), runningCommand s = some i →
    a + 4 ≤ 2 ^ s.params.addrW →
    ((∀ r ∈ regions i s, r.size = 0 ∨ a + 4 ≤ r.base.toNat ∨ r.base.toNat + r.size ≤ a) →
      (s.inbox = .memRead a .b32 :: rest → step s = .next { s with inbox := rest, readData := wordAt s.mem a }) ∧
      (s.inbox = .memWrite a .b32 v :: rest →
        step s = .next { s with inbox := rest, mem := memWrite s.mem a 4 v.toNat })) ∧
    ((∃ r ∈ regions i s, 0 < r.size ∧ a < r.base.toNat + r.size ∧ r.base.toNat < a + 4) →
      (s.inbox = .memRead a .b32 :: rest →
        ∃ t, step s = .next t ∧
          t = { s with inbox := rest, readData := t.readData, freeCount := t.freeCount }) ∧
      (s.inbox = .memWrite a .b32 v :: rest →
        ∃ t, step s = .next t ∧
          t = { s with inbox := rest, mem := t.mem, freeCount := t.freeCount, races := t.races } ∧
          4 * (a / 4) ∈ t.races ∧ 4 * ((a + 3) / 4) ∈ t.races ∧
          (∀ b, b < 4 * (a / 4) ∨ 4 * ((a + 3) / 4) + 4 ≤ b → memByte t.mem b = memByte s.mem b)))

/-- 20_memory.md R60: the top of data memory is exact: a host access whose last byte is inside completes, one that
reaches past it stops. That it stops with a fault is the model's choice (log entry 10). -/
def Obligations.HostAccessesStopPastTheTop : Prop :=
  ∀ (s : State) (a : Nat) (size : AccessSize) (v : Word) (rest : List Event),
    (a + accessBytes size ≤ 2 ^ s.params.addrW →
      (s.inbox = .memRead a size :: rest → ∃ t, step s = .next t ∧ t.mem = s.mem ∧ t.inbox = rest) ∧
      (s.inbox = .memWrite a size v :: rest → ∃ t, step s = .next t ∧ t.readData = s.readData ∧ t.inbox = rest)) ∧
    (2 ^ s.params.addrW < a + accessBytes size →
      s.inbox = .memRead a size :: rest ∨ s.inbox = .memWrite a size v :: rest →
      step s = .fault (.memOutsideSpace a))

/-- 30_encoding.md R100, R101: `wait` ends when `BUSY` reads 0; while it reads 1 the read repeats and the latched command
is completed meanwhile; `expect` reads once, and the program fails if the value differs. How a poll takes its turns
is the model's choice (log entry 17). -/
def Obligations.WaitEndsWhenBusyReadsZero : Prop :=
  ∀ (s : State) (v : Word) (rest : List Event),
    (∀ q, s.inbox = formEvents s.params .wait ++ q →
      (s.status.busy = false → step s = .next { s with inbox := q, readData := readReg .status s }) ∧
      (∀ i w, s.status.busy = true → s.latch = some w → decode w = .ok i →
        ∃ t, step s = .next t ∧ t.latch = none ∧ t.status.busy = false ∧ t.inbox = s.inbox)) ∧
    (∀ r, s.inbox = .regExpect (regAddr s.params r) 0xFFFFFFFF#32 v :: rest →
      (readReg r s = v → step s = .next { s with inbox := rest, readData := v }) ∧
      (readReg r s ≠ v → step s = .fault (.expectFailed (readReg r s) v)))

/-! ## The invariant -/

/-- 10_state.md R44, 00_scope.md R6: right after reset the invariant holds, for the default instance and for every legal
one. -/
def Obligations.ResetSatisfiesTheInvariant : Prop :=
  Inv State.reset ∧ ∀ p : Params, p.legal = true → Inv (State.resetOf p)

/-- The invariant is kept by every step, from every state that has it, with any inputs and any platform answers. -/
def Obligations.StepKeepsTheInvariant : Prop :=
  ∀ s t : State, Inv s → step s = .next t → Inv t
end

