-- ==== Sys2Proof/Laws/Memory.lean ====
section
/-! SUPPORT. What the memory operations do to each byte, and that each keeps the canonical form. -/

namespace Sys2Proof.Machine

/-! Looking up after one byte is written. -/

theorem memLookup_memInsert_same (m : Memory) (a : Nat) (v : Byte) : memLookup (memInsert m a v) a = some v := by
  induction m with
  | nil => simp [memInsert, memLookup]
  | cons c rest ih =>
    obtain ⟨b, u⟩ := c
    unfold memInsert
    split
    · simp [memLookup]
    · split
      · simp [memLookup]
      · rename_i h
        simp [memLookup, Ne.symm h, ih]

theorem memLookup_memInsert_other (m : Memory) (a b : Nat) (v : Byte) (h : b ≠ a) :
    memLookup (memInsert m a v) b = memLookup m b := by
  induction m with
  | nil => simp [memInsert, memLookup, Ne.symm h]
  | cons c rest ih =>
    obtain ⟨d, u⟩ := c
    unfold memInsert
    split
    · simp [memLookup, Ne.symm h]
    · split
      · rename_i e
        subst e
        simp [memLookup, Ne.symm h]
      · by_cases hd : d = b
        · simp [memLookup, hd]
        · simp [memLookup, hd, ih]

theorem memByte_memInsert (m : Memory) (a b : Nat) (v : Byte) :
    memByte (memInsert m a v) b = if b = a then v else memByte m b := by
  by_cases h : b = a
  · subst h
    simp [memByte, memLookup_memInsert_same]
  · simp [memByte, memLookup_memInsert_other m a b v h, h]

/-! Bytes outside a written range. -/

theorem memByte_memWrite_outside (n : Nat) : ∀ (m : Memory) (a v b : Nat), (b < a ∨ a + n ≤ b) →
    memByte (memWrite m a n v) b = memByte m b := by
  induction n with
  | zero => intro m a v b _; rfl
  | succ k ih =>
    intro m a v b h
    unfold memWrite
    rw [ih _ _ _ _ (by omega), memByte_memInsert, if_neg (by omega)]

theorem memByte_memFree_outside (draw : Nat) (m : Memory) (a n b : Nat) (h : b < a ∨ a + n ≤ b) :
    memByte (memFree draw m a n) b = memByte m b := by
  induction n with
  | zero => rfl
  | succ k ih =>
    unfold memFree
    rw [memByte_memInsert, if_neg (by omega), ih (by omega)]

/-- Inside a freed range every byte is the free value of that draw. -/
theorem memByte_memFree_inside (draw : Nat) (m : Memory) (a n b : Nat) (h : a ≤ b ∧ b < a + n) :
    memByte (memFree draw m a n) b = Config.freeByte draw b := by
  induction n with
  | zero => omega
  | succ k ih =>
    unfold memFree
    rw [memByte_memInsert]
    split
    · rename_i e; rw [e]
    · exact ih (by omega)

theorem memByte_memFreeWords_outside (draw : Nat) (m : Memory) (ws : List Nat) (b : Nat)
    (h : ∀ w ∈ ws, b < w ∨ w + 4 ≤ b) : memByte (memFreeWords draw m ws) b = memByte m b := by
  induction ws with
  | nil => rfl
  | cons w rest ih =>
    unfold memFreeWords
    rw [memByte_memFree_outside _ _ _ _ _ (h w (by simp)), ih (fun x hx => h x (by simp [hx]))]

/-! Reading words. -/

/-- A read depends only on the bytes it covers. -/
theorem memRead_congr (n : Nat) : ∀ (m m' : Memory) (a : Nat),
    (∀ b, a ≤ b → b < a + n → memByte m b = memByte m' b) → memRead m a n = memRead m' a n := by
  induction n with
  | zero => intro m m' a _; rfl
  | succ k ih =>
    intro m m' a h
    unfold memRead
    rw [h a (by omega) (by omega), ih m m' (a + 1) (fun b h1 h2 => h b (by omega) (by omega))]

theorem memRead_lt (n : Nat) : ∀ (m : Memory) (a : Nat), memRead m a n < 256 ^ n := by
  induction n with
  | zero => intro m a; simp [memRead]
  | succ k ih =>
    intro m a
    unfold memRead
    have h1 := ih m (a + 1)
    have h2 := (memByte m a).isLt
    rw [Nat.pow_succ]
    omega

/-- Read after write at the same place gives the value written (20_memory.md R60, R61). -/
theorem memRead_memWrite_same (n : Nat) : ∀ (m : Memory) (a v : Nat), memRead (memWrite m a n v) a n = v % 256 ^ n := by
  induction n with
  | zero => intro m a v; simp [memRead, Nat.mod_one]
  | succ k ih =>
    intro m a v
    unfold memRead memWrite
    rw [memByte_memWrite_outside _ _ _ _ _ (by omega), memByte_memInsert, if_pos rfl, ih, Nat.pow_succ',
      Nat.mod_mul, BitVec.toNat_ofNat]

/-- A read apart from a write sees what was there. -/
theorem memRead_memWrite_apart (m : Memory) (a n v b k : Nat) (h : b + k ≤ a ∨ a + n ≤ b) :
    memRead (memWrite m a n v) b k = memRead m b k :=
  memRead_congr k _ _ b fun c h1 h2 => memByte_memWrite_outside n m a v c (by omega)

theorem wordAt_memWrite_same (m : Memory) (a : Nat) (w : Word) : wordAt (memWrite m a 4 w.toNat) a = w := by
  unfold wordAt
  rw [memRead_memWrite_same]
  apply BitVec.eq_of_toNat_eq
  have := w.isLt
  simp only [BitVec.toNat_ofNat]
  omega

theorem wordAt_memWrite_apart (m : Memory) (a b v : Nat) (h : b + 4 ≤ a ∨ a + 4 ≤ b) :
    wordAt (memWrite m a 4 v) b = wordAt m b := by
  unfold wordAt
  rw [memRead_memWrite_apart _ _ _ _ _ _ h]

theorem wordAt_congr (m m' : Memory) (a : Nat) (h : ∀ b, a ≤ b → b < a + 4 → memByte m b = memByte m' b) :
    wordAt m a = wordAt m' a := by
  unfold wordAt
  rw [memRead_congr 4 m m' a h]

/-- The bytes of a word are its word: two memories with the same word at an address agree on its four bytes. -/
theorem memByte_of_wordAt (m m' : Memory) (a : Nat) (h : wordAt m a = wordAt m' a) (b : Nat) (h1 : a ≤ b)
    (h2 : b < a + 4) : memByte m b = memByte m' b := by
  have hr : memRead m a 4 = memRead m' a 4 := by
    have := congrArg BitVec.toNat h
    simp only [wordAt, BitVec.toNat_ofNat] at this
    have l1 := memRead_lt 4 m a
    have l2 := memRead_lt 4 m' a
    omega
  simp only [memRead] at hr
  have e : b = a ∨ b = a + 1 ∨ b = a + 1 + 1 ∨ b = a + 1 + 1 + 1 := by omega
  have b0 := (memByte m a).isLt
  have b1 := (memByte m (a + 1)).isLt
  have b2 := (memByte m (a + 1 + 1)).isLt
  have b3 := (memByte m (a + 1 + 1 + 1)).isLt
  have c0 := (memByte m' a).isLt
  have c1 := (memByte m' (a + 1)).isLt
  have c2 := (memByte m' (a + 1 + 1)).isLt
  have c3 := (memByte m' (a + 1 + 1 + 1)).isLt
  apply BitVec.eq_of_toNat_eq
  rcases e with e | e | e | e <;> subst e <;> omega

/-! The canonical form. -/

theorem memWf_cons (c : Host.Cell) (rest : Memory) :
    memWf (c :: rest) = true ↔ (∀ d ∈ rest.head?, c.1 < d.1) ∧ memWf rest = true := by
  cases rest with
  | nil => simp [memWf]
  | cons d t => simp [memWf]

theorem head_memInsert (m : Memory) (a : Nat) (v : Byte) (lo : Nat) (hlo : lo < a) (h : ∀ d ∈ m.head?, lo < d.1) :
    ∀ d ∈ (memInsert m a v).head?, lo < d.1 := by
  cases m with
  | nil => simpa [memInsert] using hlo
  | cons c rest =>
    obtain ⟨b, u⟩ := c
    unfold memInsert
    split
    · simpa using hlo
    · split
      · simpa using hlo
      · simpa using h

theorem memWf_memInsert (m : Memory) (a : Nat) (v : Byte) (h : memWf m = true) : memWf (memInsert m a v) = true := by
  induction m with
  | nil => simp [memInsert, memWf]
  | cons c rest ih =>
    obtain ⟨b, u⟩ := c
    have hc := (memWf_cons _ _).1 h
    unfold memInsert
    split
    · rename_i hlt
      exact (memWf_cons _ _).2 ⟨by simpa using hlt, h⟩
    · split
      · rename_i e
        subst e
        exact (memWf_cons _ _).2 hc
      · exact (memWf_cons _ _).2 ⟨head_memInsert rest a v b (by omega) hc.1, ih hc.2⟩

theorem memWf_memWrite (n : Nat) : ∀ (m : Memory) (a v : Nat), memWf m = true → memWf (memWrite m a n v) = true := by
  induction n with
  | zero => intro m a v h; exact h
  | succ k ih => intro m a v h; exact ih _ _ _ (memWf_memInsert m a _ h)

theorem memWf_memFree (draw : Nat) (m : Memory) (a n : Nat) (h : memWf m = true) : memWf (memFree draw m a n) = true := by
  induction n with
  | zero => exact h
  | succ k ih => exact memWf_memInsert _ _ _ ih

theorem memWf_memFreeWords (draw : Nat) (m : Memory) (ws : List Nat) (h : memWf m = true) :
    memWf (memFreeWords draw m ws) = true := by
  induction ws with
  | nil => exact h
  | cons w rest ih => exact memWf_memFree _ _ _ _ ih

/-- Data memory at reset has the canonical form. -/
theorem memWf_reset : memWf State.reset.mem = true := rfl

/-! Listed addresses stay below a bound that every write respects. -/

theorem mem_memInsert (m : Memory) (a : Nat) (v : Byte) (c : Host.Cell) (h : c ∈ memInsert m a v) :
    c.1 = a ∨ c ∈ m := by
  induction m with
  | nil => simp_all [memInsert]
  | cons d rest ih =>
    obtain ⟨b, u⟩ := d
    unfold memInsert at h
    split at h
    · simp only [List.mem_cons] at h ⊢
      rcases h with rfl | h
      · exact .inl rfl
      · exact .inr h
    · split at h
      · simp only [List.mem_cons] at h ⊢
        rcases h with rfl | h
        · exact .inl rfl
        · exact .inr (.inr h)
      · simp only [List.mem_cons] at h ⊢
        rcases h with rfl | h
        · exact .inr (.inl rfl)
        · rcases ih h with e | e
          · exact .inl e
          · exact .inr (.inr e)

theorem below_memInsert (m : Memory) (a : Nat) (v : Byte) (hi : Nat) (ha : a < hi) (h : ∀ c ∈ m, c.1 < hi) :
    ∀ c ∈ memInsert m a v, c.1 < hi := by
  intro c hc
  rcases mem_memInsert m a v c hc with e | e
  · omega
  · exact h c e

theorem below_memWrite (n : Nat) : ∀ (m : Memory) (a v hi : Nat), a + n ≤ hi → (∀ c ∈ m, c.1 < hi) →
    ∀ c ∈ memWrite m a n v, c.1 < hi := by
  induction n with
  | zero => intro m a v hi _ h; exact h
  | succ k ih =>
    intro m a v hi hn h
    exact ih _ _ _ _ (by omega) (below_memInsert m a _ hi (by omega) h)

theorem below_memFree (draw : Nat) (m : Memory) (a n hi : Nat) (hn : a + n ≤ hi ∨ n = 0) (h : ∀ c ∈ m, c.1 < hi) :
    ∀ c ∈ memFree draw m a n, c.1 < hi := by
  induction n with
  | zero => exact h
  | succ k ih => exact below_memInsert _ _ _ _ (by omega) (ih (by omega))

theorem below_memFreeWords (draw : Nat) (m : Memory) (ws : List Nat) (hi : Nat) (hw : ∀ w ∈ ws, w + 4 ≤ hi)
    (h : ∀ c ∈ m, c.1 < hi) : ∀ c ∈ memFreeWords draw m ws, c.1 < hi := by
  induction ws with
  | nil => exact h
  | cons w rest ih =>
    exact below_memFree _ _ _ _ _ (.inl (hw w (by simp))) (ih fun x hx => hw x (by simp [hx]))

end Sys2Proof.Machine
end

