-- ==== Sys2Proof/Laws/Engine.lean ====
section
/-! SUPPORT. What a piece of a command's pseudocode can do: how it is sequenced, what it keeps whatever the platform
answers (`EngKeeps`), and what it computes when the platform reports no error (`EngRuns`). -/

namespace Sys2Proof.Machine

/-! Sequencing. -/

@[simp] theorem engPure_apply {α : Type} (a : α) (e : Eng) : (pure a : EngM α) e = .ok a e := rfl

theorem engBind_apply {α β : Type} (x : EngM α) (f : α → EngM β) (e : Eng) :
    (x >>= f) e = match x e with
      | .ok a e' => f a e'
      | .error r e' => .error r e' := by
  show EStateM.bind x f e = _
  unfold EStateM.bind
  cases x e <;> rfl

@[simp] theorem engThrow_apply {α : Type} (r : CmdError) (e : Eng) : (throw r : EngM α) e = .error r e := rfl

theorem forUp_zero (body : Nat → EngM Unit) : forUp 0 body = pure () := rfl

theorem forUp_succ (n : Nat) (body : Nat → EngM Unit) : forUp (n + 1) body = forUp n body >>= fun _ => body n := rfl

/-! Keeping a property. -/

/-- `x` keeps `P`, whether it goes on or raises an error. -/
def EngKeeps {α : Type} (P : Eng → Prop) (x : EngM α) : Prop :=
  ∀ e, P e → (∀ a e', x e = .ok a e' → P e') ∧ (∀ r e', x e = .error r e' → P e')

theorem engKeeps_pure {α : Type} (P : Eng → Prop) (a : α) : EngKeeps P (pure a) := by
  intro e h
  refine ⟨fun b e' hb => ?_, fun r e' hr => ?_⟩
  · cases hb; exact h
  · cases hr

theorem engKeeps_throw {α : Type} (P : Eng → Prop) (r : CmdError) : EngKeeps P (throw r : EngM α) := by
  intro e h
  refine ⟨fun b e' hb => ?_, fun r e' hr => ?_⟩
  · cases hb
  · cases hr; exact h

theorem engKeeps_bind {α β : Type} (P : Eng → Prop) (x : EngM α) (f : α → EngM β) (hx : EngKeeps P x)
    (hf : ∀ a, EngKeeps P (f a)) : EngKeeps P (x >>= f) := by
  intro e h
  simp only [engBind_apply]
  have h1 := hx e h
  cases hxe : x e with
  | ok a e1 => exact hf a e1 (h1.1 a e1 hxe)
  | error r e1 =>
    refine ⟨fun b e' hb => by simp at hb, fun r' e' hr => ?_⟩
    simp only [EStateM.Result.error.injEq] at hr
    obtain ⟨-, rfl⟩ := hr
    exact h1.2 r e1 hxe

theorem engKeeps_forUp (P : Eng → Prop) (n : Nat) (body : Nat → EngM Unit) (h : ∀ k < n, EngKeeps P (body k)) :
    EngKeeps P (forUp n body) := by
  induction n with
  | zero => exact engKeeps_pure P ()
  | succ k ih => exact engKeeps_bind P _ _ (ih fun j hj => h j (by omega)) fun _ => h k (by omega)

/-- A property of data memory and of the write mode alone. -/
def OnMem (Q : Memory → Bool → Prop) (e : Eng) : Prop := Q e.mem e.dry

theorem engKeeps_busAnswer (Q : Memory → Bool → Prop) (a : Nat) : EngKeeps (OnMem Q) (busAnswer a) := by
  intro e h
  unfold busAnswer
  split
  · exact ⟨fun _ _ hb => by cases hb; exact h, fun _ _ hr => by cases hr⟩
  · exact ⟨fun _ _ hb => by cases hb; exact h, fun _ _ hr => by cases hr⟩
  · exact ⟨fun _ _ hb => (by cases hb), fun _ _ hr => (by cases hr; exact h)⟩

theorem engKeeps_engRead (Q : Memory → Bool → Prop) (a : Nat) : EngKeeps (OnMem Q) (engRead a) := by
  refine engKeeps_bind _ _ _ (engKeeps_busAnswer Q a) fun _ => ?_
  intro e h
  exact ⟨fun b e' hb => by cases hb; exact h, fun r e' hr => by cases hr⟩

/-- A write keeps a property that the write itself keeps when writes are kept. -/
theorem engKeeps_engWrite (Q : Memory → Bool → Prop) (a : Nat) (w : Word)
    (h : ∀ m, Q m false → Q (memWrite m a 4 w.toNat) false) : EngKeeps (OnMem Q) (engWrite a w) := by
  refine engKeeps_bind _ _ _ (engKeeps_busAnswer Q a) fun _ => ?_
  intro e he
  refine ⟨fun b e' hb => ?_, fun r e' hr => by cases hr⟩
  cases hb
  unfold OnMem at he ⊢
  cases hd : e.dry with
  | true => rw [hd] at he; simpa [hd] using he
  | false => rw [hd] at he; simpa [hd] using h e.mem he

theorem engKeeps_loadSample (Q : Memory → Bool → Prop) (s : State) (i : Nat) : EngKeeps (OnMem Q) (loadSample s i) :=
  engKeeps_bind _ _ _ (engKeeps_engRead Q _) fun _ => engKeeps_pure _ _

theorem engKeeps_loadTwiddle (Q : Memory → Bool → Prop) (s : State) (k : Nat) : EngKeeps (OnMem Q) (loadTwiddle s k) :=
  engKeeps_bind _ _ _ (engKeeps_engRead Q _) fun _ => engKeeps_pure _ _

theorem engKeeps_loadPair (Q : Memory → Bool → Prop) (s : State) (p : Nat) : EngKeeps (OnMem Q) (loadPair s p) :=
  engKeeps_bind _ _ _ (engKeeps_engRead Q _) fun _ => engKeeps_pure _ _

theorem engKeeps_storeSample (Q : Memory → Bool → Prop) (s : State) (i : Nat) (p : Sample)
    (h : ∀ m v, Q m false → Q (memWrite m (sampleAddr s i) 4 v) false) : EngKeeps (OnMem Q) (storeSample s i p) :=
  engKeeps_engWrite Q _ _ fun m hm => h m _ hm

/-- `Q` survives a 4-byte write to each sample i < `n` of the buffer. -/
def SurvivesSamples (s : State) (n : Nat) (Q : Memory → Bool → Prop) : Prop :=
  ∀ i < n, ∀ m v, Q m false → Q (memWrite m (sampleAddr s i) 4 v) false

theorem engKeeps_loadQuad (Q : Memory → Bool → Prop) (s : State) (i0 n2 : Nat) :
    EngKeeps (OnMem Q) (loadQuad s i0 n2) :=
  engKeeps_bind _ _ _ (engKeeps_loadSample Q s _) fun _ =>
    engKeeps_bind _ _ _ (engKeeps_loadSample Q s _) fun _ =>
      engKeeps_bind _ _ _ (engKeeps_loadSample Q s _) fun _ =>
        engKeeps_bind _ _ _ (engKeeps_loadSample Q s _) fun _ => engKeeps_pure _ _

theorem engKeeps_rotateStep (Q : Memory → Bool → Prop) (s : State) (k : Kind) (dir : Dir) (t : Nat) (q : Quad) :
    EngKeeps (OnMem Q) (rotateStep s k dir t q) := by
  have h : EngKeeps (OnMem Q) (rotateFrom s dir t q) :=
    engKeeps_bind _ _ _ (engKeeps_loadTwiddle Q s _) fun _ =>
      engKeeps_bind _ _ _ (engKeeps_loadTwiddle Q s _) fun _ =>
        engKeeps_bind _ _ _ (engKeeps_loadTwiddle Q s _) fun _ => engKeeps_pure _ _
  cases k with
  | s1 => exact h
  | s2 => exact h
  | s3 => exact engKeeps_pure _ _

theorem engKeeps_storeQuad (Q : Memory → Bool → Prop) (s : State) (n i0 n2 : Nat) (q : Quad) (hi : i0 + 3 * n2 < n)
    (h : SurvivesSamples s n Q) : EngKeeps (OnMem Q) (storeQuad s i0 n2 q) :=
  engKeeps_bind _ _ _ (engKeeps_storeSample Q s _ _ (h i0 (by omega))) fun _ =>
    engKeeps_bind _ _ _ (engKeeps_storeSample Q s _ _ (h (i0 + n2) (by omega))) fun _ =>
      engKeeps_bind _ _ _ (engKeeps_storeSample Q s _ _ (h (i0 + 2 * n2) (by omega))) fun _ =>
        engKeeps_storeSample Q s _ _ (h (i0 + 3 * n2) (by omega))

/-- A butterfly writes its four samples and nothing else (41_stage_one.md R141, R142). -/
theorem engKeeps_butterfly (Q : Memory → Bool → Prop) (s : State) (n : Nat) (k : Kind) (dir : Dir) (i0 n2 t : Nat)
    (hi : i0 + 3 * n2 < n) (h : SurvivesSamples s n Q) : EngKeeps (OnMem Q) (butterfly s k dir i0 n2 t) :=
  engKeeps_bind _ _ _ (engKeeps_loadQuad Q s i0 n2) fun _ =>
    engKeeps_bind _ _ _ (engKeeps_rotateStep Q s k dir t _) fun _ => engKeeps_storeQuad Q s n i0 n2 _ hi h

/-- `CheckTable` writes nothing (44_permute_dispatch.md R201). -/
theorem engKeeps_checkTable (Q : Memory → Bool → Prop) (s : State) : EngKeeps (OnMem Q) (checkTable s) := by
  refine engKeeps_forUp _ _ _ fun p _ => engKeeps_bind _ _ _ (engKeeps_loadPair Q s p) fun ij => ?_
  split
  · exact engKeeps_throw _ _
  · exact engKeeps_pure _ _

/-! Running without a bus error. -/

/-- `x` run from memory `m`, writes kept, no bus error coming: it goes on with `a` and leaves memory `m'`, and still no
bus error is coming. -/
def EngRuns {α : Type} (x : EngM α) (m : Memory) (a : α) (m' : Memory) : Prop :=
  ∀ e : Eng, e.mem = m → e.dry = false → (∀ b ∈ e.bus, b = false) →
    ∃ e' : Eng, x e = .ok a e' ∧ e'.mem = m' ∧ e'.dry = false ∧ ∀ b ∈ e'.bus, b = false

theorem engRuns_pure {α : Type} (a : α) (m : Memory) : EngRuns (pure a) m a m :=
  fun e hm hd hb => ⟨e, rfl, hm, hd, hb⟩

theorem engRuns_bind {α β : Type} (x : EngM α) (f : α → EngM β) (m m1 m2 : Memory) (a : α) (b : β)
    (hx : EngRuns x m a m1) (hf : EngRuns (f a) m1 b m2) : EngRuns (x >>= f) m b m2 := by
  intro e hm hd hb
  obtain ⟨e1, he1, hm1, hd1, hb1⟩ := hx e hm hd hb
  obtain ⟨e2, he2, rest⟩ := hf e1 hm1 hd1 hb1
  exact ⟨e2, by rw [engBind_apply, he1]; exact he2, rest⟩

theorem engRuns_busAnswer (a : Nat) (m : Memory) : EngRuns (busAnswer a) m () m := by
  intro e hm hd hb
  cases hbus : e.bus with
  | nil => exact ⟨e, by simp [busAnswer, hbus], hm, hd, hb⟩
  | cons c rest =>
    have hc : c = false := hb c (by simp [hbus])
    subst hc
    exact ⟨{ e with bus := rest }, by simp [busAnswer, hbus], hm, hd, fun b h => hb b (by simp [hbus, h])⟩

theorem engRuns_engRead (a : Nat) (m : Memory) : EngRuns (engRead a) m (wordAt m a) m := by
  refine engRuns_bind _ _ _ _ _ () _ (engRuns_busAnswer a m) ?_
  intro e hm hd hb
  exact ⟨e, by subst hm; rfl, hm, hd, hb⟩

theorem engRuns_engWrite (a : Nat) (w : Word) (m : Memory) : EngRuns (engWrite a w) m () (memWrite m a 4 w.toNat) := by
  refine engRuns_bind _ _ _ _ _ () _ (engRuns_busAnswer a m) ?_
  intro e hm hd hb
  subst hm
  exact ⟨{ e with mem := memWrite e.mem a 4 w.toNat }, by
    show EStateM.Result.ok () (if e.dry then e else _) = _
    simp [hd], rfl, hd, hb⟩

theorem engRuns_loadSample (s : State) (i : Nat) (m : Memory) : EngRuns (loadSample s i) m (sampleAt s m i) m :=
  engRuns_bind _ _ _ _ _ _ _ (engRuns_engRead _ m) (engRuns_pure _ m)

theorem engRuns_loadTwiddle (s : State) (k : Nat) (m : Memory) : EngRuns (loadTwiddle s k) m (twiddleAt s m k) m :=
  engRuns_bind _ _ _ _ _ _ _ (engRuns_engRead _ m) (engRuns_pure _ m)

theorem engRuns_loadPair (s : State) (p : Nat) (m : Memory) : EngRuns (loadPair s p) m (pairAt s m p) m :=
  engRuns_bind _ _ _ _ _ _ _ (engRuns_engRead _ m) (engRuns_pure _ m)

/-- Memory after a sample is stored. -/
def storeSampleMem (s : State) (m : Memory) (i : Nat) (p : Sample) : Memory :=
  memWrite m (sampleAddr s i) 4 (wordOfSample s.params.packOrder p).toNat

/-- Memory after the four samples of a butterfly are stored. -/
def storeQuadMem (s : State) (m : Memory) (i0 n2 : Nat) (q : Quad) : Memory :=
  storeSampleMem s (storeSampleMem s (storeSampleMem s (storeSampleMem s m i0 q.q0) (i0 + n2) q.q1) (i0 + 2 * n2) q.q2)
    (i0 + 3 * n2) q.q3

theorem engRuns_storeSample (s : State) (i : Nat) (p : Sample) (m : Memory) :
    EngRuns (storeSample s i p) m () (storeSampleMem s m i p) := engRuns_engWrite _ _ m

/-- The four samples of a butterfly as memory holds them. -/
def quadAt (s : State) (m : Memory) (i0 n2 : Nat) : Quad :=
  { q0 := sampleAt s m i0, q1 := sampleAt s m (i0 + n2), q2 := sampleAt s m (i0 + 2 * n2), q3 := sampleAt s m (i0 + 3 * n2) }

theorem engRuns_loadQuad (s : State) (i0 n2 : Nat) (m : Memory) : EngRuns (loadQuad s i0 n2) m (quadAt s m i0 n2) m :=
  engRuns_bind _ _ _ _ _ _ _ (engRuns_loadSample s _ m) <|
    engRuns_bind _ _ _ _ _ _ _ (engRuns_loadSample s _ m) <|
      engRuns_bind _ _ _ _ _ _ _ (engRuns_loadSample s _ m) <|
        engRuns_bind _ _ _ _ _ _ _ (engRuns_loadSample s _ m) (engRuns_pure _ m)

theorem engRuns_rotateFrom (s : State) (dir : Dir) (t : Nat) (q : Quad) (m : Memory) :
    EngRuns (rotateFrom s dir t q) m
      (rotateQuad s.params.rnd dir q (twiddleAt s m (2 * t)) (twiddleAt s m t) (twiddleAt s m (3 * t))) m :=
  engRuns_bind _ _ _ _ _ _ _ (engRuns_loadTwiddle s _ m) <|
    engRuns_bind _ _ _ _ _ _ _ (engRuns_loadTwiddle s _ m) <|
      engRuns_bind _ _ _ _ _ _ _ (engRuns_loadTwiddle s _ m) (engRuns_pure _ m)

theorem engRuns_storeQuad (s : State) (i0 n2 : Nat) (q : Quad) (m : Memory) :
    EngRuns (storeQuad s i0 n2 q) m () (storeQuadMem s m i0 n2 q) :=
  engRuns_bind _ _ _ _ _ () _ (engRuns_storeSample s _ _ m) <|
    engRuns_bind _ _ _ _ _ () _ (engRuns_storeSample s _ _ _) <|
      engRuns_bind _ _ _ _ _ () _ (engRuns_storeSample s _ _ _) (engRuns_storeSample s _ _ _)

/-- One butterfly without a bus error: its four outputs replace its four inputs (41_stage_one.md R141). -/
theorem engRuns_butterfly (s : State) (k : Kind) (dir : Dir) (i0 n2 t : Nat) (m : Memory) :
    EngRuns (butterfly s k dir i0 n2 t) m ()
      (storeQuadMem s m i0 n2 (butterflyOut s.params.rnd k dir (twiddleAt s m) t (quadAt s m i0 n2))) := by
  refine engRuns_bind _ _ _ _ _ _ _ (engRuns_loadQuad s i0 n2 m) ?_
  refine engRuns_bind _ _ _ _ _ _ _ ?_ (engRuns_storeQuad s i0 n2 _ m)
  cases k with
  | s1 => exact engRuns_rotateFrom s dir t _ m
  | s2 => exact engRuns_rotateFrom s dir t _ m
  | s3 => exact engRuns_pure _ m

/-- A loop without a bus error, by an invariant of the memory before turn k. -/
theorem engRuns_forUp (I : Nat → Memory → Prop) (n : Nat) (body : Nat → EngM Unit)
    (h : ∀ k < n, ∀ m, I k m → ∃ m', EngRuns (body k) m () m' ∧ I (k + 1) m') (m : Memory) (h0 : I 0 m) :
    ∃ m', EngRuns (forUp n body) m () m' ∧ I n m' := by
  induction n with
  | zero => exact ⟨m, engRuns_pure () m, h0⟩
  | succ k ih =>
    obtain ⟨m1, hr, h1⟩ := ih fun j hj => h j (by omega)
    obtain ⟨m2, hr2, h2⟩ := h k (by omega) m1 h1
    exact ⟨m2, engRuns_bind _ _ _ _ _ () _ hr hr2, h2⟩

end Sys2Proof.Machine
end

