-- ==== Sys2Proof/Laws/State.lean ====
section
/-! SUPPORT. One lemma per field per update of `State` and `Status`, so that no proof unfolds a record update. -/

namespace Sys2Proof.Machine

/-! The flag updates (60_exceptions.md R232, R237, R238, R242, R244). -/

@[simp] theorem Status.accepted_busy (st : Status) : (st.accepted).busy = true := rfl
@[simp] theorem Status.accepted_done (st : Status) : (st.accepted).done = false := rfl
@[simp] theorem Status.accepted_err (st : Status) : (st.accepted).err = st.err := rfl
@[simp] theorem Status.accepted_ovr (st : Status) : (st.accepted).ovr = st.ovr := rfl
@[simp] theorem Status.accepted_errcode (st : Status) : (st.accepted).errcode = st.errcode := rfl

@[simp] theorem Status.completed_busy (st : Status) : (st.completed).busy = false := rfl
@[simp] theorem Status.completed_done (st : Status) : (st.completed).done = true := rfl
@[simp] theorem Status.completed_err (st : Status) : (st.completed).err = st.err := rfl
@[simp] theorem Status.completed_ovr (st : Status) : (st.completed).ovr = st.ovr := rfl
@[simp] theorem Status.completed_errcode (st : Status) : (st.completed).errcode = st.errcode := rfl

@[simp] theorem Status.failed_busy (st : Status) (c : Byte) : (st.failed c).busy = false := rfl
@[simp] theorem Status.failed_done (st : Status) (c : Byte) : (st.failed c).done = st.done := rfl
@[simp] theorem Status.failed_err (st : Status) (c : Byte) : (st.failed c).err = true := rfl
@[simp] theorem Status.failed_ovr (st : Status) (c : Byte) : (st.failed c).ovr = st.ovr := rfl
@[simp] theorem Status.failed_errcode (st : Status) (c : Byte) : (st.failed c).errcode = c := rfl

@[simp] theorem Status.overrun_busy (st : Status) : (st.overrun).busy = st.busy := rfl
@[simp] theorem Status.overrun_done (st : Status) : (st.overrun).done = st.done := rfl
@[simp] theorem Status.overrun_err (st : Status) : (st.overrun).err = st.err := rfl
@[simp] theorem Status.overrun_ovr (st : Status) : (st.overrun).ovr = true := rfl
@[simp] theorem Status.overrun_errcode (st : Status) : (st.overrun).errcode = st.errcode := rfl

@[simp] theorem Status.writeOneToClear_busy (st : Status) (v : Word) : (st.writeOneToClear v).busy = st.busy := rfl
@[simp] theorem Status.writeOneToClear_done (st : Status) (v : Word) : (st.writeOneToClear v).done = (st.done && !v.getLsbD 1) := rfl
@[simp] theorem Status.writeOneToClear_err (st : Status) (v : Word) : (st.writeOneToClear v).err = (st.err && !v.getLsbD 2) := rfl
@[simp] theorem Status.writeOneToClear_ovr (st : Status) (v : Word) : (st.writeOneToClear v).ovr = (st.ovr && !v.getLsbD 3) := rfl
@[simp] theorem Status.writeOneToClear_errcode (st : Status) (v : Word) : (st.writeOneToClear v).errcode = (if v.getLsbD 2 then 0#8 else st.errcode) := rfl

/-! Acceptance, a dropped write, completion, an error, the acknowledge (60_exceptions.md R232 to R244). -/

@[simp] theorem accept_params (w : Word) (s : State) : (accept w s).params = s.params := rfl
@[simp] theorem accept_ctrl (w : Word) (s : State) : (accept w s).ctrl = s.ctrl := rfl
@[simp] theorem accept_status (w : Word) (s : State) : (accept w s).status = s.status.accepted := rfl
@[simp] theorem accept_cfg (w : Word) (s : State) : (accept w s).cfg = s.cfg := rfl
@[simp] theorem accept_bufAddr (w : Word) (s : State) : (accept w s).bufAddr = s.bufAddr := rfl
@[simp] theorem accept_twAddr (w : Word) (s : State) : (accept w s).twAddr = s.twAddr := rfl
@[simp] theorem accept_twStride (w : Word) (s : State) : (accept w s).twStride = s.twStride := rfl
@[simp] theorem accept_twLen (w : Word) (s : State) : (accept w s).twLen = s.twLen := rfl
@[simp] theorem accept_brAddr (w : Word) (s : State) : (accept w s).brAddr = s.brAddr := rfl
@[simp] theorem accept_brCount (w : Word) (s : State) : (accept w s).brCount = s.brCount := rfl
@[simp] theorem accept_errInfo (w : Word) (s : State) : (accept w s).errInfo = s.errInfo := rfl
@[simp] theorem accept_opa (w : Word) (s : State) : (accept w s).opa = s.opa := rfl
@[simp] theorem accept_opb (w : Word) (s : State) : (accept w s).opb = s.opb := rfl
@[simp] theorem accept_res (w : Word) (s : State) : (accept w s).res = s.res := rfl
@[simp] theorem accept_latch (w : Word) (s : State) : (accept w s).latch = some w := rfl
@[simp] theorem accept_mem (w : Word) (s : State) : (accept w s).mem = s.mem := rfl
@[simp] theorem accept_resetIn (w : Word) (s : State) : (accept w s).resetIn = s.resetIn := rfl
@[simp] theorem accept_inbox (w : Word) (s : State) : (accept w s).inbox = s.inbox := rfl
@[simp] theorem accept_busErrs (w : Word) (s : State) : (accept w s).busErrs = s.busErrs := rfl
@[simp] theorem accept_races (w : Word) (s : State) : (accept w s).races = s.races := rfl
@[simp] theorem accept_freeCount (w : Word) (s : State) : (accept w s).freeCount = s.freeCount := rfl
@[simp] theorem accept_readData (w : Word) (s : State) : (accept w s).readData = s.readData := rfl

@[simp] theorem dropWrite_params (s : State) : (dropWrite s).params = s.params := rfl
@[simp] theorem dropWrite_ctrl (s : State) : (dropWrite s).ctrl = s.ctrl := rfl
@[simp] theorem dropWrite_status (s : State) : (dropWrite s).status = s.status.overrun := rfl
@[simp] theorem dropWrite_cfg (s : State) : (dropWrite s).cfg = s.cfg := rfl
@[simp] theorem dropWrite_bufAddr (s : State) : (dropWrite s).bufAddr = s.bufAddr := rfl
@[simp] theorem dropWrite_twAddr (s : State) : (dropWrite s).twAddr = s.twAddr := rfl
@[simp] theorem dropWrite_twStride (s : State) : (dropWrite s).twStride = s.twStride := rfl
@[simp] theorem dropWrite_twLen (s : State) : (dropWrite s).twLen = s.twLen := rfl
@[simp] theorem dropWrite_brAddr (s : State) : (dropWrite s).brAddr = s.brAddr := rfl
@[simp] theorem dropWrite_brCount (s : State) : (dropWrite s).brCount = s.brCount := rfl
@[simp] theorem dropWrite_errInfo (s : State) : (dropWrite s).errInfo = s.errInfo := rfl
@[simp] theorem dropWrite_opa (s : State) : (dropWrite s).opa = s.opa := rfl
@[simp] theorem dropWrite_opb (s : State) : (dropWrite s).opb = s.opb := rfl
@[simp] theorem dropWrite_res (s : State) : (dropWrite s).res = s.res := rfl
@[simp] theorem dropWrite_latch (s : State) : (dropWrite s).latch = s.latch := rfl
@[simp] theorem dropWrite_mem (s : State) : (dropWrite s).mem = s.mem := rfl
@[simp] theorem dropWrite_resetIn (s : State) : (dropWrite s).resetIn = s.resetIn := rfl
@[simp] theorem dropWrite_inbox (s : State) : (dropWrite s).inbox = s.inbox := rfl
@[simp] theorem dropWrite_busErrs (s : State) : (dropWrite s).busErrs = s.busErrs := rfl
@[simp] theorem dropWrite_races (s : State) : (dropWrite s).races = s.races := rfl
@[simp] theorem dropWrite_freeCount (s : State) : (dropWrite s).freeCount = s.freeCount := rfl
@[simp] theorem dropWrite_readData (s : State) : (dropWrite s).readData = s.readData := rfl

@[simp] theorem complete_params (s : State) : (complete s).params = s.params := rfl
@[simp] theorem complete_ctrl (s : State) : (complete s).ctrl = s.ctrl := rfl
@[simp] theorem complete_status (s : State) : (complete s).status = s.status.completed := rfl
@[simp] theorem complete_cfg (s : State) : (complete s).cfg = s.cfg := rfl
@[simp] theorem complete_bufAddr (s : State) : (complete s).bufAddr = s.bufAddr := rfl
@[simp] theorem complete_twAddr (s : State) : (complete s).twAddr = s.twAddr := rfl
@[simp] theorem complete_twStride (s : State) : (complete s).twStride = s.twStride := rfl
@[simp] theorem complete_twLen (s : State) : (complete s).twLen = s.twLen := rfl
@[simp] theorem complete_brAddr (s : State) : (complete s).brAddr = s.brAddr := rfl
@[simp] theorem complete_brCount (s : State) : (complete s).brCount = s.brCount := rfl
@[simp] theorem complete_errInfo (s : State) : (complete s).errInfo = s.errInfo := rfl
@[simp] theorem complete_opa (s : State) : (complete s).opa = s.opa := rfl
@[simp] theorem complete_opb (s : State) : (complete s).opb = s.opb := rfl
@[simp] theorem complete_res (s : State) : (complete s).res = s.res := rfl
@[simp] theorem complete_latch (s : State) : (complete s).latch = none := rfl
@[simp] theorem complete_mem (s : State) : (complete s).mem = s.mem := rfl
@[simp] theorem complete_resetIn (s : State) : (complete s).resetIn = s.resetIn := rfl
@[simp] theorem complete_inbox (s : State) : (complete s).inbox = s.inbox := rfl
@[simp] theorem complete_busErrs (s : State) : (complete s).busErrs = s.busErrs := rfl
@[simp] theorem complete_races (s : State) : (complete s).races = s.races := rfl
@[simp] theorem complete_freeCount (s : State) : (complete s).freeCount = s.freeCount := rfl
@[simp] theorem complete_readData (s : State) : (complete s).readData = s.readData := rfl

@[simp] theorem raiseError_params (x : CmdError) (s : State) : (raiseError x s).params = s.params := rfl
@[simp] theorem raiseError_ctrl (x : CmdError) (s : State) : (raiseError x s).ctrl = s.ctrl := rfl
@[simp] theorem raiseError_status (x : CmdError) (s : State) : (raiseError x s).status = s.status.failed (errorCode x) := rfl
@[simp] theorem raiseError_cfg (x : CmdError) (s : State) : (raiseError x s).cfg = s.cfg := rfl
@[simp] theorem raiseError_bufAddr (x : CmdError) (s : State) : (raiseError x s).bufAddr = s.bufAddr := rfl
@[simp] theorem raiseError_twAddr (x : CmdError) (s : State) : (raiseError x s).twAddr = s.twAddr := rfl
@[simp] theorem raiseError_twStride (x : CmdError) (s : State) : (raiseError x s).twStride = s.twStride := rfl
@[simp] theorem raiseError_twLen (x : CmdError) (s : State) : (raiseError x s).twLen = s.twLen := rfl
@[simp] theorem raiseError_brAddr (x : CmdError) (s : State) : (raiseError x s).brAddr = s.brAddr := rfl
@[simp] theorem raiseError_brCount (x : CmdError) (s : State) : (raiseError x s).brCount = s.brCount := rfl
@[simp] theorem raiseError_errInfo (x : CmdError) (s : State) : (raiseError x s).errInfo = errorInfo x := rfl
@[simp] theorem raiseError_opa (x : CmdError) (s : State) : (raiseError x s).opa = s.opa := rfl
@[simp] theorem raiseError_opb (x : CmdError) (s : State) : (raiseError x s).opb = s.opb := rfl
@[simp] theorem raiseError_res (x : CmdError) (s : State) : (raiseError x s).res = s.res := rfl
@[simp] theorem raiseError_latch (x : CmdError) (s : State) : (raiseError x s).latch = none := rfl
@[simp] theorem raiseError_mem (x : CmdError) (s : State) : (raiseError x s).mem = s.mem := rfl
@[simp] theorem raiseError_resetIn (x : CmdError) (s : State) : (raiseError x s).resetIn = s.resetIn := rfl
@[simp] theorem raiseError_inbox (x : CmdError) (s : State) : (raiseError x s).inbox = s.inbox := rfl
@[simp] theorem raiseError_busErrs (x : CmdError) (s : State) : (raiseError x s).busErrs = s.busErrs := rfl
@[simp] theorem raiseError_races (x : CmdError) (s : State) : (raiseError x s).races = s.races := rfl
@[simp] theorem raiseError_freeCount (x : CmdError) (s : State) : (raiseError x s).freeCount = s.freeCount := rfl
@[simp] theorem raiseError_readData (x : CmdError) (s : State) : (raiseError x s).readData = s.readData := rfl

@[simp] theorem acknowledge_params (v : Word) (s : State) : (acknowledge v s).params = s.params := rfl
@[simp] theorem acknowledge_ctrl (v : Word) (s : State) : (acknowledge v s).ctrl = s.ctrl := rfl
@[simp] theorem acknowledge_status (v : Word) (s : State) : (acknowledge v s).status = s.status.writeOneToClear v := rfl
@[simp] theorem acknowledge_cfg (v : Word) (s : State) : (acknowledge v s).cfg = s.cfg := rfl
@[simp] theorem acknowledge_bufAddr (v : Word) (s : State) : (acknowledge v s).bufAddr = s.bufAddr := rfl
@[simp] theorem acknowledge_twAddr (v : Word) (s : State) : (acknowledge v s).twAddr = s.twAddr := rfl
@[simp] theorem acknowledge_twStride (v : Word) (s : State) : (acknowledge v s).twStride = s.twStride := rfl
@[simp] theorem acknowledge_twLen (v : Word) (s : State) : (acknowledge v s).twLen = s.twLen := rfl
@[simp] theorem acknowledge_brAddr (v : Word) (s : State) : (acknowledge v s).brAddr = s.brAddr := rfl
@[simp] theorem acknowledge_brCount (v : Word) (s : State) : (acknowledge v s).brCount = s.brCount := rfl
@[simp] theorem acknowledge_errInfo (v : Word) (s : State) : (acknowledge v s).errInfo = (if v.getLsbD 2 then 0#32 else s.errInfo) := rfl
@[simp] theorem acknowledge_opa (v : Word) (s : State) : (acknowledge v s).opa = s.opa := rfl
@[simp] theorem acknowledge_opb (v : Word) (s : State) : (acknowledge v s).opb = s.opb := rfl
@[simp] theorem acknowledge_res (v : Word) (s : State) : (acknowledge v s).res = s.res := rfl
@[simp] theorem acknowledge_latch (v : Word) (s : State) : (acknowledge v s).latch = s.latch := rfl
@[simp] theorem acknowledge_mem (v : Word) (s : State) : (acknowledge v s).mem = s.mem := rfl
@[simp] theorem acknowledge_resetIn (v : Word) (s : State) : (acknowledge v s).resetIn = s.resetIn := rfl
@[simp] theorem acknowledge_inbox (v : Word) (s : State) : (acknowledge v s).inbox = s.inbox := rfl
@[simp] theorem acknowledge_busErrs (v : Word) (s : State) : (acknowledge v s).busErrs = s.busErrs := rfl
@[simp] theorem acknowledge_races (v : Word) (s : State) : (acknowledge v s).races = s.races := rfl
@[simp] theorem acknowledge_freeCount (v : Word) (s : State) : (acknowledge v s).freeCount = s.freeCount := rfl
@[simp] theorem acknowledge_readData (v : Word) (s : State) : (acknowledge v s).readData = s.readData := rfl

/-! Reset values (10_state.md R44). -/

@[simp] theorem clearRegisters_params (s : State) : (clearRegisters s).params = s.params := rfl
@[simp] theorem clearRegisters_ctrl (s : State) : (clearRegisters s).ctrl = { ieDone := false, ieErr := false } := rfl
@[simp] theorem clearRegisters_status (s : State) : (clearRegisters s).status = { busy := false, done := false, err := false, ovr := false, errcode := 0#8 } := rfl
@[simp] theorem clearRegisters_cfg (s : State) : (clearRegisters s).cfg = { log4n := 0#4, dir := .fwd, ord := .bitReversed } := rfl
@[simp] theorem clearRegisters_bufAddr (s : State) : (clearRegisters s).bufAddr = 0#32 := rfl
@[simp] theorem clearRegisters_twAddr (s : State) : (clearRegisters s).twAddr = 0#32 := rfl
@[simp] theorem clearRegisters_twStride (s : State) : (clearRegisters s).twStride = 0#16 := rfl
@[simp] theorem clearRegisters_twLen (s : State) : (clearRegisters s).twLen = 0#32 := rfl
@[simp] theorem clearRegisters_brAddr (s : State) : (clearRegisters s).brAddr = 0#32 := rfl
@[simp] theorem clearRegisters_brCount (s : State) : (clearRegisters s).brCount = 0#16 := rfl
@[simp] theorem clearRegisters_errInfo (s : State) : (clearRegisters s).errInfo = 0#32 := rfl
@[simp] theorem clearRegisters_opa (s : State) : (clearRegisters s).opa = 0#32 := rfl
@[simp] theorem clearRegisters_opb (s : State) : (clearRegisters s).opb = 0#32 := rfl
@[simp] theorem clearRegisters_res (s : State) : (clearRegisters s).res = 0#32 := rfl
@[simp] theorem clearRegisters_latch (s : State) : (clearRegisters s).latch = none := rfl
@[simp] theorem clearRegisters_mem (s : State) : (clearRegisters s).mem = s.mem := rfl
@[simp] theorem clearRegisters_resetIn (s : State) : (clearRegisters s).resetIn = s.resetIn := rfl
@[simp] theorem clearRegisters_inbox (s : State) : (clearRegisters s).inbox = s.inbox := rfl
@[simp] theorem clearRegisters_busErrs (s : State) : (clearRegisters s).busErrs = s.busErrs := rfl
@[simp] theorem clearRegisters_races (s : State) : (clearRegisters s).races = [] := rfl
@[simp] theorem clearRegisters_freeCount (s : State) : (clearRegisters s).freeCount = s.freeCount := rfl
@[simp] theorem clearRegisters_readData (s : State) : (clearRegisters s).readData = s.readData := rfl

/-! A buffer that becomes unspecified touches data memory and the draw counter only (20_memory.md R77, R82). -/

@[simp] theorem freeBuffer_params (i : Instr) (s : State) : (freeBuffer i s).params = s.params :=
  by unfold freeBuffer; split <;> rfl
@[simp] theorem freeBuffer_ctrl (i : Instr) (s : State) : (freeBuffer i s).ctrl = s.ctrl :=
  by unfold freeBuffer; split <;> rfl
@[simp] theorem freeBuffer_status (i : Instr) (s : State) : (freeBuffer i s).status = s.status :=
  by unfold freeBuffer; split <;> rfl
@[simp] theorem freeBuffer_cfg (i : Instr) (s : State) : (freeBuffer i s).cfg = s.cfg :=
  by unfold freeBuffer; split <;> rfl
@[simp] theorem freeBuffer_bufAddr (i : Instr) (s : State) : (freeBuffer i s).bufAddr = s.bufAddr :=
  by unfold freeBuffer; split <;> rfl
@[simp] theorem freeBuffer_twAddr (i : Instr) (s : State) : (freeBuffer i s).twAddr = s.twAddr :=
  by unfold freeBuffer; split <;> rfl
@[simp] theorem freeBuffer_twStride (i : Instr) (s : State) : (freeBuffer i s).twStride = s.twStride :=
  by unfold freeBuffer; split <;> rfl
@[simp] theorem freeBuffer_twLen (i : Instr) (s : State) : (freeBuffer i s).twLen = s.twLen :=
  by unfold freeBuffer; split <;> rfl
@[simp] theorem freeBuffer_brAddr (i : Instr) (s : State) : (freeBuffer i s).brAddr = s.brAddr :=
  by unfold freeBuffer; split <;> rfl
@[simp] theorem freeBuffer_brCount (i : Instr) (s : State) : (freeBuffer i s).brCount = s.brCount :=
  by unfold freeBuffer; split <;> rfl
@[simp] theorem freeBuffer_errInfo (i : Instr) (s : State) : (freeBuffer i s).errInfo = s.errInfo :=
  by unfold freeBuffer; split <;> rfl
@[simp] theorem freeBuffer_opa (i : Instr) (s : State) : (freeBuffer i s).opa = s.opa :=
  by unfold freeBuffer; split <;> rfl
@[simp] theorem freeBuffer_opb (i : Instr) (s : State) : (freeBuffer i s).opb = s.opb :=
  by unfold freeBuffer; split <;> rfl
@[simp] theorem freeBuffer_res (i : Instr) (s : State) : (freeBuffer i s).res = s.res :=
  by unfold freeBuffer; split <;> rfl
@[simp] theorem freeBuffer_latch (i : Instr) (s : State) : (freeBuffer i s).latch = s.latch :=
  by unfold freeBuffer; split <;> rfl
@[simp] theorem freeBuffer_resetIn (i : Instr) (s : State) : (freeBuffer i s).resetIn = s.resetIn :=
  by unfold freeBuffer; split <;> rfl
@[simp] theorem freeBuffer_inbox (i : Instr) (s : State) : (freeBuffer i s).inbox = s.inbox :=
  by unfold freeBuffer; split <;> rfl
@[simp] theorem freeBuffer_busErrs (i : Instr) (s : State) : (freeBuffer i s).busErrs = s.busErrs :=
  by unfold freeBuffer; split <;> rfl
@[simp] theorem freeBuffer_races (i : Instr) (s : State) : (freeBuffer i s).races = s.races :=
  by unfold freeBuffer; split <;> rfl
@[simp] theorem freeBuffer_readData (i : Instr) (s : State) : (freeBuffer i s).readData = s.readData :=
  by unfold freeBuffer; split <;> rfl

/-! Settling races touches data memory, the draw counter and the race list only (20_memory.md R77). -/

@[simp] theorem settleRaces_params (i : Instr) (s : State) : (settleRaces i s).params = s.params :=
  by unfold settleRaces; split <;> simp_all
@[simp] theorem settleRaces_ctrl (i : Instr) (s : State) : (settleRaces i s).ctrl = s.ctrl :=
  by unfold settleRaces; split <;> simp_all
@[simp] theorem settleRaces_status (i : Instr) (s : State) : (settleRaces i s).status = s.status :=
  by unfold settleRaces; split <;> simp_all
@[simp] theorem settleRaces_cfg (i : Instr) (s : State) : (settleRaces i s).cfg = s.cfg :=
  by unfold settleRaces; split <;> simp_all
@[simp] theorem settleRaces_bufAddr (i : Instr) (s : State) : (settleRaces i s).bufAddr = s.bufAddr :=
  by unfold settleRaces; split <;> simp_all
@[simp] theorem settleRaces_twAddr (i : Instr) (s : State) : (settleRaces i s).twAddr = s.twAddr :=
  by unfold settleRaces; split <;> simp_all
@[simp] theorem settleRaces_twStride (i : Instr) (s : State) : (settleRaces i s).twStride = s.twStride :=
  by unfold settleRaces; split <;> simp_all
@[simp] theorem settleRaces_twLen (i : Instr) (s : State) : (settleRaces i s).twLen = s.twLen :=
  by unfold settleRaces; split <;> simp_all
@[simp] theorem settleRaces_brAddr (i : Instr) (s : State) : (settleRaces i s).brAddr = s.brAddr :=
  by unfold settleRaces; split <;> simp_all
@[simp] theorem settleRaces_brCount (i : Instr) (s : State) : (settleRaces i s).brCount = s.brCount :=
  by unfold settleRaces; split <;> simp_all
@[simp] theorem settleRaces_errInfo (i : Instr) (s : State) : (settleRaces i s).errInfo = s.errInfo :=
  by unfold settleRaces; split <;> simp_all
@[simp] theorem settleRaces_opa (i : Instr) (s : State) : (settleRaces i s).opa = s.opa :=
  by unfold settleRaces; split <;> simp_all
@[simp] theorem settleRaces_opb (i : Instr) (s : State) : (settleRaces i s).opb = s.opb :=
  by unfold settleRaces; split <;> simp_all
@[simp] theorem settleRaces_res (i : Instr) (s : State) : (settleRaces i s).res = s.res :=
  by unfold settleRaces; split <;> simp_all
@[simp] theorem settleRaces_latch (i : Instr) (s : State) : (settleRaces i s).latch = s.latch :=
  by unfold settleRaces; split <;> simp_all
@[simp] theorem settleRaces_resetIn (i : Instr) (s : State) : (settleRaces i s).resetIn = s.resetIn :=
  by unfold settleRaces; split <;> simp_all
@[simp] theorem settleRaces_inbox (i : Instr) (s : State) : (settleRaces i s).inbox = s.inbox :=
  by unfold settleRaces; split <;> simp_all
@[simp] theorem settleRaces_busErrs (i : Instr) (s : State) : (settleRaces i s).busErrs = s.busErrs :=
  by unfold settleRaces; split <;> simp_all
@[simp] theorem settleRaces_races (i : Instr) (s : State) : (settleRaces i s).races = [] :=
  by unfold settleRaces; split <;> simp_all
@[simp] theorem settleRaces_readData (i : Instr) (s : State) : (settleRaces i s).readData = s.readData :=
  by unfold settleRaces; split <;> simp_all

end Sys2Proof.Machine
end

