-- ==== Sys2Proof/Laws/Command.lean ====
section
/-! SUPPORT. What the register check, the freed buffers and the running of a command can do, said once. -/

namespace Sys2Proof.Machine

/-! The checks on regions (60_exceptions.md R233) in plain arithmetic. -/

theorem misaligned_iff (r : Region) : r.misaligned = true ↔ r.base.toNat % 4 ≠ 0 := by
  unfold Region.misaligned
  simp only [bne_iff_ne, ne_eq, ← BitVec.toNat_inj, BitVec.extractLsb'_toNat, Nat.shiftRight_zero]
  simp

theorem outOfRange_iff (r : Region) (w : Nat) : r.outOfRange w = true ↔ 2 ^ w < r.base.toNat + r.size := by
  simp [Region.outOfRange]

theorem meets_iff (r : Region) (a n : Nat) :
    r.meets a n = true ↔ 0 < n ∧ 0 < r.size ∧ a < r.base.toNat + r.size ∧ r.base.toNat < a + n := by
  simp [Region.meets, and_assoc]

/-- The region checks pass when every region is aligned and in range. -/
theorem checkRegions_none (s : State) (rs : List Region) (h : ∀ r ∈ rs, RegionLegal s r) :
    checkRegions rs s.params.addrW = none := by
  have h1 : rs.find? (fun r => r.misaligned) = none := by
    rw [List.find?_eq_none]
    intro r hr
    rw [misaligned_iff]
    exact fun hne => hne (h r hr).1
  have h2 : rs.find? (fun r => r.outOfRange s.params.addrW) = none := by
    rw [List.find?_eq_none]
    intro r hr
    rw [outOfRange_iff]
    exact Nat.not_lt.2 (h r hr).2
  unfold checkRegions
  rw [h1, h2]

/-- `Validate` passes when the length, the stride and every region are legal. -/
theorem validate_none (i : Instr) (s : State) (hl : LengthLegal s) (hs : readsTwiddles i = true → StrideLegal s)
    (hr : ∀ r ∈ regions i s, RegionLegal s r) : validate i s = none := by
  unfold validate
  split
  · rfl
  · rw [if_neg (by have := hl.1; have := hl.2; omega), if_neg (by
      rintro ⟨h1, h2⟩
      obtain ⟨h3, h4⟩ := hs h1
      rcases h2 with h2 | h2
      · exact h3 h2
      · exact h2 h4)]
    exact checkRegions_none s _ hr

theorem tables_apart (buf t : Region) (h : RegionsApart buf t) : t.meets buf.base.toNat buf.size = false := by
  rw [Bool.eq_false_iff, ne_eq, meets_iff]
  rintro ⟨h1, h2, h3, h4⟩
  rcases h with h | h | h | h <;> omega

/-- The buffer overlaps no table when it is apart from each (20_memory.md R82). -/
theorem bufferOverlaps_false (i : Instr) (s : State) (buf : Region) (ts : List Region) (hr : regions i s = buf :: ts)
    (h : ∀ t ∈ ts, RegionsApart buf t) : bufferOverlaps i s = false := by
  unfold bufferOverlaps
  rw [hr]
  have : ts.any (fun t => t.meets buf.base.toNat buf.size) = false := by
    rw [List.any_eq_false]
    intro t ht
    rw [tables_apart buf t (h t ht)]
    simp
  simp [this]

/-! Freed buffers and settled races. -/

/-- The buffer of a command: the first of its regions (60_exceptions.md R234). -/
theorem regions_shape (i : Instr) (s : State) : regions i s = [] ∨ ∃ ts, regions i s = bufRegion s :: ts := by
  cases i <;> simp [regions]
  cases s.cfg.ord <;> simp

/-- When the buffer overlaps (20_memory.md R82): some table region of the command is not apart from it. -/
theorem bufferOverlaps_iff (i : Instr) (s : State) :
    bufferOverlaps i s = true ↔ ∃ r ∈ (regions i s).tail, ¬ RegionsApart (bufRegion s) r := by
  have hm : ∀ r : Region, r.meets (bufRegion s).base.toNat (bufRegion s).size = true ↔ ¬ RegionsApart (bufRegion s) r := by
    intro r
    rw [meets_iff]
    unfold RegionsApart
    omega
  unfold bufferOverlaps
  rcases regions_shape i s with hr | ⟨ts, hr⟩
  · rw [hr]
    simp
  · rw [hr]
    simp only [List.any_eq_true, List.tail_cons, hm]

/-- Freeing a buffer leaves every byte outside it. -/
theorem memByte_freeBuffer_outside (i : Instr) (s : State) (a : Nat)
    (h : OutsideRegion (bufRegion s) a) : memByte (freeBuffer i s).mem a = memByte s.mem a := by
  unfold freeBuffer
  rcases regions_shape i s with hr | ⟨ts, hr⟩
  · rw [hr]
  · rw [hr]
    exact memByte_memFree_outside _ _ _ _ _ (by unfold OutsideRegion at h; omega)

theorem memWf_freeBuffer (i : Instr) (s : State) (h : memWf s.mem = true) : memWf (freeBuffer i s).mem = true := by
  unfold freeBuffer
  split
  · exact h
  · exact memWf_memFree _ _ _ _ h

theorem below_freeBuffer (i : Instr) (s : State) (h : ∀ c ∈ s.mem, c.1 < 2 ^ s.params.addrW) :
    ∀ c ∈ (freeBuffer i s).mem, c.1 < 2 ^ s.params.addrW := by
  unfold freeBuffer
  split
  · exact h
  · exact below_memFree _ _ _ _ _ (by omega) h

/-- Settling without a race changes nothing. -/
theorem settleRaces_none (i : Instr) (s : State) (h : s.races = []) : settleRaces i s = s := by
  unfold settleRaces
  rw [h]

/-- Settling races leaves every byte outside the buffer and the raced words. -/
theorem memByte_settleRaces_outside (i : Instr) (s : State) (a : Nat) (hb : OutsideRegion (bufRegion s) a)
    (hw : ∀ w ∈ s.races, a < w ∨ w + 4 ≤ a) : memByte (settleRaces i s).mem a = memByte s.mem a := by
  unfold settleRaces
  split
  · rfl
  · rename_i x rest hr
    rw [hr] at hw
    show memByte (memFreeWords _ _ _) a = _
    rw [memByte_memFreeWords_outside _ _ _ _ hw, memByte_freeBuffer_outside i s a hb]

theorem memWf_settleRaces (i : Instr) (s : State) (h : memWf s.mem = true) : memWf (settleRaces i s).mem = true := by
  unfold settleRaces
  split
  · exact h
  · exact memWf_memFreeWords _ _ _ (memWf_freeBuffer i s h)

/-- Every error but `BUS_ERR` settles races and is raised; `BUS_ERR` frees the buffer before (60_exceptions.md R236). -/
theorem endWithError_cases (i : Instr) (x : CmdError) (s : State) :
    endWithError i x s = raiseError x (settleRaces i s) ∨
      (∃ a, x = .busErr a) ∧ endWithError i x s = raiseError x (settleRaces i (freeBuffer i s)) := by
  cases x with
  | busErr a => exact .inr ⟨⟨a, rfl⟩, rfl⟩
  | illegalCmd _ => exact .inl rfl
  | badN _ => exact .inl rfl
  | badAlign _ => exact .inl rfl
  | badStride _ => exact .inl rfl
  | badRange _ => exact .inl rfl
  | badTable _ => exact .inl rfl

/-! Running a command. -/

/-- All a command with regions can do (60_exceptions.md R233, R237, R238): fail its register check, fail in its body, or
succeed. Each is a next state. -/
theorem runCommand_cases (i : Instr) (body : EngM Unit) (s : State) :
    (∃ x, validate i s = some x ∧ runCommand i body s = .next (endWithError i x s)) ∨
      (validate i s = none ∧ ∃ x e, body (engStart i s) = .error x e ∧
        runCommand i body s = .next (endWithError i x { s with busErrs := e.bus })) ∨
      (validate i s = none ∧ ∃ e, body (engStart i s) = .ok () e ∧
        runCommand i body s = .next (endWithSuccess i e s)) := by
  unfold runCommand
  cases hv : validate i s with
  | some x => exact .inl ⟨x, rfl, rfl⟩
  | none =>
    cases hb : body (engStart i s) with
    | ok u e => exact .inr (.inr ⟨rfl, e, rfl, rfl⟩)
    | error x e => exact .inr (.inl ⟨rfl, x, e, rfl, rfl⟩)

/-- A command whose checks pass and whose body runs without a bus error completes with the body's memory. -/
theorem runCommand_of_runs (i : Instr) (body : EngM Unit) (s : State) (m' : Memory) (hv : validate i s = none)
    (ho : bufferOverlaps i s = false) (hq : Undisturbed s) (hr : EngRuns body s.mem () m') :
    ∃ bus, runCommand i body s =
      .next { s with mem := m', busErrs := bus, status := s.status.completed, latch := none } := by
  obtain ⟨e, he, hm, -, -⟩ := hr (engStart i s) rfl ho hq.1
  refine ⟨e.bus, ?_⟩
  unfold runCommand
  rw [hv]
  simp only [he, endWithSuccess, ho]
  rw [settleRaces_none]
  · subst hm; rfl
  · exact hq.2

/-- A command whose check fails, when no race is to be settled, raises that error and changes nothing else. -/
theorem runCommand_of_invalid (i : Instr) (body : EngM Unit) (s : State) (x : CmdError) (hv : validate i s = some x)
    (hx : ∀ a, x ≠ .busErr a) (hr : s.races = []) : runCommand i body s = .next (raiseError x s) := by
  unfold runCommand
  rw [hv]
  rcases endWithError_cases i x s with h | ⟨⟨a, h⟩, -⟩
  · simp only [h, settleRaces_none i s hr]
  · exact absurd h (hx a)

/-- `exec` answers a next state for every command and state (60_exceptions.md R230). -/
theorem exec_next (i : Instr) (s : State) : ∃ t, exec i s = .next t := by
  have h : ∀ (j : Instr) (body : EngM Unit), ∃ t, runCommand j body s = .next t := fun j body => by
    rcases runCommand_cases j body s with ⟨_, _, h⟩ | ⟨_, _, _, _, h⟩ | ⟨_, _, _, h⟩ <;> exact ⟨_, h⟩
  cases i with
  | nop => exact ⟨_, rfl⟩
  | stg1f => exact h _ _
  | stg1i => exact h _ _
  | stg2f => exact h _ _
  | stg2i => exact h _ _
  | stg3f => exact h _ _
  | stg3i => exact h _ _
  | bitrev => exact h _ _
  | xform => exact h _ _
  | rotf => exact ⟨_, rfl⟩
  | roti => exact ⟨_, rfl⟩
  | presc => exact ⟨_, rfl⟩

end Sys2Proof.Machine
end

