-- ==== Sys2Proof/Laws/Datapath.lean ====
section
/-! SUPPORT. Ranges of the arithmetic, and that a 16-bit lane, a sample word and a sample are the same data. -/

namespace Sys2Proof.Machine

open Sys2Proof.Config (PackOrder Rnd)

theorem isLane_sat16 (v : Int) : Lane (sat16 v) := by
  unfold Lane sat16
  omega

/-- `sat16` is the identity on lanes. -/
theorem sat16_of_isLane (v : Int) (h : Lane v) : sat16 v = v := by
  unfold Lane at h
  unfold sat16
  omega

theorem isLane_s16 (p : Half) : Lane (s16 p) := by
  unfold Lane s16
  have h1 := BitVec.toInt_lt (x := p)
  have h2 := BitVec.le_toInt p
  norm_num at h1 h2
  omega

theorem u16_s16 (p : Half) : u16 (s16 p) = p := by
  unfold u16 s16
  exact BitVec.ofInt_toInt

theorem s16_u16 (v : Int) (h : Lane v) : s16 (u16 v) = v := by
  unfold Lane at h
  unfold u16 s16
  rw [BitVec.toInt_ofInt, Int.bmod_def]
  norm_num
  omega

theorem getLsbD_cat (a b : Half) (i : Nat) :
    (cat a b).getLsbD i = if i < 16 then b.getLsbD i else a.getLsbD (i - 16) := by
  unfold cat
  exact (BitVec.getLsbD_append (x := a) (y := b)).trans (by cases h : decide (i < 16) <;> simp_all)

theorem loHalf_cat (a b : Half) : loHalf (cat a b) = b := by
  apply BitVec.eq_of_getLsbD_eq
  intro i hi
  unfold loHalf
  rw [BitVec.getLsbD_extractLsb', getLsbD_cat]
  simp [hi]

theorem hiHalf_cat (a b : Half) : hiHalf (cat a b) = a := by
  apply BitVec.eq_of_getLsbD_eq
  intro i hi
  unfold hiHalf
  rw [BitVec.getLsbD_extractLsb', getLsbD_cat]
  simp [hi]

theorem cat_halves (w : Word) : cat (hiHalf w) (loHalf w) = w := by
  apply BitVec.eq_of_getLsbD_eq
  intro i hi
  rw [getLsbD_cat]
  unfold loHalf hiHalf
  by_cases h : i < 16
  · simp only [h, if_true, BitVec.getLsbD_extractLsb']
    simp
  · have h2 : i - 16 < 16 := by omega
    simp only [h, if_false, BitVec.getLsbD_extractLsb', h2]
    simp [show 16 + (i - 16) = i by omega]

/-- What is stored as a sample is loaded as it (20_memory.md R64). -/
theorem sampleOfWord_wordOfSample (pack : PackOrder) (p : Sample) (h : LaneSample p) :
    sampleOfWord pack (wordOfSample pack p) = p := by
  cases pack <;> simp [sampleOfWord, wordOfSample, loHalf_cat, hiHalf_cat, s16_u16 _ h.1, s16_u16 _ h.2]

/-- Every word is the word of the sample it holds (20_memory.md R64). -/
theorem wordOfSample_sampleOfWord (pack : PackOrder) (w : Word) : wordOfSample pack (sampleOfWord pack w) = w := by
  cases pack <;> simp [sampleOfWord, wordOfSample, u16_s16, cat_halves]

theorem isSample_sampleOfWord (pack : PackOrder) (w : Word) : LaneSample (sampleOfWord pack w) := by
  cases pack <;> exact ⟨isLane_s16 _, isLane_s16 _⟩

/-- Rotated samples are in range: both lanes are the output of `sat16` (40_datapath.md R110). -/
theorem isSample_rot (rnd : Rnd) (dir : Dir) (p : Sample) (t : Twiddle) : LaneSample (rot rnd dir p t) := by
  cases dir <;> exact ⟨isLane_sat16 _, isLane_sat16 _⟩

/-- The floor of a division by a power of two, in plain inequalities (40_datapath.md R111). -/
theorem asr_bounds (v : Int) (k : Nat) : asr v k * 2 ^ k ≤ v ∧ v < asr v k * 2 ^ k + 2 ^ k := by
  have hp : (0 : Int) < 2 ^ k := by positivity
  have h1 := Int.emod_add_mul_ediv v (2 ^ k)
  have h2 := Int.emod_nonneg v hp.ne'
  have h3 := Int.emod_lt_of_pos v hp
  unfold asr
  constructor <;> linarith [mul_comm ((2 : Int) ^ k) (v / 2 ^ k)]

theorem isLane_pre (v : Int) (h : Lane v) : -8192 ≤ pre v ∧ pre v ≤ 8191 := by
  unfold Lane at h
  unfold pre asr
  norm_num
  omega

end Sys2Proof.Machine
end

