-- ==== Sys2Proof/Laws/PerInstr.lean ====
section
/-! SUPPORT. Facts about every command as syntax, one lemma per constructor of `Instr`. -/

namespace Sys2Proof.Laws.WordFields

/-- A command's word has no reserved bit, no bit of `OPC[3:1]` (30_encoding.md R90, R92), and the opcode table's row of
that word decodes to the command. -/
def Statement (i : Instr) : Prop :=
  i.wellFormed = true ∧ (encode i).extractLsb' 8 24 = 0#24 ∧ (encode i).extractLsb' 1 3 = 0#3 ∧
    decodeTableWord 32 (encode i).toNat = some i

theorem nop : Statement .nop := by unfold Statement; decide
theorem stg1f : Statement .stg1f := by unfold Statement; decide
theorem stg1i : Statement .stg1i := by unfold Statement; decide
theorem stg2f : Statement .stg2f := by unfold Statement; decide
theorem stg2i : Statement .stg2i := by unfold Statement; decide
theorem stg3f : Statement .stg3f := by unfold Statement; decide
theorem stg3i : Statement .stg3i := by unfold Statement; decide
theorem bitrev : Statement .bitrev := by unfold Statement; decide
theorem xform : Statement .xform := by unfold Statement; decide
theorem rotf : Statement .rotf := by unfold Statement; decide
theorem roti : Statement .roti := by unfold Statement; decide
theorem presc : Statement .presc := by unfold Statement; decide

end Sys2Proof.Laws.WordFields
end

