-- ==== Sys2Proof/Laws/Step.lean ====
section
/-! SUPPORT. What a step is, by whose turn it is. -/

namespace Sys2Proof.Machine

/-- With no input left the engine moves (log entry 5). -/
theorem step_nil (s : State) (h : s.inbox = []) : step s = engineTurn s := by
  unfold step turn
  rw [h]

/-- With an input at the head, that input is taken. -/
theorem step_cons (s : State) (e : Event) (rest : List Event) (h : s.inbox = e :: rest) :
    step s = inputTurn e s { s with inbox := rest } := by
  unfold step turn
  rw [h]

/-- All the engine's turn can do (60_exceptions.md R233): nothing, a command, or `ILLEGAL_CMD`. -/
theorem engineTurn_cases (s : State) :
    (s.latch = none ∧ engineTurn s = .next s) ∨
      (∃ w i, s.latch = some w ∧ decode w = .ok i ∧ engineTurn s = exec i s) ∨
      (∃ w r, s.latch = some w ∧ decode w = .error r ∧ engineTurn s = .next (raiseError (.illegalCmd w) s)) := by
  unfold engineTurn
  cases hl : s.latch with
  | none => exact .inl ⟨rfl, rfl⟩
  | some w =>
    cases hd : decode w with
    | ok i => exact .inr (.inl ⟨w, i, rfl, hd, by simp only [hd]⟩)
    | error r => exact .inr (.inr ⟨w, r, rfl, hd, by simp only [hd]⟩)

/-- The engine's turn always gives a next state. -/
theorem engineTurn_next (s : State) : ∃ t, engineTurn s = .next t := by
  rcases engineTurn_cases s with ⟨-, h⟩ | ⟨w, i, -, -, h⟩ | ⟨w, r, -, -, h⟩
  · exact ⟨_, h⟩
  · obtain ⟨t, ht⟩ := exec_next i s
    exact ⟨t, by rw [h, ht]⟩
  · exact ⟨_, h⟩

/-- A 32-bit access at `REG_BASE` + offset reaches the register of that offset (10_state.md R22). -/
theorem decodeAccess_regAddr (p : Config.Params) (r : Reg) : decodeAccess p (regAddr p r) .b32 = .reg r := by
  unfold decodeAccess regAddr
  have h : regOffset r < 64 := by cases r <;> decide
  rw [if_neg (by omega), Nat.add_sub_cancel_left]
  cases r <;> rfl

/-- An access inside the window that is not 32 bits wide, or not at a multiple of 4, is undefined (10_state.md R23). -/
theorem decodeAccess_undefined (p : Config.Params) (off : Nat) (size : AccessSize) (h : off < 64)
    (hu : size ≠ .b32 ∨ off % 4 ≠ 0) : decodeAccess p (p.regBase + off) size = .undefinedAccess := by
  unfold decodeAccess
  rw [if_neg (by omega)]
  cases size with
  | b8 => rfl
  | b16 => rfl
  | b32 =>
    have ho : off % 4 ≠ 0 := hu.resolve_left (by simp)
    have hn : regAtOffset off = none := by
      unfold regAtOffset
      rw [List.find?_eq_none]
      intro r _ he
      have he' : regOffset r = off := by simpa using he
      cases r <;> simp [regOffset] at he' <;> omega
    simp [hn]

/-- Asserting the reset input, or releasing it, resets the block (70_reset_and_hazards.md R260). -/
theorem setResetLine_driven (b : Bool) (s : State) (h : b = true ∨ s.resetIn = true) :
    setResetLine b s = { applyReset s with resetIn := b } := by
  unfold setResetLine
  rw [if_pos (by rcases h with h | h <;> simp [h])]

/-- Driving the released reset input to its released level changes nothing (log entry 12). -/
theorem setResetLine_released (s : State) (h : s.resetIn = false) : setResetLine false s = s := by
  unfold setResetLine
  rw [if_neg (by simp [h])]

end Sys2Proof.Machine
end

