-- ==== Sys2Proof/Tests/Slice0.lean ====
section
/-! SUPPORT. The model's own tests. Expected values are those of spec/95_test_vectors.md (named in each comment) or of
the rule named; the witnesses at the end meet the hypotheses of each statement. -/

namespace Sys2Proof.Tests

-- One thread is enough for these small evaluations, and keeps the file's memory small.
set_option Elab.async false

open Sys2Proof.Machine Sys2Proof.Config

/-! Helpers. -/

/-- Memory with some words from an address on. -/
def wordsMem (a : Nat) (ws : List Nat) : Memory := ws.zipIdx.foldr (fun w m => memWrite m (a + 4 * w.2) 4 w.1) []

/-- A small machine: L = 2, buffer at 0, twiddle table at 64, swap table at 128, `pairs` pairs. -/
def small (rnd : Rnd) (pairs : Nat) (m : Memory) : State :=
  { State.resetOf { defaultParams with rnd := rnd } with
    cfg := { log4n := 2#4, dir := .fwd, ord := .natural }
    twAddr := 64#32, twStride := 1#16, twLen := 16#32, brAddr := 128#32, brCount := BitVec.ofNat 16 pairs, mem := m }

/-- The next state of an outcome; reset where there is none. -/
def after (o : Host.Outcome State Fault Refusal) : State :=
  match o with
  | .next t => t
  | .fault _ => State.reset
  | .refused _ => State.reset

def isNext (o : Host.Outcome State Fault Refusal) : Bool :=
  match o with
  | .next _ => true
  | .fault _ => false
  | .refused _ => false

theorem eq_next_after (o : Host.Outcome State Fault Refusal) (h : isNext o = true) : o = .next (after o) := by
  cases o with
  | next t => rfl
  | fault f => cases h
  | refused r => cases h

/-- One step on a placed command. -/
def ran (i : Instr) (s : State) : State := after (step (s.withFetchWord 32 (encode i).toNat))

/-- The words of some samples. -/
def bufWords (s : State) (ks : List Nat) : List Word := ks.map fun k => wordAt s.mem (sampleAddr s k)

/-- `STATUS` and `ERRINFO` after a command. -/
def ending (s : State) : Word × Word := (statusWord s.status, s.errInfo)

/-- Input G and the table V-TW16 of 95_test_vectors.md section 2. -/
def gWords : List Nat :=
  [0x0BB8E0C0, 0x0A28E4A8, 0x0898E890, 0x0708EC78, 0x0578F060, 0x03E8F448, 0x0258F830, 0x00C8FC18,
   0xFF380000, 0xFDA803E8, 0xFC1807D0, 0xFA880BB8, 0xF8F80FA0, 0xF7681388, 0xF5D81770, 0xF4481B58]

def tw16Words : List Nat :=
  [0x00007FFF, 0x30FB7641, 0x5A825A82, 0x764130FB, 0x7FFF0000, 0x7641CF05, 0x5A82A57E, 0x30FB89BF,
   0x00008001, 0xCF0589BF, 0xA57EA57E, 0x89BFCF05, 0x80010000, 0x89BF30FB, 0xA57E5A82, 0xCF057641]

def br16Words : List Nat := [0x00080001, 0x00040002, 0x000C0003, 0x000A0005, 0x000E0007, 0x000D000B]

/-! WellFormed: each check refuses an ill-formed term. -/

theorem test_params_log4nMax_low : { defaultParams with log4nMax := 1 }.legal = false := by decide
theorem test_params_log4nMax_high : { defaultParams with log4nMax := 9 }.legal = false := by decide
theorem test_params_addrW_low : { defaultParams with addrW := 15 }.legal = false := by decide
theorem test_params_addrW_high : { defaultParams with addrW := 33 }.legal = false := by decide
theorem test_params_default_legal : defaultParams.legal = true := by decide
theorem test_form_poll : (HostForm.poll .status 1#32 2#32).wellFormed defaultParams = false := by decide
theorem test_form_expect : (HostForm.expect .status 1#32 2#32).wellFormed defaultParams = false := by decide
theorem test_form_st32 : (HostForm.st32 0xFFFFFFFD 0#32).wellFormed defaultParams = false := by decide
theorem test_form_st16 : (HostForm.st16 0xFFFFFFFF 0#16).wellFormed defaultParams = false := by decide
theorem test_form_ld32 : (HostForm.ld32 0xFFFFFFFD).wellFormed defaultParams = false := by decide
theorem test_form_expect32 : (HostForm.expect32 0xFFFFFFFD 0#32).wellFormed defaultParams = false := by decide
theorem test_form_cfg : (HostForm.cfg 16 .fwd .natural).wellFormed defaultParams = false := by decide

/-! Decode: the words of 30_encoding.md R91, bit by bit (bits [31:8] zero, CLASS, 000, D), and one word for each way to
be illegal (95_test_vectors.md V-E1 to V-E4). -/

theorem test_decode_nop : decode 0b00000000_0000_000_0#32 = .ok .nop := by decide
theorem test_decode_stg1f : decode 0b00000000_0001_000_0#32 = .ok .stg1f := by decide
theorem test_decode_stg1i : decode 0b00000000_0001_000_1#32 = .ok .stg1i := by decide
theorem test_decode_stg2f : decode 0b00000000_0010_000_0#32 = .ok .stg2f := by decide
theorem test_decode_stg2i : decode 0b00000000_0010_000_1#32 = .ok .stg2i := by decide
theorem test_decode_stg3f : decode 0b00000000_0011_000_0#32 = .ok .stg3f := by decide
theorem test_decode_stg3i : decode 0b00000000_0011_000_1#32 = .ok .stg3i := by decide
theorem test_decode_bitrev : decode 0b00000000_0100_000_0#32 = .ok .bitrev := by decide
theorem test_decode_xform : decode 0b00000000_0101_000_0#32 = .ok .xform := by decide
theorem test_decode_rotf : decode 0b00000000_0110_000_0#32 = .ok .rotf := by decide
theorem test_decode_roti : decode 0b00000000_0110_000_1#32 = .ok .roti := by decide
theorem test_decode_presc : decode 0b00000000_0111_000_0#32 = .ok .presc := by decide
theorem test_reject_middle : decode 0x62#32 = .error .opcMiddleBits := by decide
theorem test_reject_reserved : decode 0x110#32 = .error .reservedBits := by decide
theorem test_reject_direction : decode 0x41#32 = .error .directionInUndirectedClass := by decide
theorem test_reject_class : decode 0x80#32 = .error .unusedClass := by decide
theorem test_table_word : decodeTableWord 32 0x50 = some .xform := by decide

/-! Commands. -/

/-- V-D16. -/
theorem test_nop : ending (ran .nop State.reset) = (0x00000002#32, 0#32) := by decide

/-- V-D7. -/
theorem test_rotf : (ran .rotf { small .halfUp 0 [] with opa := 0xE0004000#32, opb := 0x5A825A82#32 }).res = 0xDE0F0B50#32 := by
  decide

/-- V-D12: the clamp of 40_datapath.md R119. -/
theorem test_rotf_clamp :
    (ran .rotf { small .trunc 0 [] with opa := 0x80008000#32, opb := 0x80008000#32 }).res = 0x00007FFF#32 := by
  decide

/-- V-D8, `HALF_UP`. -/
theorem test_roti : (ran .roti { small .halfUp 0 [] with opa := 0xE0004000#32, opb := 0x5A825A82#32 }).res = 0x0B5021F1#32 := by
  decide

/-- V-D8, `TRUNC`. -/
theorem test_roti_trunc :
    (ran .roti { small .trunc 0 [] with opa := 0xE0004000#32, opb := 0x5A825A82#32 }).res = 0x0B5021F0#32 := by
  decide

/-- V-D15. -/
theorem test_presc : (ran .presc { State.reset with opa := 0x80007FFF#32 }).res = 0xE0001FFF#32 := by decide

/-- V-S1, butterfly k = 1, `HALF_UP`. -/
theorem test_stg1f : bufWords (ran .stg1f (small .halfUp 0 (wordsMem 0 (gWords ++ tw16Words)))) [1, 5, 9, 13] =
    [0x0064FE0C#32, 0x03DEFE58#32, 0x05F3FFED#32, 0x0428FBBE#32] := by decide +kernel

/-- V-S1, butterfly k = 1, inverse, `TRUNC`: (-500, 100), (-990, -425), (-1064, -1091), (-1523, -19). -/
theorem test_stg1i : bufWords (ran .stg1i (small .trunc 0 (wordsMem 0 (gWords ++ tw16Words)))) [1, 5, 9, 13] =
    [0x0064FE0C#32, 0xFE57FC22#32, 0xFBBDFBD8#32, 0xFFEDFA0D#32] := by decide +kernel

/-- V-S2: samples 1, 5, 9, 13 at N = 64 with entries 4, 8, 12 of V-TW64 (the words of entries 1, 2, 3 of V-TW16). The
other samples and entries are not written and take no part. -/
def stageTwoMachine : State :=
  { small .halfUp 0 (memWrite (memWrite (memWrite (memWrite (memWrite (memWrite (memWrite []
      4 4 0xD8F04E20) 20 4 0x1F40D120) 36 4 0x3A980BB8) 52 4 0xDCD8E4A8)
      (256 + 16) 4 0x30FB7641) (256 + 32) 4 0x5A825A82) (256 + 48) 4 0x764130FB) with
    cfg := { log4n := 3#4, dir := .fwd, ord := .natural }, twAddr := 256#32, twLen := 64#32 }

/-- V-S2, forward: (1000, 1000), (8485, -6364), (5939, -7872), (-6929, -2870). -/
theorem test_stg2f : bufWords (ran .stg2f stageTwoMachine) [1, 5, 9, 13] =
    [0x03E803E8#32, 0xE7242125#32, 0xE1401733#32, 0xF4CAE4EF#32] := by decide +kernel

/-- V-S2, inverse, `HALF_UP`: (1000, 1000), (6364, 8485), (2870, -6929), (7872, 5939). -/
theorem test_stg2i : bufWords (ran .stg2i stageTwoMachine) [1, 5, 9, 13] =
    [0x03E803E8#32, 0x212518DC#32, 0xE4EF0B36#32, 0x17331EC0#32] := by decide +kernel

/-- V-S2-N16: `STG2F` with a zero stride for N = 16 still reports `BAD_STRIDE`. -/
theorem test_stg2f_stride : ending (ran .stg2f { small .halfUp 0 [] with twStride := 0#16 }) = (0x00000404#32, 0#32) := by
  decide

/-- V-S3. -/
theorem test_stg3f : bufWords (ran .stg3f (small .halfUp 0 (wordsMem 0 [0x00C803E8, 0xFE70012C, 0x0258FE0C, 0x032002BC])))
    [0, 1, 2, 3] = [0x025802EE#32, 0x00C8FF06#32, 0x00000096#32, 0xFE700546#32] := by decide +kernel

/-- V-S3: the inverse exchanges outputs 2 and 3. -/
theorem test_stg3i : bufWords (ran .stg3i (small .halfUp 0 (wordsMem 0 [0x00C803E8, 0xFE70012C, 0x0258FE0C, 0x032002BC])))
    [2, 3] = [0xFE700546#32, 0x00000096#32] := by decide +kernel

/-- V-BR5: pairs (0, 1), (1, 2) move samples A, B, C to B, C, A. -/
theorem test_bitrev : bufWords (ran .bitrev (small .halfUp 2 (wordsMem 0 [10, 11, 12] ++ wordsMem 128 [0x00010000, 0x00020001])))
    [0, 1, 2] = [11#32, 12#32, 10#32] := by decide +kernel

/-- V-BR7: the smallest failing pair is reported. -/
theorem test_bitrev_badTable :
    ending (ran .bitrev (small .halfUp 3 (wordsMem 128 [0x00080001, 0x00100002, 0x00280003]))) = (0x00000604#32, 1#32) := by
  decide +kernel

/-- V-X1, bins 1 and 4, `HALF_UP`. -/
theorem test_xform : bufWords (ran .xform (small .halfUp 6 (wordsMem 0 (gWords ++ tw16Words ++ br16Words)))) [1, 4] =
    [0x0A9A01FA#32, 0x02BCFED4#32] := by decide +kernel

/-- V-E18: `BAD_ALIGN` of the buffer wins over `BAD_RANGE` of the table. -/
theorem test_xform_priority :
    ending (ran .xform { small .halfUp 0 [] with bufAddr := 0x1002#32, twAddr := 0xFFFFFFF0#32 }) =
      (0x00000304#32, 0x00001002#32) := by decide

/-! The rest of the machine. -/

/-- V-E1: an illegal word, and V-F1: the next command is dropped. -/
theorem test_illegal : ending (after (step (State.reset.withFetchWord 32 0x62))) = (0x00000104#32, 0x62#32) := by decide

theorem test_dropped_after_error :
    ending (writeReg .cmd 0#32 (after (step (State.reset.withFetchWord 32 0x62)))) = (0x0000010C#32, 0x62#32) := by decide

/-- V-F4. -/
theorem test_clear_err :
    ending (writeReg .status 4#32 (writeReg .cmd 0#32 (after (step (State.reset.withFetchWord 32 0x62))))) =
      (0x00000008#32, 0#32) := by decide

/-- V-F14. -/
theorem test_id : readReg .id State.reset = 0x46340150#32 := by decide

/-- V-F16. -/
theorem test_stride_mask : readReg .twStride (writeReg .twStride 0xFFFF0004#32 State.reset) = 4#32 := by decide

/-- V-E14. -/
theorem test_range : ending (ran .stg3f { small .halfUp 0 [] with bufAddr := 0xFFFFFFC4#32 }) =
    (0x00000504#32, 0xFFFFFFC4#32) := by decide

/-- 60_exceptions.md R236: the third access of `STG3F` is the read of sample 2. -/
theorem test_bus_error : ending (ran .stg3f { small .halfUp 0 [] with busErrs := [false, false, true] }) =
    (0x00000704#32, 8#32) := by decide +kernel

/-- V-F12: a soft reset abandons a command. -/
theorem test_soft_reset :
    let t := writeReg .ctrl 0x80000000#32 (accept 0x50#32 (small .halfUp 0 []))
    (t.latch, statusWord t.status, readReg .bufAddr t) = (none, 0#32, 0#32) := by decide +kernel

/-- Driving the released reset input to its released level changes nothing (log entry 12); asserting it resets. -/
theorem test_reset_line :
    (setResetLine false (accept 0x50#32 State.reset)).latch = some 0x50#32 ∧
    (setResetLine true (accept 0x50#32 State.reset)).latch = none := by decide

/-- 30_encoding.md R101: `run NOP` from reset, with no engine turn among the inputs. -/
theorem test_run_nop :
    let o := Host.Core.run Sys2Proof.core 3 ({ State.reset with inbox := programEvents defaultParams [.run .nop] } : State)
    isNext o = true ∧ ending (after o) = (0x00000002#32, 0#32) := by decide

/-! Witnesses: for every statement with hypotheses, a state and operands that meet them. -/

/-- A state whose next input is `e`. -/
def given (e : Event) : State := { State.reset with inbox := [e] }

/-- A running `XFORM`. -/
def running : State := accept 0x50#32 (small .halfUp 1 (wordsMem 128 [0x00010000]))

theorem witness_IllegalWord :
    (0x80#32 ∉ [0x00#32, 0x10#32, 0x11#32, 0x20#32, 0x21#32, 0x30#32, 0x31#32, 0x40#32, 0x50#32, 0x60#32, 0x61#32, 0x70#32]) ∧
    (given (.regWrite (regAddr defaultParams .cmd) .b32 0x80#32)).status = State.reset.status ∧
    State.reset.status.busy = false ∧ State.reset.status.err = false ∧ State.reset.resetIn = false ∧
    (accept 0x80#32 State.reset).inbox = [] ∧ (accept 0x80#32 State.reset).latch = some 0x80#32 ∧
    ({ accept 0x80#32 State.reset with inbox := [.engine] } : State).inbox = [.engine] := by decide

theorem witness_StepRuns :
    running.inbox = [] ∧ running.latch = some 0x50#32 ∧ decode 0x50#32 = .ok .xform ∧ Instr.xform.wellFormed = true ∧
    { running with inbox := [Event.engine] }.inbox = [.engine] := by decide

theorem witness_RegisterAccess :
    (given (.regRead (regAddr defaultParams .reserved) .b32)).inbox = [.regRead 0x3C .b32] ∧
    (given (.regWrite (regAddr defaultParams .id) .b32 1#32)).inbox = [.regWrite 0 .b32 1#32] ∧
    (63 < 64 ∧ 63 % 4 ≠ 0) ∧ (0 < 64 ∧ AccessSize.b16 ≠ .b32) ∧
    (given (.regRead (State.reset.params.regBase + 63) .b32)).inbox = [.regRead 63 .b32] := by decide

theorem witness_CmdWrite :
    (given (.regWrite (regAddr defaultParams .cmd) .b32 0#32)).resetIn = false ∧
    State.reset.status.busy = false ∧ State.reset.status.err = false ∧ running.status.busy = true ∧
    (after (step (State.reset.withFetchWord 32 0x62))).status.err = true := by decide

theorem witness_StatusWrite :
    (given (.regWrite (regAddr defaultParams .status) .b32 0xE#32)).inbox = [.regWrite 8 .b32 0xE#32] ∧
    State.reset.resetIn = false := by decide

theorem witness_InputWrites :
    Reg.cfg ∈ inputRegs ∧ Reg.opb ∈ inputRegs ∧ running.status.busy = true ∧ State.reset.status.busy = false ∧
    (3#32).getLsbD 31 = false ∧ (0x80000003#32).getLsbD 31 = true ∧ Reg.reserved ∈ [Reg.id, .errInfo, .res, .reserved] := by
  decide

/-- Also at the edge of a 16-bit address space. -/
theorem witness_ReservedBits :
    State.reset.bufAddr.toNat < 2 ^ State.reset.params.addrW ∧
    (let s : State := { State.resetOf { defaultParams with addrW := 16 } with bufAddr := 0xFFFF#32 }
     s.bufAddr.toNat < 2 ^ s.params.addrW ∧ s.twAddr.toNat < 2 ^ s.params.addrW ∧ s.brAddr.toNat < 2 ^ s.params.addrW) ∧
    Reg.cfg ≠ .cmd ∧ (0x21#32 &&& ~~~ reservedBits defaultParams .cfg = 0xFFFFFFE1#32 &&& ~~~ reservedBits defaultParams .cfg) ∧
    0x110#32 &&& 0xFFFFFF00#32 ≠ 0#32 := by decide

theorem witness_LegalParams :
    { defaultParams with log4nMax := 2, addrW := 16 }.legal = true ∧ { defaultParams with log4nMax := 8 }.legal = true := by
  decide

theorem witness_Reset :
    (given (.resetLine true)).inbox = [.resetLine true] ∧
    (let s : State := { given (.resetLine false) with resetIn := true }
     s.inbox = [.resetLine false] ∧ s.resetIn = true) ∧
    (given (.resetLine false)).inbox = [.resetLine false] ∧ (given (.resetLine false)).resetIn = false ∧
    (given (.regWrite (regAddr defaultParams .ctrl) .b32 0x80000000#32)).inbox = [.regWrite 4 .b32 0x80000000#32] ∧
    (0x80000000#32).getLsbD 31 = true ∧ runningCommand State.reset = none ∧ runningCommand running = some .xform := by
  decide

theorem witness_WriteDuringReset :
    let s : State := { given (.regWrite (regAddr defaultParams .opa) .b32 5#32) with resetIn := true }
    s.resetIn = true ∧ s.inbox = [.regWrite (regAddr s.params .opa) .b32 5#32] := by decide

theorem witness_Lanes : Lane (-32768) ∧ Lane 32767 ∧ LaneSample { x := -32768, y := 32767 } ∧
    LaneSample { x := -32768, y := -32768 } := by
  unfold LaneSample Lane
  decide

/-- The point where the halving clamp acts (40_datapath.md R114). -/
theorem witness_HalvingClamp : Lane 32767 ∧ Lane (-32768) ∧ (32767 : Int) - (-32768) = 65535 := by
  unfold Lane
  decide

/-- Both sums at which a rotation clamps (40_datapath.md R119). -/
theorem witness_RotationClamp :
    (-32768 : Int) * -32768 + -32768 * -32768 = 2147483648 ∧ (-32768 : Int) * -32768 + -32768 * -32767 = 2147450880 := by
  decide

theorem ready_calm (s : State) (hb : s.busErrs = []) (hr : s.races = []) : Undisturbed s :=
  ⟨by intro b h; simp [hb] at h, hr⟩

theorem witness_BufferReady : BufferReady running where
  len := by unfold LengthLegal; decide
  buf := by unfold RegionLegal RegionAligned RegionInRange; decide
  calm := ready_calm _ rfl rfl

theorem witness_TwiddleReady : TwiddleReady running where
  toBufferReady := witness_BufferReady
  stride := by unfold StrideLegal; decide
  tw := by unfold RegionLegal RegionAligned RegionInRange; decide
  apart := by unfold RegionsApart; decide

theorem witness_PermuteReady : PermuteReady running where
  toBufferReady := witness_BufferReady
  br := by unfold RegionLegal RegionAligned RegionInRange; decide
  apartBr := by unfold RegionsApart; decide
  table := by unfold TableLegal; decide +kernel

theorem witness_TransformReady : TransformReady running where
  toTwiddleReady := witness_TwiddleReady
  permute := fun _ => witness_PermuteReady

/-- A running `XFORM` with L = 3 and two disjoint swap pairs, in the direction and order given. -/
def running64 (dir : Dir) (ord : OutOrder) : State :=
  { running with
    cfg := { log4n := 3#4, dir := dir, ord := ord }
    twAddr := 256#32, twLen := 64#32, brAddr := 512#32, brCount := 2#16
    mem := wordsMem 512 [0x00020001, 0x003F0003] }

theorem witness_TwiddleReady64 (dir : Dir) (ord : OutOrder) : TwiddleReady (running64 dir ord) where
  len := by unfold LengthLegal; exact ⟨by show 2 ≤ 3; decide, by show 3 ≤ 5; decide⟩
  buf := ⟨by show (0#32).toNat % 4 = 0; decide, by unfold RegionInRange; show 0 + 4 * 4 ^ 3 ≤ 2 ^ 32; decide⟩
  calm := ready_calm _ rfl rfl
  stride := ⟨by show 1 ≠ 0; decide, by show 1 * 4 ^ 3 = 64; decide⟩
  tw := ⟨by show (256#32).toNat % 4 = 0; decide, by unfold RegionInRange; show 256 + 4 * 64 ≤ 2 ^ 32; decide⟩
  apart := by unfold RegionsApart; exact .inr (.inr (.inl (by show 0 + 4 * 4 ^ 3 ≤ 256; decide)))

theorem witness_PermuteReady64 (dir : Dir) (ord : OutOrder) : PermuteReady (running64 dir ord) where
  toBufferReady := (witness_TwiddleReady64 dir ord).toBufferReady
  br := ⟨by show (512#32).toNat % 4 = 0; decide, by unfold RegionInRange; show 512 + 4 * 2 ≤ 2 ^ 32; decide⟩
  apartBr := by unfold RegionsApart; exact .inr (.inr (.inl (by show 0 + 4 * 4 ^ 3 ≤ 512; decide)))
  table := by cases dir <;> cases ord <;> (unfold TableLegal; decide +kernel)

/-- Both directions and both orders, with a level of stage two. -/
theorem witness_TransformReady64 (dir : Dir) (ord : OutOrder) :
    TransformReady (running64 dir ord) ∧ 2 < (running64 dir ord).log4n :=
  ⟨{ toTwiddleReady := witness_TwiddleReady64 dir ord, permute := fun _ => witness_PermuteReady64 dir ord }, by
    show 2 < 3; decide⟩

/-- `BITREV` twice: the pairs (1, 2) and (3, 63) share no index. -/
theorem witness_DisjointPairs :
    let s := running64 .fwd .natural
    PermuteReady s ∧ s.pairCount = 2 ∧ ∀ p < s.pairCount, ∀ q < s.pairCount, p ≠ q →
      (pairAt s s.mem p).1 ≠ (pairAt s s.mem q).1 ∧ (pairAt s s.mem p).1 ≠ (pairAt s s.mem q).2 ∧
      (pairAt s s.mem p).2 ≠ (pairAt s s.mem q).1 ∧ (pairAt s s.mem p).2 ≠ (pairAt s s.mem q).2 :=
  ⟨witness_PermuteReady64 .fwd .natural, by decide, by decide +kernel⟩

theorem witness_CommandReady : CommandReady .stg2i running ∧ CommandReady .bitrev running ∧ CommandReady .xform running ∧
    CommandReady .nop running :=
  ⟨witness_TwiddleReady, witness_PermuteReady, witness_TransformReady, trivial⟩

theorem witness_ChecksPass : ChecksPass .xform running := by
  refine ⟨witness_BufferReady.len, fun _ => witness_TwiddleReady.stride, fun r hr => ?_⟩
  have hs : regions .xform running = [bufRegion running, twRegion running, brRegion running] := rfl
  rw [hs] at hr
  simp only [List.mem_cons, List.not_mem_nil, or_false] at hr
  rcases hr with rfl | rfl | rfl
  · exact witness_BufferReady.buf
  · exact witness_TwiddleReady.tw
  · exact witness_PermuteReady.br

theorem witness_ChecksPassBitrev : ChecksPass .bitrev running := by
  refine ⟨witness_BufferReady.len, ⟨fun h => absurd h (by decide), fun r hr => ?_⟩⟩
  have hs : regions .bitrev running = [bufRegion running, brRegion running] := rfl
  rw [hs] at hr
  simp only [List.mem_cons, List.not_mem_nil, or_false] at hr
  rcases hr with rfl | rfl
  · exact witness_BufferReady.buf
  · exact witness_PermuteReady.br

theorem witness_ChecksPassStageTwo : ChecksPass .stg2f running := by
  refine ⟨witness_BufferReady.len, ⟨fun _ => witness_TwiddleReady.stride, fun r hr => ?_⟩⟩
  have hs : regions .stg2f running = [bufRegion running, twRegion running] := rfl
  rw [hs] at hr
  simp only [List.mem_cons, List.not_mem_nil, or_false] at hr
  rcases hr with rfl | rfl
  · exact witness_BufferReady.buf
  · exact witness_TwiddleReady.tw

/-- With the buffer apart from the table, and with the two overlapping; and a stride that fails. -/
theorem witness_StageTwoSixteen :
    (running.log4n = 2 ∧ running.races = [] ∧ LengthLegal running ∧ ChecksPass .stg2f running ∧
      RegionsApart (bufRegion running) (twRegion running)) ∧
    (let s : State := { running with twAddr := 60#32 }
     s.log4n = 2 ∧ s.races = [] ∧ LengthLegal s ∧ ChecksPass .stg2f s ∧ ¬ RegionsApart (bufRegion s) (twRegion s)) ∧
    (let s : State := { running with twStride := 0#16 }
     s.log4n = 2 ∧ s.races = [] ∧ LengthLegal s ∧ ¬ StrideLegal s) := by
  refine ⟨⟨by decide, rfl, witness_BufferReady.len, witness_ChecksPassStageTwo, witness_TwiddleReady.apart⟩,
    ⟨by decide, rfl, witness_BufferReady.len,
      ⟨witness_BufferReady.len, ⟨fun _ => witness_TwiddleReady.stride, fun r hr => ?_⟩⟩, by unfold RegionsApart; decide⟩,
    ⟨by decide, rfl, witness_BufferReady.len, fun h => h.1 (by decide)⟩⟩
  have hs : regions .stg2f { running with twAddr := 60#32 } = [bufRegion running, ⟨60#32, 64⟩] := rfl
  rw [hs] at hr
  simp only [List.mem_cons, List.not_mem_nil, or_false] at hr
  rcases hr with rfl | rfl
  · exact witness_BufferReady.buf
  · unfold RegionLegal RegionAligned RegionInRange; decide

/-- A length, a stride, an alignment and a range that fail, each with the checks before it passing. -/
theorem witness_RegisterChecks :
    ¬ LengthLegal { running with cfg := { running.cfg with log4n := 1#4 } } ∧
    ¬ LengthLegal { running with cfg := { running.cfg with log4n := 6#4 } } ∧
    ¬ StrideLegal { running with twLen := 17#32 } ∧
    ¬ RegionAligned (twRegion { running with twAddr := 65#32 }) ∧
    ¬ RegionInRange running (bufRegion { running with bufAddr := 0xFFFFFFC4#32 }) ∧
    RegionInRange running (bufRegion { running with bufAddr := 0xFFFFFFC0#32 }) := by
  unfold LengthLegal StrideLegal RegionAligned RegionInRange
  decide

/-- Pair 0 holds the index 16 = N. -/
def badTable : State := { running with mem := wordsMem 128 [0x00100000] }

theorem witness_BadTable :
    ChecksPass .bitrev badTable ∧ Undisturbed badTable ∧ 0 < badTable.pairCount ∧
    (∀ q < 0, (pairAt badTable badTable.mem q).1 < badTable.fftLen ∧ (pairAt badTable badTable.mem q).2 < badTable.fftLen) ∧
    badTable.fftLen ≤ (pairAt badTable badTable.mem 0).2 :=
  ⟨witness_ChecksPassBitrev, ready_calm _ rfl rfl, by decide, by intro q h; omega, by decide +kernel⟩

/-- One command that reads its buffer first, and one that reads its table first. -/
theorem witness_FirstAccess :
    let s : State := { running with busErrs := [true] }
    s.busErrs = [true] ∧ s.races = [] ∧
    (ChecksPass .bitrev s ∧ 0 < s.pairCount) ∧
    (ChecksPass .xform { s with cfg := { s.cfg with ord := .bitReversed } } ∧
      ({ s with cfg := { s.cfg with ord := .bitReversed } } : State).cfg.ord = .bitReversed) := by
  refine ⟨rfl, rfl, ⟨witness_ChecksPassBitrev, by decide⟩, ⟨witness_BufferReady.len, ⟨fun _ => witness_TwiddleReady.stride, ?_⟩⟩, rfl⟩
  exact witness_ChecksPassStageTwo.2.2

/-- A bus error, and an error that is none. -/
theorem witness_Errors :
    (let s : State := { running with busErrs := [true] }
     s.params.legal = true ∧ s.races = [] ∧ s.status.err = false ∧ exec .stg3f s = .next (after (exec .stg3f s)) ∧
       (after (exec .stg3f s)).status.err = true ∧ (after (exec .stg3f s)).status.errcode = 7#8) ∧
    (let s : State := { running with twLen := 0#32 }
     exec .stg1f s = .next (after (exec .stg1f s)) ∧ (after (exec .stg1f s)).status.err = true ∧
       (after (exec .stg1f s)).status.errcode ≠ 7#8) :=
  ⟨⟨rfl, rfl, rfl, eq_next_after _ (by decide +kernel), by decide +kernel, by decide +kernel⟩,
    ⟨eq_next_after _ (by decide +kernel), by decide +kernel, by decide +kernel⟩⟩

/-- Byte 64 is just outside the buffer, and a raced word at 0 is apart from it. -/
theorem witness_Outside :
    let s : State := { running with races := [0] }
    OutsideRegion (bufRegion s) 64 ∧ exec .stg3f s = .next (after (exec .stg3f s)) ∧ (∀ w ∈ s.races, 64 < w ∨ w + 4 ≤ 64) :=
  ⟨by unfold OutsideRegion; decide, eq_next_after _ (by decide +kernel), by decide⟩

/-- A buffer that overlaps both tables, with every check passing. -/
theorem witness_Overlap :
    let s : State := small .halfUp 1 (wordsMem 0 [0x00010000])
    let t : State := { s with twAddr := 0#32, brAddr := 0#32 }
    ChecksPass .xform t ∧ Undisturbed t ∧ TableLegal t ∧ ¬ RegionsApart (bufRegion t) (twRegion t) := by
  refine ⟨⟨by unfold LengthLegal; decide, fun _ => by unfold StrideLegal; decide, fun r hr => ?_⟩, ready_calm _ rfl rfl,
    by unfold TableLegal; decide +kernel, by unfold RegionsApart; decide⟩
  have hs : regions .xform { small .halfUp 1 (wordsMem 0 [0x00010000]) with twAddr := 0#32, brAddr := 0#32 } =
    [⟨0#32, 64⟩, ⟨0#32, 64⟩, ⟨0#32, 4⟩] := by decide
  rw [hs] at hr
  simp only [List.mem_cons, List.not_mem_nil, or_false] at hr
  rcases hr with rfl | rfl | rfl <;> (unfold RegionLegal RegionAligned RegionInRange; decide)

/-- `RES` changed by a completion, and by each reset. -/
theorem witness_ResChanges :
    (let s := { State.reset with opa := 4#32 }.withFetchWord 32 0x70
     step s = .next (after (step s)) ∧ (after (step s)).res ≠ s.res) ∧
    (let s : State := { given (.regWrite 4 .b32 0x80000000#32) with res := 1#32 }
     step s = .next (after (step s)) ∧ (after (step s)).res ≠ s.res) ∧
    (let s : State := { given (.resetLine true) with res := 1#32 }
     step s = .next (after (step s)) ∧ (after (step s)).res ≠ s.res) :=
  ⟨⟨eq_next_after _ (by decide), by decide⟩, ⟨eq_next_after _ (by decide), by decide⟩, ⟨eq_next_after _ (by decide), by decide⟩⟩

/-- `OVR` set by a drop, and cleared by each of the three ways. -/
theorem witness_Overrun :
    let f := fun (e : Event) => ({ dropWrite running with inbox := [e] } : State)
    (after (step { running with inbox := [.regWrite 0x0C .b32 0#32] })).status.ovr = true ∧
    (after (step { running with inbox := [.regWrite 0x10 .b32 0#32] })).status.ovr = true ∧
    (after (step (f (.regWrite 8 .b32 8#32)))).status.ovr = false ∧
    (after (step (f (.regWrite 4 .b32 0x80000000#32)))).status.ovr = false ∧
    (after (step (f (.resetLine true)))).status.ovr = false := by decide +kernel

theorem witness_AcceptedCommand : running.latch ≠ none ∧ ({ running with inbox := [.regRead 8 .b32] } : State).latch ≠ none := by
  decide

/-- Legal operands for every command, and the same samples under the other packing: the word of sample 0 with its halves exchanged; the halves of the other
words are equal. -/
def packed : State :=
  { running with mem := wordsMem 0 (0x0BB8E0C0 :: List.replicate 15 0x00050005) ++ wordsMem 128 [0x00010000] }

theorem witness_Packing :
    let m := memWrite packed.mem 0 4 0xE0C00BB8
    let s' : State := { packed with params := { packed.params with packOrder := .imRe }, mem := m }
    (∀ i, CommandReady i packed) ∧
    (∀ a, OutsideRegion (bufRegion packed) a → memByte m a = memByte packed.mem a) ∧
    (∀ k < packed.fftLen, sampleAt s' m k = sampleAt packed packed.mem k) := by
  have h : BufferReady packed := { len := witness_BufferReady.len, buf := witness_BufferReady.buf, calm := ready_calm _ rfl rfl }
  have ht : TwiddleReady packed :=
    { toBufferReady := h, stride := witness_TwiddleReady.stride, tw := witness_TwiddleReady.tw, apart := witness_TwiddleReady.apart }
  have hp : PermuteReady packed :=
    { toBufferReady := h, br := witness_PermuteReady.br, apartBr := witness_PermuteReady.apartBr,
      table := by unfold TableLegal; decide +kernel }
  have hx : TransformReady packed := { toTwiddleReady := ht, permute := fun _ => hp }
  refine ⟨fun i => by cases i <;> first | exact trivial | exact h | exact ht | exact hp | exact hx, fun a ha => memByte_memWrite_outside 4 _ _ _ a ?_, by decide +kernel⟩
  unfold OutsideRegion at ha
  have h1 : (bufRegion packed).base.toNat = 0 := by decide
  have h2 : (bufRegion packed).size = 64 := by decide
  omega

/-- The last word, the last halfword and the last byte of data memory. -/
theorem witness_HostStore : State.reset.latch = none ∧
    (let s := given (.memWrite 0xFFFFFFFC .b32 1#32)
     s.inbox = [.memWrite 0xFFFFFFFC .b32 1#32] ∧ 0xFFFFFFFC + accessBytes .b32 ≤ 2 ^ s.params.addrW) ∧
    (let s := given (.memWrite 0xFFFFFFFE .b16 1#32)
     s.inbox = [.memWrite 0xFFFFFFFE .b16 1#32] ∧ 0xFFFFFFFE + accessBytes .b16 ≤ 2 ^ s.params.addrW ∧ 0xFFFFFFFE % 4 = 2) ∧
    (let s := given (.memRead 0xFFFFFFFF .b8)
     s.inbox = [.memRead 0xFFFFFFFF .b8] ∧ 0xFFFFFFFF + accessBytes .b8 ≤ 2 ^ s.params.addrW) := by decide

/-- Host accesses just outside and just inside the regions of the running `XFORM` (the swap table is bytes 128 to 131). -/
theorem witness_HostDuringCommand :
    (let s : State := { running with inbox := [.memWrite 132 .b32 1#32] }
     runningCommand s = some .xform ∧ 132 + 4 ≤ 2 ^ s.params.addrW ∧
      (∀ r ∈ regions .xform s, r.size = 0 ∨ 132 + 4 ≤ r.base.toNat ∨ r.base.toNat + r.size ≤ 132)) ∧
    (let s : State := { running with inbox := [.memWrite 131 .b32 1#32] }
     runningCommand s = some .xform ∧ 131 + 4 ≤ 2 ^ s.params.addrW ∧
      (∃ r ∈ regions .xform s, 0 < r.size ∧ 131 < r.base.toNat + r.size ∧ r.base.toNat < 131 + 4)) := by
  decide

/-- The last word, and a word one byte past it. -/
theorem witness_Top : 0xFFFFFFFC + accessBytes .b32 ≤ 2 ^ State.reset.params.addrW ∧
    2 ^ State.reset.params.addrW < 0xFFFFFFFD + accessBytes .b32 ∧
    (given (.memRead 0xFFFFFFFD .b32)).inbox = [.memRead 0xFFFFFFFD .b32] := by decide

theorem witness_Wait :
    (let s : State := { running with inbox := formEvents defaultParams .wait }
     s.inbox = formEvents s.params .wait ++ [] ∧ s.status.busy = true ∧ s.latch = some 0x50#32 ∧ decode 0x50#32 = .ok .xform) ∧
    (let s : State := { State.reset with inbox := formEvents defaultParams .wait }
     s.inbox = formEvents s.params .wait ++ [] ∧ s.status.busy = false) ∧
    (let s := given (.regExpect (regAddr defaultParams .id) 0xFFFFFFFF#32 0x46340150#32)
     s.inbox = [.regExpect (regAddr s.params .id) 0xFFFFFFFF#32 0x46340150#32] ∧ readReg .id s = 0x46340150#32) ∧
    (let s := given (.regExpect (regAddr defaultParams .status) 0xFFFFFFFF#32 2#32)
     s.inbox = [.regExpect (regAddr s.params .status) 0xFFFFFFFF#32 2#32] ∧ readReg .status s ≠ 2#32) := by decide

theorem witness_Inv : Inv running := by
  refine { legal := by decide, wf := by decide +kernel, inside := by decide +kernel, bufAddr := by decide, twAddr := by decide,
           brAddr := by decide, busyLatch := by decide, busyFlags := by decide, exclusive := by decide, noError := by decide,
           code := by decide, racesRun := fun h => absurd rfl h, racesInside := by decide, held := ?_ }
  intro h
  cases h

/-- A host read while a command runs: the invariant holds, and `BUSY` is 1 before and after. -/
theorem witness_StaysBusy :
    let s : State := { running with inbox := [.regRead 8 .b32] }
    Inv s ∧ step s = .next (after (step s)) ∧ s.status.busy = true ∧ (after (step s)).status.busy = true := by
  refine ⟨?_, eq_next_after _ (by decide), by decide, by decide⟩
  have h := witness_Inv
  exact { legal := h.legal, wf := h.wf, inside := h.inside, bufAddr := h.bufAddr, twAddr := h.twAddr, brAddr := h.brAddr,
          busyLatch := h.busyLatch, busyFlags := h.busyFlags, exclusive := h.exclusive, noError := h.noError, code := h.code,
          racesRun := fun e => absurd rfl e, racesInside := h.racesInside, held := fun e => by cases e }

end Sys2Proof.Tests
end

section
/-! What the body of a command can write (41_stage_one.md R144 to 44_permute_dispatch.md R205): samples of its buffer
and nothing else, whatever the platform answers. -/

namespace Sys2Proof.Machine

/-! Sequencing, and what keeps a property. -/

/-- A sequence that goes on went on in both of its parts. -/
theorem engBind_ok {α β : Type} (x : EngM α) (f : α → EngM β) (e e' : Eng) (b : β)
    (h : (x >>= f) e = .ok b e') : ∃ a e1, x e = .ok a e1 ∧ f a e1 = .ok b e' := by
  rw [engBind_apply] at h
  cases hx : x e with
  | ok a e1 => exact ⟨a, e1, rfl, by simpa [hx] using h⟩
  | error r e1 => simp [hx] at h

/-- A continuation need keep `P` only for the results its first part can give. -/
theorem engKeeps_bind_of_result {α β : Type} (P : Eng → Prop) (R : α → Prop) (x : EngM α) (f : α → EngM β)
    (hx : EngKeeps P x) (hr : ∀ e a e', P e → x e = .ok a e' → R a) (hf : ∀ a, R a → EngKeeps P (f a)) :
    EngKeeps P (x >>= f) := by
  intro e h
  obtain ⟨hok, herr⟩ := hx e h
  rw [engBind_apply]
  cases hxe : x e with
  | ok a e1 => exact hf a (hr e a e1 h hxe) e1 (hok a e1 hxe)
  | error r e1 =>
    refine ⟨fun b e' hb => by simp at hb, fun r' e' hr' => ?_⟩
    simp only [EStateM.Result.error.injEq] at hr'
    obtain ⟨-, rfl⟩ := hr'
    exact herr r e1 hxe

theorem engKeeps_ite {α : Type} (P : Eng → Prop) (c : Prop) [Decidable c] (x y : EngM α) (hx : c → EngKeeps P x)
    (hy : ¬ c → EngKeeps P y) : EngKeeps P (if c then x else y) := by
  split
  · exact hx ‹_›
  · exact hy ‹_›

theorem SurvivesSamples.and {s : State} {n : Nat} {Q Q' : Memory → Bool → Prop} (h : SurvivesSamples s n Q)
    (h' : SurvivesSamples s n Q') : SurvivesSamples s n fun m d => Q m d ∧ Q' m d :=
  fun i hi m v ⟨hm, hm'⟩ => ⟨h i hi m v hm, h' i hi m v hm'⟩

/-! The passes. Every index of a butterfly is below N, for any N. -/

theorem engKeeps_stageOne (Q : Memory → Bool → Prop) (s : State) (dir : Dir) (h : SurvivesSamples s s.fftLen Q) :
    EngKeeps (OnMem Q) (stageOne s dir) :=
  engKeeps_forUp _ _ _ fun _ _ => engKeeps_butterfly Q s _ _ _ _ _ _ (by omega) h

/-- Butterfly (j, b) of block size n1 ends below the last block's end. -/
theorem butterfly_index_lt (len n1 j b : Nat) (hj : j < n1 / 4) (hb : b < len / n1) :
    j + b * n1 + 3 * (n1 / 4) < len := by
  have hblocks : (b + 1) * n1 ≤ len := (Nat.mul_le_mul_right n1 hb).trans (Nat.div_mul_le_self len n1)
  rw [Nat.succ_mul] at hblocks
  omega

theorem engKeeps_stageTwoLevel (Q : Memory → Bool → Prop) (s : State) (dir : Dir) (n1 st : Nat)
    (h : SurvivesSamples s s.fftLen Q) : EngKeeps (OnMem Q) (stageTwoLevel s dir n1 st) :=
  engKeeps_forUp _ _ _ fun j hj => engKeeps_forUp _ _ _ fun b hb =>
    engKeeps_butterfly Q s _ _ _ _ _ _ (butterfly_index_lt s.fftLen n1 j b hj hb) h

theorem engKeeps_stageTwoLevels (Q : Memory → Bool → Prop) (s : State) (dir : Dir)
    (h : SurvivesSamples s s.fftLen Q) (levels : Nat) :
    ∀ n1 st, EngKeeps (OnMem Q) (stageTwoLevels s dir levels n1 st) := by
  induction levels with
  | zero => exact fun _ _ => engKeeps_pure _ _
  | succ k ih =>
    exact fun n1 st => engKeeps_bind _ _ _ (engKeeps_stageTwoLevel Q s dir n1 st h) fun _ => ih _ _

theorem engKeeps_stageTwo (Q : Memory → Bool → Prop) (s : State) (dir : Dir) (h : SurvivesSamples s s.fftLen Q) :
    EngKeeps (OnMem Q) (stageTwo s dir) :=
  engKeeps_stageTwoLevels Q s dir h _ _ _

theorem engKeeps_stageThree (Q : Memory → Bool → Prop) (s : State) (dir : Dir) (h : SurvivesSamples s s.fftLen Q) :
    EngKeeps (OnMem Q) (stageThree s dir) :=
  engKeeps_forUp _ _ _ fun _ _ => engKeeps_butterfly Q s _ _ _ _ _ _ (by omega) h

/-! The swap table. A buffer apart from the table cannot change a pair, so what `CheckTable` accepted still holds when
`BitRev` reads the pairs again (44_permute_dispatch.md R201, R202, R206). -/

/-- The table reads as it did at acceptance, and writes are kept only if the buffer is apart from it
(20_memory.md R82). -/
def KeepsTable (s : State) (m : Memory) (dry : Bool) : Prop :=
  (dry = false → RegionsApart (bufRegion s) (brRegion s)) ∧ ∀ p < s.pairCount, pairAt s m p = pairAt s s.mem p

/-- A write to a sample leaves every pair of a table apart from the buffer. -/
theorem pairAt_memWrite_sample (s : State) (m : Memory) (i p v : Nat) (hi : i < s.fftLen) (hp : p < s.pairCount)
    (h : RegionsApart (bufRegion s) (brRegion s)) : pairAt s (memWrite m (sampleAddr s i) 4 v) p = pairAt s m p := by
  unfold pairAt
  rw [wordAt_memWrite_apart]
  simp only [RegionsApart, bufRegion, brRegion] at h
  unfold sampleAddr pairAddr
  omega

theorem survivesSamples_keepsTable (s : State) : SurvivesSamples s s.fftLen (KeepsTable s) := by
  rintro i hi m v ⟨hapart, hpairs⟩
  refine ⟨hapart, fun p hp => ?_⟩
  rw [pairAt_memWrite_sample s m i p v hi hp (hapart rfl), hpairs p hp]

theorem engRead_ok (a : Nat) (w : Word) (e e' : Eng) (h : engRead a e = .ok w e') : w = wordAt e.mem a := by
  obtain ⟨_, e1, hbus, hread⟩ := engBind_ok _ _ _ _ _ h
  have hmem : e1.mem = e.mem := (engKeeps_busAnswer (fun m _ => m = e.mem) a e rfl).1 _ _ hbus
  cases hread
  rw [← hmem]
  rfl

/-- `LoadPair` returns the pair that memory holds (20_memory.md R67). -/
theorem loadPair_ok (s : State) (p : Nat) (ij : Nat × Nat) (e e' : Eng) (h : loadPair s p e = .ok ij e') :
    ij = pairAt s e.mem p := by
  obtain ⟨w, e1, hread, hpair⟩ := engBind_ok _ _ _ _ _ h
  cases hpair
  rw [engRead_ok _ _ _ _ hread]
  rfl

theorem engKeeps_checkPair (Q : Memory → Bool → Prop) (s : State) (p : Nat) : EngKeeps (OnMem Q) (checkPair s p) :=
  engKeeps_bind _ _ _ (engKeeps_loadPair Q s p) fun _ =>
    engKeeps_ite _ _ _ _ (fun _ => engKeeps_throw _ _) fun _ => engKeeps_pure _ _

theorem checkPair_ok (s : State) (p : Nat) (e e' : Eng) (h : checkPair s p e = .ok () e') :
    (pairAt s e.mem p).1 < s.fftLen ∧ (pairAt s e.mem p).2 < s.fftLen := by
  obtain ⟨ij, e1, hload, hcheck⟩ := engBind_ok _ _ _ _ _ h
  rw [← loadPair_ok s p ij e e1 hload]
  split at hcheck
  · cases hcheck
  · omega

/-- The first `n` turns of `CheckTable` go on only over pairs with both indices below N. -/
theorem forUp_checkPair_ok (s : State) (n : Nat) (e : Eng) :
    ∀ e', forUp n (checkPair s) e = .ok () e' →
      ∀ p < n, (pairAt s e.mem p).1 < s.fftLen ∧ (pairAt s e.mem p).2 < s.fftLen := by
  induction n with
  | zero => exact fun _ _ p hp => absurd hp (Nat.not_lt_zero p)
  | succ k ih =>
    intro e' h p hp
    obtain ⟨_, e1, hloop, hlast⟩ := engBind_ok _ _ _ _ _ h
    have hmem : e1.mem = e.mem :=
      (engKeeps_forUp _ k _ (fun j _ => engKeeps_checkPair (fun m _ => m = e.mem) s j) e rfl).1 _ _ hloop
    rcases Nat.lt_succ_iff_lt_or_eq.1 hp with hlt | rfl
    · exact ih e1 hloop p hlt
    · rw [← hmem]
      exact checkPair_ok s p e1 e' hlast

/-- A table that `CheckTable` accepts, read as at acceptance, is legal (44_permute_dispatch.md R201). -/
theorem tableLegal_of_checkTable (s : State) (e e' : Eng) (hk : OnMem (KeepsTable s) e)
    (h : checkTable s e = .ok () e') : TableLegal s := by
  obtain ⟨-, hpairs⟩ := hk
  intro p hp
  rw [← hpairs p hp]
  exact forUp_checkPair_ok s _ e e' h p hp

theorem engKeeps_swapWords (Q : Memory → Bool → Prop) (s : State) (i j : Nat) (hi : i < s.fftLen) (hj : j < s.fftLen)
    (h : SurvivesSamples s s.fftLen Q) : EngKeeps (OnMem Q) (swapWords s i j) :=
  engKeeps_bind _ _ _ (engKeeps_engRead Q _) fun _ =>
    engKeeps_bind _ _ _ (engKeeps_engRead Q _) fun _ =>
      engKeeps_bind _ _ _ (engKeeps_engWrite Q _ _ fun m => h i hi m _) fun _ =>
        engKeeps_engWrite Q _ _ fun m => h j hj m _

/-- After `CheckTable`, what keeps `Q` over a legal table keeps it. -/
theorem engKeeps_afterCheckTable (Q : Memory → Bool → Prop) (s : State) (hk : ∀ m d, Q m d → KeepsTable s m d)
    (x : EngM Unit) (hx : TableLegal s → EngKeeps (OnMem Q) x) :
    EngKeeps (OnMem Q) (checkTable s >>= fun _ => x) :=
  engKeeps_bind_of_result _ (fun _ => TableLegal s) _ _ (engKeeps_checkTable Q s)
    (fun e _ e' he hc => tableLegal_of_checkTable s e e' (hk _ _ he) hc) fun _ => hx

section Table

variable (Q : Memory → Bool → Prop) (s : State) (h : SurvivesSamples s s.fftLen Q)
  (hk : ∀ m d, Q m d → KeepsTable s m d)

include h hk

/-- One swap writes two samples of the buffer when the table is legal (44_permute_dispatch.md R202). -/
theorem engKeeps_swapPair (ht : TableLegal s) (p : Nat) (hp : p < s.pairCount) :
    EngKeeps (OnMem Q) (swapPair s p) := by
  refine engKeeps_bind_of_result _ (fun ij => ij = pairAt s s.mem p) _ _ (engKeeps_loadPair Q s p) ?_ ?_
  · intro e ij e' he hload
    rw [loadPair_ok s p ij e e' hload]
    exact (hk _ _ he).2 p hp
  · rintro ij rfl
    obtain ⟨hi, hj⟩ := ht p hp
    exact engKeeps_ite _ _ _ _ (fun _ => engKeeps_swapWords Q s _ _ hi hj h) fun _ => engKeeps_pure _ _

theorem engKeeps_bitRev (ht : TableLegal s) : EngKeeps (OnMem Q) (bitRev s) :=
  engKeeps_forUp _ _ _ fun p hp => engKeeps_swapPair Q s h hk ht p hp

/-- The body of `BITREV` (44_permute_dispatch.md R202). -/
theorem engKeeps_permuteBuffer : EngKeeps (OnMem Q) (permuteBuffer s) :=
  engKeeps_afterCheckTable Q s hk _ (engKeeps_bitRev Q s h hk)

end Table

/-! The whole transform. -/

/-- The three stages of `Transform()`, without the table (44_permute_dispatch.md R205). -/
def stages (s : State) : EngM Unit :=
  stageOne s s.cfg.dir >>= fun _ =>
    (if 2 < s.log4n then stageTwo s s.cfg.dir else pure ()) >>= fun _ => stageThree s s.cfg.dir

theorem transform_bitReversed (s : State) (h : s.cfg.ord = .bitReversed) : transform s = stages s := by
  unfold transform stages
  by_cases hl : 2 < s.log4n <;> simp [h, hl]

theorem transform_natural (s : State) (h : s.cfg.ord = .natural) :
    transform s = checkTable s >>= fun _ => stages s >>= fun _ => bitRev s := by
  unfold transform stages
  by_cases hl : 2 < s.log4n <;> simp [h, hl]

theorem engKeeps_stages (Q : Memory → Bool → Prop) (s : State) (h : SurvivesSamples s s.fftLen Q) :
    EngKeeps (OnMem Q) (stages s) :=
  engKeeps_bind _ _ _ (engKeeps_stageOne Q s _ h) fun _ =>
    engKeeps_bind _ _ _
      (engKeeps_ite _ _ _ _ (fun _ => engKeeps_stageTwo Q s _ h) fun _ => engKeeps_pure _ _) fun _ =>
        engKeeps_stageThree Q s _ h

theorem engKeeps_transform_bitReversed (Q : Memory → Bool → Prop) (s : State) (ho : s.cfg.ord = .bitReversed)
    (h : SurvivesSamples s s.fftLen Q) : EngKeeps (OnMem Q) (transform s) := by
  rw [transform_bitReversed s ho]
  exact engKeeps_stages Q s h

theorem engKeeps_transform_natural (Q : Memory → Bool → Prop) (s : State) (ho : s.cfg.ord = .natural)
    (h : SurvivesSamples s s.fftLen Q) (hk : ∀ m d, Q m d → KeepsTable s m d) :
    EngKeeps (OnMem Q) (transform s) := by
  rw [transform_natural s ho]
  exact engKeeps_afterCheckTable Q s hk _ fun ht =>
    engKeeps_bind _ _ _ (engKeeps_stages Q s h) fun _ => engKeeps_bitRev Q s h hk ht

/-! The body of each command, and what it keeps. -/

/-- What a command with regions does between `Validate` and its completion; nothing for the others. -/
def commandBody (i : Instr) (s : State) : EngM Unit :=
  match i with
  | .nop => pure ()
  | .stg1f => stageOne s .fwd
  | .stg1i => stageOne s .inv
  | .stg2f => stageTwo s .fwd
  | .stg2i => stageTwo s .inv
  | .stg3f => stageThree s .fwd
  | .stg3i => stageThree s .inv
  | .bitrev => permuteBuffer s
  | .xform => transform s
  | .rotf => pure ()
  | .roti => pure ()
  | .presc => pure ()

/-- A command that uses N runs its body under `Validate` (60_exceptions.md R233). -/
theorem exec_eq_runCommand (i : Instr) (s : State) (h : usesLength i = true) :
    exec i s = runCommand i (commandBody i s) s := by
  cases i with
  | nop => cases h
  | stg1f => rfl
  | stg1i => rfl
  | stg2f => rfl
  | stg2i => rfl
  | stg3f => rfl
  | stg3i => rfl
  | bitrev => rfl
  | xform => rfl
  | rotf => cases h
  | roti => cases h
  | presc => cases h

/-- A command that does not use N completes and changes at most `RES` (40_datapath.md R121 to R124). -/
theorem exec_primitive (i : Instr) (s : State) (h : usesLength i = false) :
    ∃ r, exec i s = .next (complete { s with res := r }) := by
  cases i with
  | nop => exact ⟨s.res, rfl⟩
  | stg1f => cases h
  | stg1i => cases h
  | stg2f => cases h
  | stg2i => cases h
  | stg3f => cases h
  | stg3i => cases h
  | bitrev => cases h
  | xform => cases h
  | rotf => exact ⟨_, rfl⟩
  | roti => exact ⟨_, rfl⟩
  | presc => exact ⟨_, rfl⟩

/-- All a command can do (60_exceptions.md R233): complete with a value for `RES`, end with an error after using some of
the platform's answers, or end with success after its checks and its body went through. -/
theorem exec_cases (i : Instr) (s t : State) (h : exec i s = .next t) :
    (usesLength i = false ∧ ∃ r, t = complete { s with res := r }) ∨
      (usesLength i = true ∧ ∃ x bus, t = endWithError i x { s with busErrs := bus }) ∨
      (usesLength i = true ∧ validate i s = none ∧
        ∃ e, commandBody i s (engStart i s) = .ok () e ∧ t = endWithSuccess i e s) := by
  cases hu : usesLength i with
  | false =>
    obtain ⟨r, hr⟩ := exec_primitive i s hu
    rw [hr] at h
    cases h
    exact .inl ⟨rfl, r, rfl⟩
  | true =>
    rw [exec_eq_runCommand i s hu] at h
    rcases runCommand_cases i (commandBody i s) s with ⟨x, -, he⟩ | ⟨-, x, e, -, he⟩ | ⟨hv, e, hbody, he⟩
    · rw [he] at h
      cases h
      exact .inr (.inl ⟨rfl, x, s.busErrs, rfl⟩)
    · rw [he] at h
      cases h
      exact .inr (.inl ⟨rfl, x, e.bus, rfl⟩)
    · rw [he] at h
      cases h
      exact .inr (.inr ⟨rfl, hv, e, hbody, rfl⟩)

/-- If the command has a swap table, it keeps it. -/
def FixesTable (i : Instr) (s : State) (m : Memory) (dry : Bool) : Prop :=
  brRegion s ∈ (regions i s).tail → KeepsTable s m dry

theorem survivesSamples_fixesTable (i : Instr) (s : State) : SurvivesSamples s s.fftLen (FixesTable i s) :=
  fun j hj m v hm hbr => survivesSamples_keepsTable s j hj m v (hm hbr)

/-- A command starts with its table fixed: writes are kept only when no table overlaps (20_memory.md R82). -/
theorem fixesTable_start (i : Instr) (s : State) : FixesTable i s s.mem (bufferOverlaps i s) := by
  intro h
  refine ⟨fun hd => ?_, fun _ _ => rfl⟩
  by_contra hn
  have hover := (bufferOverlaps_iff i s).2 ⟨_, h, hn⟩
  rw [hd] at hover
  cases hover

/-- Every body keeps a property that survives its sample writes and fixes its swap table. -/
theorem engKeeps_commandBody (i : Instr) (s : State) (Q : Memory → Bool → Prop) (h : SurvivesSamples s s.fftLen Q)
    (hk : ∀ m d, Q m d → FixesTable i s m d) : EngKeeps (OnMem Q) (commandBody i s) := by
  cases i with
  | nop => exact engKeeps_pure _ _
  | stg1f => exact engKeeps_stageOne Q s _ h
  | stg1i => exact engKeeps_stageOne Q s _ h
  | stg2f => exact engKeeps_stageTwo Q s _ h
  | stg2i => exact engKeeps_stageTwo Q s _ h
  | stg3f => exact engKeeps_stageThree Q s _ h
  | stg3i => exact engKeeps_stageThree Q s _ h
  | bitrev => exact engKeeps_permuteBuffer Q s h fun m d hm => hk m d hm (by simp [regions])
  | xform =>
    cases ho : s.cfg.ord with
    | bitReversed => exact engKeeps_transform_bitReversed Q s ho h
    | natural => exact engKeeps_transform_natural Q s ho h fun m d hm => hk m d hm (by simp [regions, ho])
  | rotf => exact engKeeps_pure _ _
  | roti => exact engKeeps_pure _ _
  | presc => exact engKeeps_pure _ _

/-- The frame of every command: what holds of data memory at its start, and survives a write to any sample of the
buffer while writes are kept, holds where its body goes through. -/
theorem commandBody_ok_keeps (i : Instr) (s : State) (Q : Memory → Bool → Prop) (h : SurvivesSamples s s.fftLen Q)
    (h0 : Q s.mem (bufferOverlaps i s)) (e : Eng) (he : commandBody i s (engStart i s) = .ok () e) : OnMem Q e := by
  have hkeeps : EngKeeps (OnMem fun m d => Q m d ∧ FixesTable i s m d) (commandBody i s) :=
    engKeeps_commandBody i s _ (h.and (survivesSamples_fixesTable i s)) fun _ _ => And.right
  have hstart : Q s.mem (bufferOverlaps i s) ∧ FixesTable i s s.mem (bufferOverlaps i s) :=
    ⟨h0, fixesTable_start i s⟩
  obtain ⟨hok, -⟩ := hkeeps (engStart i s) hstart
  exact (hok () e he).1

end Sys2Proof.Machine
end

section
/-! All one step can do: which part of the machine moves, and what it takes from the inbox (log entries 4, 5). -/

namespace Sys2Proof.Machine

/-- `Move s t`: one turn leads from `s` to `t`. -/
inductive Move (s : State) : State → Prop where
  /-- The engine moves: no input is left, or it is its turn, or a poll waits for it. -/
  | engine {t : State} (q : List Event) (d : Word)
      (hin : (s.inbox = [] ∧ q = []) ∨ s.inbox = .engine :: q ∨
        (q = s.inbox ∧ ∃ a m v rest, q = .regPoll a m v :: rest))
      (ht : engineTurn { s with inbox := q, readData := d } = .next t) : Move s t
  /-- A host read, or an input without effect. -/
  | quiet (q : List Event) (n : Nat) (d : Word) : Move s { s with inbox := q, freeCount := n, readData := d }
  /-- A host write to a register. -/
  | write (r : Reg) (v : Word) (q : List Event) (hin : s.inbox = .regWrite (regAddr s.params r) .b32 v :: q)
      (hr : s.resetIn = false) : Move s (writeReg r v { s with inbox := q })
  /-- A host store to data memory. -/
  | store {t : State} (a : Nat) (size : AccessSize) (v : Word) (q : List Event)
      (hin : s.inbox = .memWrite a size v :: q) (ht : hostStore a size v { s with inbox := q } = .next t) : Move s t
  /-- The reset input is driven. -/
  | reset (b : Bool) (q : List Event) (hin : s.inbox = .resetLine b :: q) :
      Move s (setResetLine b { s with inbox := q })

/-- Only a 32-bit access at its own address reaches a register (10_state.md R22, R23). -/
theorem decodeAccess_reg (p : Config.Params) (addr : Nat) (size : AccessSize) (r : Reg)
    (h : decodeAccess p addr size = .reg r) : addr = regAddr p r ∧ size = .b32 := by
  unfold decodeAccess at h
  split at h
  · cases h
  rename_i hwindow
  cases size with
  | b8 => cases h
  | b16 => cases h
  | b32 =>
    cases hfind : regAtOffset (addr - p.regBase) with
    | none => simp [hfind] at h
    | some q =>
      have hoff : regOffset q = addr - p.regBase := by simpa using List.find?_some hfind
      simp only [hfind, WindowHit.reg.injEq] at h
      subst h
      refine ⟨?_, rfl⟩
      unfold regAddr
      omega

/-- The end of a register write that goes on (70_reset_and_hazards.md R260). -/
theorem hostRegWrite_next (addr : Nat) (size : AccessSize) (v : Word) (s t : State)
    (h : hostRegWrite addr size v s = .next t) :
    ∃ r, addr = regAddr s.params r ∧ size = .b32 ∧ t = if s.resetIn then s else writeReg r v s := by
  unfold hostRegWrite at h
  cases hd : decodeAccess s.params addr size with
  | reg r =>
    obtain ⟨haddr, hsize⟩ := decodeAccess_reg _ _ _ _ hd
    rw [hd] at h
    cases h
    exact ⟨r, haddr, hsize, rfl⟩
  | undefinedAccess => simp [hd] at h
  | outside => simp [hd] at h

theorem hostRegRead_next (addr : Nat) (size : AccessSize) (s t : State) (h : hostRegRead addr size s = .next t) :
    ∃ d, t = { s with readData := d } := by
  unfold hostRegRead at h
  split at h
  · cases h
    exact ⟨_, rfl⟩
  · cases h
  · cases h

theorem hostRegExpect_next (addr : Nat) (mask value : Word) (s t : State)
    (h : hostRegExpect addr mask value s = .next t) : ∃ d, t = { s with readData := d } := by
  unfold hostRegExpect at h
  split at h
  · split at h
    · cases h
      exact ⟨_, rfl⟩
    · cases h
  · cases h
  · cases h

/-- A load that goes on changes what was read, and draws a value when it races (20_memory.md R77). -/
theorem hostLoad_next (a : Nat) (size : AccessSize) (s t : State) (h : hostLoad a size s = .next t) :
    ∃ n d, t = { s with freeCount := n, readData := d } := by
  unfold hostLoad at h
  split at h
  · cases h
  · split at h
    · cases h
      exact ⟨_, _, rfl⟩
    · cases h
      exact ⟨_, _, rfl⟩

theorem hostMemExpect_next (a : Nat) (value : Word) (s t : State) (h : hostMemExpect a value s = .next t) :
    ∃ n d, t = { s with freeCount := n, readData := d } := by
  unfold hostMemExpect at h
  cases hl : hostLoad a .b32 s with
  | next u =>
    simp only [hl] at h
    split at h
    · cases h
      exact hostLoad_next a .b32 s _ hl
    · cases h
  | fault f => simp [hl] at h
  | refused r => simp [hl] at h

/-- A poll that holds is a read; one that does not gives the engine its turn (log entry 17). -/
theorem pollTurn_next (addr : Nat) (mask value : Word) (again s t : State)
    (h : pollTurn addr mask value again s = .next t) :
    ∃ d, t = { s with readData := d } ∨ engineTurn { again with readData := d } = .next t := by
  unfold pollTurn at h
  split at h
  · split at h
    · cases h
      exact ⟨_, .inl rfl⟩
    · exact ⟨_, .inr h⟩
  · cases h
  · cases h

/-- Every step is a move. -/
theorem move_of_step (s t : State) (h : step s = .next t) : Move s t := by
  cases hq : s.inbox with
  | nil =>
    rw [step_nil s hq] at h
    exact .engine s.inbox s.readData (.inl ⟨hq, hq⟩) h
  | cons e rest =>
    rw [step_cons s e rest hq] at h
    cases e with
    | regWrite addr size v =>
      obtain ⟨r, haddr, rfl, rfl⟩ := hostRegWrite_next _ _ _ _ _ h
      split
      · exact .quiet rest s.freeCount s.readData
      · rename_i hr
        exact .write r v rest (haddr ▸ hq) (by simpa using hr)
    | regRead addr size =>
      obtain ⟨d, rfl⟩ := hostRegRead_next _ _ _ _ h
      exact .quiet rest s.freeCount d
    | regPoll addr mask value =>
      obtain ⟨d, rfl | he⟩ := pollTurn_next _ _ _ _ _ _ h
      · exact .quiet rest s.freeCount d
      · exact .engine s.inbox d (.inr (.inr ⟨rfl, addr, mask, value, rest, hq⟩)) he
    | regExpect addr mask value =>
      obtain ⟨d, rfl⟩ := hostRegExpect_next _ _ _ _ _ h
      exact .quiet rest s.freeCount d
    | memWrite a size v => exact .store a size v rest hq h
    | memRead a size =>
      obtain ⟨n, d, rfl⟩ := hostLoad_next _ _ _ _ h
      exact .quiet rest n d
    | memExpect a value =>
      obtain ⟨n, d, rfl⟩ := hostMemExpect_next _ _ _ _ h
      exact .quiet rest n d
    | resetLine b =>
      cases h
      exact .reset b rest hq
    | engine => exact .engine rest s.readData (.inr (.inl hq)) h

/-! The parameters (00_scope.md R6, 70_reset_and_hazards.md R265). -/

theorem writeInput_params (s t : State) (h : t.params = s.params) : (writeInput s t).params = s.params := by
  unfold writeInput
  split
  · rfl
  · exact h

@[simp] theorem applyReset_params (s : State) : (applyReset s).params = s.params := by
  unfold applyReset
  split
  · rfl
  · exact freeBuffer_params _ s

@[simp] theorem setResetLine_params (b : Bool) (s : State) : (setResetLine b s).params = s.params := by
  unfold setResetLine
  split
  · exact applyReset_params s
  · rfl

@[simp] theorem writeCtrl_params (v : Word) (s : State) : (writeCtrl v s).params = s.params := by
  unfold writeCtrl
  split
  · exact applyReset_params s
  · rfl

@[simp] theorem writeCmd_params (w : Word) (s : State) : (writeCmd w s).params = s.params := by
  unfold writeCmd
  split <;> rfl

@[simp] theorem writeReg_params (r : Reg) (v : Word) (s : State) : (writeReg r v s).params = s.params := by
  cases r with
  | id => rfl
  | ctrl => exact writeCtrl_params v s
  | status => rfl
  | cmd => exact writeCmd_params v s
  | cfg => exact writeInput_params _ _ rfl
  | bufAddr => exact writeInput_params _ _ rfl
  | twAddr => exact writeInput_params _ _ rfl
  | twStride => exact writeInput_params _ _ rfl
  | twLen => exact writeInput_params _ _ rfl
  | brAddr => exact writeInput_params _ _ rfl
  | brCount => exact writeInput_params _ _ rfl
  | errInfo => rfl
  | opa => exact writeInput_params _ _ rfl
  | opb => exact writeInput_params _ _ rfl
  | res => rfl
  | reserved => rfl

theorem hostStore_params (a : Nat) (size : AccessSize) (v : Word) (s t : State)
    (h : hostStore a size v s = .next t) : t.params = s.params := by
  unfold hostStore at h
  split at h
  · cases h
  · split at h
    · cases h
      rfl
    · cases h
      rfl

@[simp] theorem endWithError_params (i : Instr) (x : CmdError) (s : State) :
    (endWithError i x s).params = s.params := by
  rcases endWithError_cases i x s with h | ⟨-, h⟩
  · simp [h]
  · simp [h]

@[simp] theorem endWithSuccess_params (i : Instr) (e : Eng) (s : State) :
    (endWithSuccess i e s).params = s.params := by
  unfold endWithSuccess
  split
  · simp
  · simp

theorem exec_params (i : Instr) (s t : State) (h : exec i s = .next t) : t.params = s.params := by
  rcases exec_cases i s t h with ⟨-, r, rfl⟩ | ⟨-, x, bus, rfl⟩ | ⟨-, -, e, -, rfl⟩
  · rfl
  · exact endWithError_params i x _
  · exact endWithSuccess_params i e s

theorem engineTurn_params (s t : State) (h : engineTurn s = .next t) : t.params = s.params := by
  rcases engineTurn_cases s with ⟨-, he⟩ | ⟨w, i, -, -, he⟩ | ⟨w, r, -, -, he⟩
  · rw [he] at h
    cases h
    rfl
  · rw [he] at h
    exact exec_params i s t h
  · rw [he] at h
    cases h
    rfl

/-- Settles O51: no move changes a parameter. -/
theorem parametersNeverChange : Obligations.ParametersNeverChange := by
  intro s t h
  cases move_of_step s t h with
  | engine q d _ ht => exact (engineTurn_params _ t ht :)
  | quiet q n d => rfl
  | write r v q _ _ => exact writeReg_params r v _
  | store a size v q _ ht => exact (hostStore_params a size v _ t ht :)
  | reset b q _ => exact setResetLine_params b _

end Sys2Proof.Machine
end

section
/-! The invariant (`Inv`): it holds at reset, and every operation of the machine keeps it. -/

namespace Sys2Proof.Machine

/-! `Validate` in plain arithmetic: what its success says of the buffer (60_exceptions.md R233). -/

/-- The converse of `checkRegions_none`. -/
theorem regionLegal_of_checkRegions (s : State) (rs : List Region) (h : checkRegions rs s.params.addrW = none) :
    ∀ r ∈ rs, RegionLegal s r := by
  unfold checkRegions at h
  cases haligned : rs.find? (fun r => r.misaligned) with
  | some r => simp [haligned] at h
  | none =>
    cases hrange : rs.find? (fun r => r.outOfRange s.params.addrW) with
    | some r => simp [haligned, hrange] at h
    | none =>
      rw [List.find?_eq_none] at haligned hrange
      intro r hr
      have h1 := haligned r hr
      have h2 := hrange r hr
      rw [misaligned_iff, not_not] at h1
      rw [outOfRange_iff, Nat.not_lt] at h2
      exact ⟨h1, h2⟩

/-- The converse of `validate_none`. -/
theorem checksPass_of_validate (i : Instr) (s : State) (hu : usesLength i = true) (h : validate i s = none) :
    ChecksPass i s := by
  unfold validate at h
  split at h
  · rename_i hn
    rw [hu] at hn
    cases hn
  split at h
  · cases h
  split at h
  · cases h
  · rename_i hlen hstride
    refine ⟨⟨by omega, by omega⟩, fun ht => ?_, regionLegal_of_checkRegions s _ h⟩
    obtain ⟨hzero, hsize⟩ := not_or.1 (not_and.1 hstride ht)
    exact ⟨hzero, not_not.1 hsize⟩

theorem bufRegion_mem_regions (i : Instr) (s : State) (h : usesLength i = true) : bufRegion s ∈ regions i s := by
  cases i with
  | nop => cases h
  | stg1f => simp [regions]
  | stg1i => simp [regions]
  | stg2f => simp [regions]
  | stg2i => simp [regions]
  | stg3f => simp [regions]
  | stg3i => simp [regions]
  | bitrev => simp [regions]
  | xform => cases ho : s.cfg.ord <;> simp [regions, ho]
  | rotf => cases h
  | roti => cases h
  | presc => cases h

/-- A command with a region uses N. -/
theorem usesLength_of_mem_regions (i : Instr) (s : State) (r : Region) (h : r ∈ regions i s) : usesLength i = true := by
  cases i with
  | nop => simp [regions] at h
  | stg1f => rfl
  | stg1i => rfl
  | stg2f => rfl
  | stg2i => rfl
  | stg3f => rfl
  | stg3i => rfl
  | bitrev => rfl
  | xform => rfl
  | rotf => simp [regions] at h
  | roti => simp [regions] at h
  | presc => simp [regions] at h

/-! Data memory in its canonical form inside the address space (20_memory.md R60). -/

/-- Addresses strictly rise and lie below 2^`ADDR_W`. -/
def MemFits (p : Config.Params) (m : Memory) : Prop := memWf m = true ∧ ∀ c ∈ m, c.1 < 2 ^ p.addrW

theorem MemFits.memWrite {p : Config.Params} {m : Memory} (h : MemFits p m) (a n v : Nat) (hn : a + n ≤ 2 ^ p.addrW) :
    MemFits p (memWrite m a n v) :=
  ⟨memWf_memWrite n m a v h.1, below_memWrite n m a v _ hn h.2⟩

theorem MemFits.memFreeWords {p : Config.Params} {m : Memory} (h : MemFits p m) (draw : Nat) (ws : List Nat)
    (hw : ∀ w ∈ ws, w + 4 ≤ 2 ^ p.addrW) : MemFits p (memFreeWords draw m ws) :=
  ⟨memWf_memFreeWords draw m ws h.1, below_memFreeWords draw m ws _ hw h.2⟩

/-- Freeing a buffer cuts it at the top of data memory (log entry 13). -/
theorem memFits_freeBuffer (i : Instr) (s : State) (h : MemFits s.params s.mem) :
    MemFits s.params (freeBuffer i s).mem :=
  ⟨memWf_freeBuffer i s h.1, below_freeBuffer i s h.2⟩

/-- Writes to a buffer that is in range stay inside the address space. -/
theorem survivesSamples_memFits (s : State) (h : RegionInRange s (bufRegion s)) :
    SurvivesSamples s s.fftLen fun m _ => MemFits s.params m := by
  intro i hi m v hm
  refine hm.memWrite _ 4 v ?_
  simp only [RegionInRange, bufRegion] at h
  unfold sampleAddr
  omega

/-- A body that goes through leaves data memory in its form: its register check put the buffer in range. -/
theorem memFits_commandBody (i : Instr) (s : State) (e : Eng) (hu : usesLength i = true) (hv : validate i s = none)
    (h : MemFits s.params s.mem) (he : commandBody i s (engStart i s) = .ok () e) : MemFits s.params e.mem := by
  obtain ⟨-, -, hregions⟩ := checksPass_of_validate i s hu hv
  obtain ⟨-, hrange⟩ := hregions _ (bufRegion_mem_regions i s hu)
  exact commandBody_ok_keeps i s _ (survivesSamples_memFits s hrange) h e he

/-! The invariant under changes of one part of the state. -/

theorem Inv.memFits {s : State} (h : Inv s) : MemFits s.params s.mem := ⟨h.wf, h.inside⟩

/-- A block in reset has no command, so a running one is not in reset (70_reset_and_hazards.md R260). -/
theorem Inv.released_of_busy {s : State} (h : Inv s) (hb : s.status.busy = true) : s.resetIn = false := by
  by_contra hr
  have hclear : s.status.busy = false := by rw [← h.held (by simpa using hr)]; rfl
  rw [hb] at hclear
  cases hclear

theorem Inv.latch_none {s : State} (h : Inv s) (hb : s.status.busy = false) : s.latch = none := by
  have := h.busyLatch
  rw [hb] at this
  simpa using this.symm

/-- A word outside a command with regions has no race. -/
theorem Inv.races_nil {s : State} (h : Inv s) (hn : ∀ i, runningCommand s = some i → usesLength i = false) :
    s.races = [] := by
  by_contra hr
  obtain ⟨i, hi, hu⟩ := h.racesRun hr
  rw [hn i hi] at hu
  cases hu

theorem runningCommand_none (s : State) (h : s.latch = none) : runningCommand s = none := by
  unfold runningCommand
  rw [h]

/-- Data memory in its form, the inputs and the model's own counters are free. -/
theorem Inv.withMem {s : State} (h : Inv s) {m : Memory} (hm : MemFits s.params m) (q : List Event) (b : List Bool)
    (n : Nat) (d : Word) :
    Inv { s with mem := m, inbox := q, busErrs := b, freeCount := n, readData := d } :=
  { h with
    wf := hm.1
    inside := hm.2
    held := fun hr => congrArg
      (fun u : State => { u with mem := m, inbox := q, busErrs := b, freeCount := n, readData := d }) (h.held hr) }

/-- Outside reset the registers that commands read and `RES` are free, the address registers within `ADDR_W`. -/
theorem Inv.withRegisters {s : State} (h : Inv s) (hr : s.resetIn = false) {c : Ctrl} {f : Cfg}
    {buf tw len br a b r : Word} {st n : Half} (hbuf : buf.toNat < 2 ^ s.params.addrW)
    (htw : tw.toNat < 2 ^ s.params.addrW) (hbr : br.toNat < 2 ^ s.params.addrW) :
    Inv { s with ctrl := c, cfg := f, bufAddr := buf, twAddr := tw, twStride := st, twLen := len, brAddr := br,
                 brCount := n, opa := a, opb := b, res := r } :=
  { h with
    bufAddr := hbuf
    twAddr := htw
    brAddr := hbr
    held := fun he => by rw [hr] at he; cases he }

/-! The flag operations (60_exceptions.md R232, R237, R238, R242, R244). -/

theorem inv_accept {s : State} (h : Inv s) (hr : s.resetIn = false) (hb : s.status.busy = false)
    (he : s.status.err = false) (w : Word) : Inv (accept w s) :=
  have hraces : s.races = [] := h.races_nil fun i hi => by
    rw [runningCommand_none s (h.latch_none hb)] at hi
    cases hi
  { h with
    busyLatch := rfl
    busyFlags := fun _ => ⟨rfl, he⟩
    exclusive := fun hx => by cases hx.1
    racesRun := fun hn => absurd hraces hn
    held := fun hx => by rw [accept_resetIn, hr] at hx; cases hx }

theorem inv_dropWrite {s : State} (h : Inv s) (hr : s.resetIn = false) : Inv (dropWrite s) :=
  { h with held := fun hx => by rw [dropWrite_resetIn, hr] at hx; cases hx }

theorem inv_complete {s : State} (h : Inv s) (hb : s.status.busy = true) (hn : s.races = []) : Inv (complete s) :=
  { h with
    busyLatch := rfl
    busyFlags := fun hx => by cases hx
    exclusive := fun hx => by
      obtain ⟨-, herr⟩ := h.busyFlags hb
      rw [complete_status, Status.completed_err, herr] at hx
      cases hx.2
    racesRun := fun hx => absurd hn hx
    held := fun hx => by rw [complete_resetIn, h.released_of_busy hb] at hx; cases hx }

theorem errorCode_range (x : CmdError) : 1 ≤ (errorCode x).toNat ∧ (errorCode x).toNat ≤ 7 := by
  cases x <;> simp [errorCode]

theorem inv_raiseError {s : State} (h : Inv s) (hb : s.status.busy = true) (hn : s.races = []) (x : CmdError) :
    Inv (raiseError x s) :=
  { h with
    busyLatch := rfl
    busyFlags := fun hx => by cases hx
    exclusive := fun hx => by
      obtain ⟨hdone, -⟩ := h.busyFlags hb
      rw [raiseError_status, Status.failed_done, hdone] at hx
      cases hx.1
    noError := fun hx => by cases hx
    code := fun _ => errorCode_range x
    racesRun := fun hx => absurd hn hx
    held := fun hx => by rw [raiseError_resetIn, h.released_of_busy hb] at hx; cases hx }

/-- A `STATUS` write clears the error with its code and detail, or leaves all three (10_state.md R27, R36). -/
theorem acknowledge_error (v : Word) (s : State) :
    ((acknowledge v s).status.err = false ∧ (acknowledge v s).status.errcode = 0#8 ∧
        (acknowledge v s).errInfo = 0#32) ∨
      ((acknowledge v s).status.err = s.status.err ∧ (acknowledge v s).status.errcode = s.status.errcode ∧
        (acknowledge v s).errInfo = s.errInfo) := by
  cases hv : v.getLsbD 2 with
  | true => exact .inl (by simp [-BitVec.getLsbD_eq_getElem, hv])
  | false => exact .inr (by simp [-BitVec.getLsbD_eq_getElem, hv])

theorem inv_acknowledge {s : State} (h : Inv s) (hr : s.resetIn = false) (v : Word) : Inv (acknowledge v s) :=
  { h with
    busyFlags := fun hb => by
      obtain ⟨hdone, herr⟩ := h.busyFlags hb
      simp [hdone, herr]
    exclusive := fun hx => by
      simp only [acknowledge_status, Status.writeOneToClear_done, Status.writeOneToClear_err, Bool.and_eq_true] at hx
      obtain ⟨⟨hdone, -⟩, herr, -⟩ := hx
      exact h.exclusive ⟨hdone, herr⟩
    noError := fun hx => by
      rcases acknowledge_error v s with ⟨-, hcode, hinfo⟩ | ⟨herr, hcode, hinfo⟩
      · exact ⟨hcode, hinfo⟩
      · rw [hcode, hinfo]
        exact h.noError (herr ▸ hx)
    code := fun hx => by
      rcases acknowledge_error v s with ⟨herr, -, -⟩ | ⟨herr, hcode, -⟩
      · rw [herr] at hx
        cases hx
      · rw [hcode]
        exact h.code (herr ▸ hx)
    held := fun hx => by rw [acknowledge_resetIn, hr] at hx; cases hx }

/-! Reset (10_state.md R44, 70_reset_and_hazards.md R260 to R262). -/

/-- Reset values satisfy the invariant, at either level of the reset input. -/
theorem inv_clearRegisters (s : State) (b : Bool) (hl : s.params.legal = true) (hm : MemFits s.params s.mem) :
    Inv { clearRegisters s with resetIn := b } where
  legal := hl
  wf := hm.1
  inside := hm.2
  bufAddr := Nat.two_pow_pos _
  twAddr := Nat.two_pow_pos _
  brAddr := Nat.two_pow_pos _
  busyLatch := rfl
  busyFlags := fun hx => by cases hx
  exclusive := fun hx => by cases hx.1
  noError := fun _ => ⟨rfl, rfl⟩
  code := fun hx => by cases hx
  racesRun := fun hx => absurd rfl hx
  racesInside := fun _ ha => by cases ha
  held := fun _ => rfl

theorem inv_resetOf (p : Config.Params) (h : p.legal = true) : Inv (State.resetOf p) :=
  inv_clearRegisters (State.resetOf p) false h ⟨rfl, fun _ hc => by cases hc⟩

theorem inv_applyReset {s : State} (h : Inv s) (b : Bool) : Inv { applyReset s with resetIn := b } := by
  unfold applyReset
  cases runningCommand s with
  | none => exact inv_clearRegisters s b h.legal h.memFits
  | some i =>
    have hm := memFits_freeBuffer i s h.memFits
    rw [← freeBuffer_params i s] at hm
    exact inv_clearRegisters (freeBuffer i s) b (by rw [freeBuffer_params]; exact h.legal) hm

theorem inv_setResetLine {s : State} (h : Inv s) (b : Bool) : Inv (setResetLine b s) := by
  unfold setResetLine
  split
  · exact inv_applyReset h b
  · exact h

/-! Freed buffers and settled races (20_memory.md R77, R82). -/

/-- A freed buffer is a change of data memory and of the draw counter. -/
theorem freeBuffer_eq (i : Instr) (s : State) :
    freeBuffer i s = { s with mem := (freeBuffer i s).mem, freeCount := (freeBuffer i s).freeCount } := by
  unfold freeBuffer
  split <;> rfl

/-- Settling races is a change of data memory, of the draw counter and of the race list. -/
theorem settleRaces_eq (i : Instr) (s : State) :
    settleRaces i s =
      { s with mem := (settleRaces i s).mem, freeCount := (settleRaces i s).freeCount, races := [] } := by
  unfold settleRaces
  split
  · rename_i hr
    rw [← hr]
  · rename_i a rest hr
    dsimp only
    rw [freeBuffer_eq]

theorem inv_freeBuffer {s : State} (h : Inv s) (i : Instr) : Inv (freeBuffer i s) := by
  rw [freeBuffer_eq]
  exact h.withMem (memFits_freeBuffer i s h.memFits) _ _ _ _

theorem memFits_settleRaces (i : Instr) {s : State} (h : Inv s) : MemFits s.params (settleRaces i s).mem := by
  unfold settleRaces
  split
  · exact h.memFits
  · rename_i a rest hr
    have hm := memFits_freeBuffer i s h.memFits
    refine hm.memFreeWords _ _ fun w hw => ?_
    rw [← hr] at hw
    obtain ⟨-, htop⟩ := h.racesInside w hw
    exact htop

theorem inv_settleRaces {s : State} (h : Inv s) (hr : s.resetIn = false) (i : Instr) : Inv (settleRaces i s) := by
  rw [settleRaces_eq]
  exact
    { h.withMem (memFits_settleRaces i h) s.inbox s.busErrs (settleRaces i s).freeCount s.readData with
      racesRun := fun hx => absurd rfl hx
      racesInside := fun _ ha => by cases ha
      held := fun hx => by rw [hr] at hx; cases hx }

/-! The ends of a command, and the engine's turn (60_exceptions.md R233). -/

theorem inv_endWithError {s : State} (h : Inv s) (hb : s.status.busy = true) (i : Instr) (x : CmdError) :
    Inv (endWithError i x s) := by
  have hr := h.released_of_busy hb
  rcases endWithError_cases i x s with he | ⟨-, he⟩
  · rw [he]
    exact inv_raiseError (inv_settleRaces h hr i) (by simpa using hb) (by simp) x
  · rw [he]
    exact inv_raiseError (inv_settleRaces (inv_freeBuffer h i) (by simpa using hr) i) (by simpa using hb) (by simp) x

theorem inv_endWithSuccess {s : State} (h : Inv s) (hb : s.status.busy = true) (i : Instr) (e : Eng)
    (hm : MemFits s.params e.mem) : Inv (endWithSuccess i e s) := by
  have hr := h.released_of_busy hb
  have ht : Inv { s with mem := e.mem, busErrs := e.bus } := h.withMem hm _ _ _ _
  unfold endWithSuccess
  split
  · exact inv_complete (inv_settleRaces (inv_freeBuffer ht i) (by simpa using hr) i) (by simpa using hb) (by simp)
  · exact inv_complete (inv_settleRaces ht hr i) (by simpa using hb) (by simp)

theorem inv_exec {s t : State} (h : Inv s) (hb : s.status.busy = true) (i : Instr) (hi : runningCommand s = some i)
    (ht : exec i s = .next t) : Inv t := by
  rcases exec_cases i s t ht with ⟨hu, r, rfl⟩ | ⟨-, x, bus, rfl⟩ | ⟨hu, hv, e, hbody, rfl⟩
  · have hraces : s.races = [] := h.races_nil fun j hj => by
      rw [hi] at hj
      cases hj
      exact hu
    exact inv_complete (h.withRegisters (h.released_of_busy hb) h.bufAddr h.twAddr h.brAddr) hb hraces
  · exact inv_endWithError (h.withMem h.memFits s.inbox bus s.freeCount s.readData) hb i x
  · exact inv_endWithSuccess h hb i e (memFits_commandBody i s e hu hv h.memFits hbody)

theorem runningCommand_of_decode (s : State) (w : Word) (hl : s.latch = some w) :
    (∀ i, decode w = .ok i → runningCommand s = some i) ∧
      ∀ r, decode w = .error r → runningCommand s = none := by
  unfold runningCommand
  rw [hl]
  exact ⟨fun i hi => by simp [hi], fun r hr => by simp [hr]⟩

theorem inv_engineTurn {s t : State} (h : Inv s) (ht : engineTurn s = .next t) : Inv t := by
  rcases engineTurn_cases s with ⟨-, he⟩ | ⟨w, i, hl, hd, he⟩ | ⟨w, r, hl, hd, he⟩
  · rw [he] at ht
    cases ht
    exact h
  · rw [he] at ht
    have hb : s.status.busy = true := by rw [h.busyLatch, hl]; rfl
    exact inv_exec h hb i ((runningCommand_of_decode s w hl).1 i hd) ht
  · rw [he] at ht
    cases ht
    have hb : s.status.busy = true := by rw [h.busyLatch, hl]; rfl
    have hraces : s.races = [] := h.races_nil fun i hi => by
      rw [(runningCommand_of_decode s w hl).2 r hd] at hi
      cases hi
    exact inv_raiseError h hb hraces _

/-! Host writes (10_state.md R22 to R40, 20_memory.md R75, R77). -/

/-- An address register has no bit above `ADDR_W` (10_state.md R30). -/
theorem maskAddr_lt (p : Config.Params) (v : Word) : (maskAddr p v).toNat < 2 ^ p.addrW := by
  unfold maskAddr
  rw [BitVec.toNat_ofNat]
  exact (Nat.mod_le _ _).trans_lt (Nat.mod_lt _ (Nat.two_pow_pos _))

theorem inv_writeInput {s t : State} (h : Inv s) (hr : s.resetIn = false) (ht : Inv t) : Inv (writeInput s t) := by
  unfold writeInput
  split
  · exact inv_dropWrite h hr
  · exact ht

theorem inv_writeCmd {s : State} (h : Inv s) (hr : s.resetIn = false) (w : Word) : Inv (writeCmd w s) := by
  unfold writeCmd
  split
  · exact inv_dropWrite h hr
  · rename_i hfree
    obtain ⟨hb, he⟩ : s.status.busy = false ∧ s.status.err = false := by simpa using hfree
    exact inv_accept h hr hb he w

theorem inv_writeCtrl {s : State} (h : Inv s) (hr : s.resetIn = false) (v : Word) : Inv (writeCtrl v s) := by
  unfold writeCtrl
  split
  · exact inv_applyReset h (applyReset s).resetIn
  · exact h.withRegisters hr h.bufAddr h.twAddr h.brAddr

theorem inv_writeReg {s : State} (h : Inv s) (hr : s.resetIn = false) (r : Reg) (v : Word) : Inv (writeReg r v s) := by
  have hmask := maskAddr_lt s.params v
  cases r with
  | id => exact h
  | ctrl => exact inv_writeCtrl h hr v
  | status => exact inv_acknowledge h hr v
  | cmd => exact inv_writeCmd h hr v
  | cfg => exact inv_writeInput h hr (h.withRegisters hr h.bufAddr h.twAddr h.brAddr)
  | bufAddr => exact inv_writeInput h hr (h.withRegisters hr hmask h.twAddr h.brAddr)
  | twAddr => exact inv_writeInput h hr (h.withRegisters hr h.bufAddr hmask h.brAddr)
  | twStride => exact inv_writeInput h hr (h.withRegisters hr h.bufAddr h.twAddr h.brAddr)
  | twLen => exact inv_writeInput h hr (h.withRegisters hr h.bufAddr h.twAddr h.brAddr)
  | brAddr => exact inv_writeInput h hr (h.withRegisters hr h.bufAddr h.twAddr hmask)
  | brCount => exact inv_writeInput h hr (h.withRegisters hr h.bufAddr h.twAddr h.brAddr)
  | errInfo => exact h
  | opa => exact inv_writeInput h hr (h.withRegisters hr h.bufAddr h.twAddr h.brAddr)
  | opb => exact inv_writeInput h hr (h.withRegisters hr h.bufAddr h.twAddr h.brAddr)
  | res => exact h
  | reserved => exact h

/-- The words an access inside data memory touches are aligned and inside: the top 2^`ADDR_W` is a multiple of 4. -/
theorem touchedWords_inside (p : Config.Params) (hp : p.legal = true) (a : Nat) (size : AccessSize)
    (h : a + accessBytes size ≤ 2 ^ p.addrW) :
    ∀ w ∈ touchedWords a (accessBytes size), w % 4 = 0 ∧ w + 4 ≤ 2 ^ p.addrW := by
  have haddr : 2 ≤ p.addrW := by
    simp only [Config.Params.legal, Bool.and_eq_true, decide_eq_true_eq] at hp
    omega
  obtain ⟨k, hk⟩ : 4 ∣ 2 ^ p.addrW := pow_dvd_pow 2 haddr
  have hsize : 1 ≤ accessBytes size ∧ accessBytes size ≤ 4 := by cases size <;> simp [accessBytes]
  intro w hw
  unfold touchedWords at hw
  split at hw
  · simp only [List.mem_singleton] at hw
    omega
  · simp only [List.mem_cons, List.not_mem_nil, or_false] at hw
    omega

/-- A store races only with a command that has regions (20_memory.md R77). -/
theorem running_of_races (a n : Nat) (s : State) (h : racesWithCommand a n s = true) :
    ∃ i, runningCommand s = some i ∧ usesLength i = true := by
  unfold racesWithCommand runningRegions at h
  cases hi : runningCommand s with
  | none => simp [hi] at h
  | some i =>
    simp only [hi, List.any_eq_true] at h
    obtain ⟨r, hr, -⟩ := h
    exact ⟨i, rfl, usesLength_of_mem_regions i s r hr⟩

theorem inv_hostStore {s t : State} (h : Inv s) (a : Nat) (size : AccessSize) (v : Word)
    (ht : hostStore a size v s = .next t) : Inv t := by
  unfold hostStore at ht
  split at ht
  · cases ht
  rename_i htop
  have hin : a + accessBytes size ≤ 2 ^ s.params.addrW := Nat.not_lt.1 htop
  have htouched := touchedWords_inside s.params h.legal a size hin
  split at ht
  · rename_i hrace
    cases ht
    obtain ⟨i, hi, hu⟩ := running_of_races a _ s hrace
    have hr : s.resetIn = false := by
      cases hr : s.resetIn with
      | false => rfl
      | true =>
        have hl : s.latch = none := by rw [← h.held hr]; rfl
        rw [runningCommand_none s hl] at hi
        cases hi
    have hm := h.memFits.memFreeWords s.freeCount _ fun w hw => (htouched w hw).2
    exact
      { h.withMem hm s.inbox s.busErrs (s.freeCount + 1) s.readData with
        racesRun := fun _ => ⟨i, hi, hu⟩
        racesInside := fun w hw => (List.mem_append.1 hw).elim (htouched w) (h.racesInside w)
        held := fun hx => by rw [hr] at hx; cases hx }
  · cases ht
    exact h.withMem (h.memFits.memWrite a _ _ hin) _ _ _ _

/-! Every move keeps the invariant. -/

theorem inv_move {s t : State} (h : Inv s) (hm : Move s t) : Inv t := by
  cases hm with
  | engine q d _ ht => exact inv_engineTurn (h.withMem h.memFits q s.busErrs s.freeCount d) ht
  | quiet q n d => exact h.withMem h.memFits q s.busErrs n d
  | write r v q _ hr => exact inv_writeReg (h.withMem h.memFits q s.busErrs s.freeCount s.readData) hr r v
  | store a size v q _ ht => exact inv_hostStore (h.withMem h.memFits q s.busErrs s.freeCount s.readData) a size v ht
  | reset b q _ => exact inv_setResetLine (h.withMem h.memFits q s.busErrs s.freeCount s.readData) b

/-- Settles O60: each move of a step keeps the invariant. -/
theorem stepKeepsTheInvariant : Obligations.StepKeepsTheInvariant :=
  fun s t h hs => inv_move h (move_of_step s t hs)

/-- Settles O59: the reset values satisfy the invariant under all legal parameters, the default ones among them. -/
theorem resetSatisfiesTheInvariant : Obligations.ResetSatisfiesTheInvariant :=
  ⟨inv_resetOf Config.defaultParams rfl, inv_resetOf⟩

end Sys2Proof.Machine
end

section
/-! The register words as fields: each register the host reads is a disjunction of fields at their bit positions
(10_state.md R25 to R39). -/

namespace Sys2Proof.Machine

/-- A field of a register word: `x` with its lowest bit at bit `k`. -/
def field {n : Nat} (x : BitVec n) (k : Nat) : Word := x.setWidth 32 <<< k

theorem getLsbD_field {n : Nat} (x : BitVec n) (k i : Nat) :
    (field x k).getLsbD i = (decide (i < 32) && decide (k ≤ i) && x.getLsbD (i - k)) := by
  unfold field
  rw [BitVec.getLsbD_shiftLeft, BitVec.getLsbD_setWidth]
  by_cases hi : i < 32
  · by_cases hk : k ≤ i
    · simp [hi, hk, Nat.not_lt.2 hk, show i - k < 32 by omega]
    · simp [hk, Nat.lt_of_not_le hk]
  · simp [hi]

/-- A word masks a field by its own bits at that position. -/
theorem field_and {n : Nat} (x : BitVec n) (k : Nat) (w : Word) :
    field x k &&& w = field (x &&& w.extractLsb' k n) k := by
  apply BitVec.eq_of_getLsbD_eq
  intro i hi
  rw [BitVec.getLsbD_and, getLsbD_field, getLsbD_field, BitVec.getLsbD_and, BitVec.getLsbD_extractLsb']
  by_cases hk : k ≤ i
  · by_cases hn : i - k < n
    · simp [hk, hn, Bool.and_assoc]
    · simp [hn, BitVec.getLsbD_of_ge x (i - k) (Nat.not_lt.1 hn)]
  · simp [hk]

theorem field_zero (n k : Nat) : field (0#n) k = 0#32 := by
  apply BitVec.eq_of_getLsbD_eq
  intro i hi
  simp [getLsbD_field, -BitVec.getLsbD_eq_getElem]

/-- A mask without a bit of a field clears it. -/
theorem field_and_eq_zero {n : Nat} (x : BitVec n) (k : Nat) (w : Word) (h : w.extractLsb' k n = 0#n) :
    field x k &&& w = 0#32 := by
  rw [field_and, h, BitVec.and_zero, field_zero]

/-- The bits of a word at a field's position are that part of the word. -/
theorem field_extractLsb' (v : Word) (k n : Nat) :
    field (v.extractLsb' k n) k = v &&& field (BitVec.allOnes n) k := by
  rw [BitVec.and_comm, field_and, BitVec.allOnes_and]

theorem extractLsb'_field_same {n : Nat} (x : BitVec n) (k : Nat) (h : k + n ≤ 32) :
    (field x k).extractLsb' k n = x := by
  apply BitVec.eq_of_getLsbD_eq
  intro i hi
  rw [BitVec.getLsbD_extractLsb', getLsbD_field]
  simp [hi, show k + i < 32 by omega]

theorem extractLsb'_field_apart {n : Nat} (x : BitVec n) (k j m : Nat) (h : j + m ≤ k ∨ k + n ≤ j) :
    (field x k).extractLsb' j m = 0#m := by
  apply BitVec.eq_of_getLsbD_eq
  intro i hi
  rw [BitVec.getLsbD_extractLsb', getLsbD_field]
  rcases h with h | h
  · simp [show ¬ k ≤ j + i by omega, -BitVec.getLsbD_eq_getElem]
  · simp [BitVec.getLsbD_of_ge x (j + i - k) (by omega), -BitVec.getLsbD_eq_getElem]

/-! One bit is a field of width 1. -/

theorem bit_eq_field (b : Bool) (k : Nat) : bit b k = field (BitVec.ofBool b) k := by
  cases b with
  | false => exact (field_zero 1 k).symm
  | true => rfl

theorem getLsbD_bit (b : Bool) (k i : Nat) : (bit b k).getLsbD i = (decide (i < 32) && decide (i = k) && b) := by
  rw [bit_eq_field, getLsbD_field, BitVec.getLsbD_ofBool, Bool.and_assoc, Bool.and_assoc]
  by_cases hk : i = k
  · simp [hk]
  · by_cases hle : k ≤ i
    · simp [hk, show i - k ≠ 0 by omega]
    · simp [hk, hle]

theorem extractLsb'_bit_apart (b : Bool) (k j m : Nat) (h : j + m ≤ k ∨ k < j) :
    (bit b k).extractLsb' j m = 0#m := by
  rw [bit_eq_field, extractLsb'_field_apart _ k j m h]

theorem bit_and (b : Bool) (k : Nat) (w : Word) : bit b k &&& w = bit (b && w.getLsbD k) k := by
  rw [bit_eq_field, bit_eq_field, field_and]
  congr 1
  apply BitVec.eq_of_getLsbD_eq
  intro i hi
  obtain rfl : i = 0 := by omega
  simp [BitVec.getLsbD_extractLsb', -BitVec.getLsbD_eq_getElem]

/-- Bit `k` of a word is that part of the word. -/
theorem bit_getLsbD (v : Word) (k : Nat) : bit (v.getLsbD k) k = v &&& bit true k := by
  rw [BitVec.and_comm, bit_and, Bool.true_and]

@[simp] theorem bit_false (k : Nat) : bit false k = 0#32 := rfl

/-! The registers. -/

theorem statusWord_eq (st : Status) :
    statusWord st = bit st.busy 0 ||| bit st.done 1 ||| bit st.err 2 ||| bit st.ovr 3 ||| field st.errcode 8 := rfl

theorem ctrlWord_eq (c : Ctrl) : ctrlWord c = bit c.ieDone 0 ||| bit c.ieErr 1 := rfl

theorem cfgWord_eq (c : Cfg) :
    cfgWord c = field c.log4n 0 ||| bit (decide (c.dir = .inv)) 4 ||| bit (decide (c.ord = .natural)) 5 := by
  unfold cfgWord field
  rw [BitVec.shiftLeft_zero]

theorem idWord_eq (p : Config.Params) :
    idWord p = bit (decide (p.packOrder = .imRe)) 0 ||| bit (decide (p.rnd = .trunc)) 1
      ||| field (BitVec.ofNat 4 p.log4nMax) 4 ||| field 0x01#8 8 ||| field 0x4634#16 16 := rfl

theorem setWidth_eq_field (x : Half) : x.setWidth 32 = field x 0 := by
  unfold field
  rw [BitVec.shiftLeft_zero]

/-- An address register keeps the bits below `ADDR_W` (10_state.md R30). -/
theorem maskAddr_eq_and (p : Config.Params) (v : Word) : maskAddr p v = v &&& BitVec.ofNat 32 (2 ^ p.addrW - 1) := by
  apply BitVec.eq_of_getLsbD_eq
  intro i hi
  unfold maskAddr
  rw [BitVec.getLsbD_and, BitVec.getLsbD_ofNat, BitVec.getLsbD_ofNat, Nat.testBit_mod_two_pow,
    Nat.testBit_two_pow_sub_one]
  simp [hi, BitVec.testBit_toNat, Bool.and_comm, -BitVec.getLsbD_eq_getElem]

/-- An address register without a bit above `ADDR_W` shows none (10_state.md R30). -/
theorem and_not_addrMask (p : Config.Params) (a : Word) (h : a.toNat < 2 ^ p.addrW) :
    a &&& ~~~ BitVec.ofNat 32 (2 ^ p.addrW - 1) = 0#32 := by
  have hmask : maskAddr p a = a := by
    unfold maskAddr
    rw [Nat.mod_eq_of_lt h, BitVec.ofNat_toNat, BitVec.setWidth_eq]
  rw [← hmask, maskAddr_eq_and, BitVec.and_assoc, BitVec.and_not_self]
  exact BitVec.and_zero

/-- A 16-bit register reads as its unsigned value (10_state.md R32, R35). -/
theorem toNat_setWidth_half (x : Half) : (x.setWidth 32).toNat = x.toNat :=
  BitVec.toNat_setWidth_of_le (by decide)

theorem ctrlWord_fields (c : Ctrl) :
    (ctrlWord c).getLsbD 0 = c.ieDone ∧ (ctrlWord c).getLsbD 1 = c.ieErr ∧ (ctrlWord c).getLsbD 31 = false := by
  simp only [ctrlWord_eq, BitVec.getLsbD_or, getLsbD_bit]
  simp

theorem statusWord_fields (st : Status) :
    (statusWord st).getLsbD 0 = st.busy ∧ (statusWord st).getLsbD 1 = st.done ∧ (statusWord st).getLsbD 2 = st.err ∧
      (statusWord st).getLsbD 3 = st.ovr ∧ (statusWord st).extractLsb' 8 8 = st.errcode := by
  rw [statusWord_eq]
  simp (disch := decide) only [BitVec.getLsbD_or, getLsbD_bit, getLsbD_field, BitVec.extractLsb'_or,
    extractLsb'_bit_apart, extractLsb'_field_same]
  simp

theorem cfgWord_fields (c : Cfg) :
    (cfgWord c).extractLsb' 0 4 = c.log4n ∧ (cfgWord c).getLsbD 4 = decide (c.dir = .inv) ∧
      (cfgWord c).getLsbD 5 = decide (c.ord = .natural) := by
  rw [cfgWord_eq]
  simp (disch := decide) only [BitVec.getLsbD_or, getLsbD_bit, getLsbD_field, BitVec.extractLsb'_or,
    extractLsb'_bit_apart, extractLsb'_field_same]
  simp

theorem idWord_fields (p : Config.Params) (h : p.legal = true) :
    (idWord p).getLsbD 0 = decide (p.packOrder = .imRe) ∧ (idWord p).getLsbD 1 = decide (p.rnd = .trunc) ∧
      (idWord p).extractLsb' 2 2 = 0#2 ∧ ((idWord p).extractLsb' 4 4).toNat = p.log4nMax ∧
      (idWord p).extractLsb' 8 8 = 0x01#8 ∧ (idWord p).extractLsb' 16 16 = 0x4634#16 := by
  have hmax : p.log4nMax < 2 ^ 4 := by
    simp only [Config.Params.legal, Bool.and_eq_true, decide_eq_true_eq] at h
    omega
  rw [idWord_eq]
  simp (disch := decide) only [BitVec.getLsbD_or, getLsbD_bit, getLsbD_field, BitVec.extractLsb'_or,
    extractLsb'_bit_apart, extractLsb'_field_same, extractLsb'_field_apart]
  simpa using hmax

/-- Settles O8: each field stands where its register's layout says, apart from every other field. -/
theorem registersReadAsLaidOut : Obligations.RegistersReadAsLaidOut := fun s =>
  ⟨ctrlWord_fields s.ctrl, statusWord_fields s.status, cfgWord_fields s.cfg, rfl, rfl, rfl,
    toNat_setWidth_half s.twStride, rfl, toNat_setWidth_half s.brCount, rfl, rfl, rfl, rfl⟩

/-- Settles O13: the fields of `ID` are those of `idWord`, and a write to `ID` is ignored by definition. -/
theorem idReadsTheParameters : Obligations.IdReadsTheParameters := by
  refine ⟨fun s v h => ?_, by decide⟩
  obtain ⟨him, htrunc, hzero, hmax, hversion, hmagic⟩ := idWord_fields s.params h
  exact ⟨him, htrunc, hzero, hmax, hversion, hmagic, rfl⟩

end Sys2Proof.Machine
end

section
/-! The register window: which register an access reaches, and all that a register write can do (10_state.md R22 to
R40). -/

namespace Sys2Proof.Machine

/-! Accesses. -/

theorem hostRegRead_regAddr (r : Reg) (s : State) :
    hostRegRead (regAddr s.params r) .b32 s = .next { s with readData := readReg r s } := by
  unfold hostRegRead
  rw [decodeAccess_regAddr]

theorem hostRegWrite_regAddr (r : Reg) (v : Word) (s : State) (h : s.resetIn = false) :
    hostRegWrite (regAddr s.params r) .b32 v s = .next (writeReg r v s) := by
  unfold hostRegWrite
  rw [decodeAccess_regAddr]
  simp [h]

/-- The step that takes a register write out of reset. -/
theorem step_regWrite (s : State) (r : Reg) (v : Word) (rest : List Event)
    (hin : s.inbox = .regWrite (regAddr s.params r) .b32 v :: rest) (h : s.resetIn = false) :
    step s = .next (writeReg r v { s with inbox := rest }) := by
  rw [step_cons s _ rest hin]
  exact hostRegWrite_regAddr r v { s with inbox := rest } h

theorem step_regRead (s : State) (r : Reg) (rest : List Event)
    (hin : s.inbox = .regRead (regAddr s.params r) .b32 :: rest) :
    step s = .next { s with inbox := rest, readData := readReg r s } := by
  rw [step_cons s _ rest hin]
  exact hostRegRead_regAddr r { s with inbox := rest }

/-- An access of another width or at an offset that is no multiple of 4 is refused (10_state.md R23). -/
theorem step_undefinedAccess (s : State) (v : Word) (size : AccessSize) (off : Nat) (rest : List Event) (hoff : off < 64)
    (hu : size ≠ .b32 ∨ off % 4 ≠ 0)
    (hin : s.inbox = .regRead (s.params.regBase + off) size :: rest ∨
      s.inbox = .regWrite (s.params.regBase + off) size v :: rest) :
    step s = .refused (.regAccessUndefined (s.params.regBase + off)) := by
  have hd := decodeAccess_undefined s.params off size hoff hu
  rcases hin with hin | hin
  · rw [step_cons s _ rest hin]
    simp only [inputTurn, hostRegRead, hd]
  · rw [step_cons s _ rest hin]
    simp only [inputTurn, hostRegWrite, hd]

/-- Settles O7: the printed map is `regOffset` over the window. -/
theorem registerAccessesReachTheWindow : Obligations.RegisterAccessesReachTheWindow := by
  refine ⟨fun s off r v rest hmap => ?_, step_undefinedAccess, fun s => ⟨rfl, rfl⟩⟩
  have hoff : off = regOffset r := by
    replace hmap : (off, r) ∈ windowRegs.map fun q => (regOffset q, q) := hmap
    simp only [List.mem_map, Prod.mk.injEq] at hmap
    obtain ⟨q, -, hq, rfl⟩ := hmap
    exact hq.symm
  subst hoff
  exact ⟨rfl, step_regRead s r rest, step_regWrite s r v rest⟩

/-! Writes. -/

/-- What a write to an input register stores when it is not dropped. -/
def storeInput (r : Reg) (v : Word) (s : State) : State :=
  match r with
  | .cfg => { s with cfg := cfgOfWord v }
  | .bufAddr => { s with bufAddr := maskAddr s.params v }
  | .twAddr => { s with twAddr := maskAddr s.params v }
  | .twStride => { s with twStride := v.extractLsb' 0 16 }
  | .twLen => { s with twLen := v }
  | .brAddr => { s with brAddr := maskAddr s.params v }
  | .brCount => { s with brCount := v.extractLsb' 0 16 }
  | .opa => { s with opa := v }
  | .opb => { s with opb := v }
  | _ => s

/-- A write to an input register is stored, or dropped while `BUSY` is set (10_state.md R40). -/
theorem writeReg_input (r : Reg) (v : Word) (s : State) (h : r ∈ inputRegs) :
    writeReg r v s = writeInput s (storeInput r v s) := by
  cases r with
  | cfg => rfl
  | bufAddr => rfl
  | twAddr => rfl
  | twStride => rfl
  | twLen => rfl
  | brAddr => rfl
  | brCount => rfl
  | opa => rfl
  | opb => rfl
  | _ => exact absurd h (by decide)

theorem writeInput_busy (s t : State) (h : s.status.busy = true) : writeInput s t = dropWrite s := by
  unfold writeInput
  rw [if_pos h]

theorem writeInput_idle (s t : State) (h : s.status.busy = false) : writeInput s t = t := by
  unfold writeInput
  rw [if_neg (by simp [h])]

/-- All that a register write can do (10_state.md R40). -/
inductive RegWrite (r : Reg) (v : Word) (s : State) : State → Prop where
  /-- A read-only register or offset 0x3C. -/
  | ignored (hr : r ∈ [Reg.id, .errInfo, .res, .reserved]) : RegWrite r v s s
  | dropped (h : (r = .cmd ∧ (s.status.busy = true ∨ s.status.err = true)) ∨
      (r ∈ inputRegs ∧ s.status.busy = true)) : RegWrite r v s (dropWrite s)
  | accepted (hr : r = .cmd) (hb : s.status.busy = false) (he : s.status.err = false) : RegWrite r v s (accept v s)
  | stored (hr : r ∈ inputRegs) (hb : s.status.busy = false) : RegWrite r v s (storeInput r v s)
  | acknowledged (hr : r = .status) : RegWrite r v s (acknowledge v s)
  | enables (hr : r = .ctrl) (hv : v.getLsbD 31 = false) : RegWrite r v s { s with ctrl := ctrlOfWord v }
  | softReset (hr : r = .ctrl) (hv : v.getLsbD 31 = true) : RegWrite r v s (applyReset s)

theorem regWrite_cmd (v : Word) (s : State) : RegWrite .cmd v s (writeCmd v s) := by
  unfold writeCmd
  split
  · rename_i hset
    exact .dropped (.inl ⟨rfl, by simpa using hset⟩)
  · rename_i hfree
    obtain ⟨hb, he⟩ : s.status.busy = false ∧ s.status.err = false := by simpa using hfree
    exact .accepted rfl hb he

theorem regWrite_ctrl (v : Word) (s : State) : RegWrite .ctrl v s (writeCtrl v s) := by
  unfold writeCtrl
  split
  · exact .softReset rfl ‹_›
  · exact .enables rfl (Bool.eq_false_of_not_eq_true ‹_›)

theorem regWrite_input (r : Reg) (v : Word) (s : State) (h : r ∈ inputRegs) : RegWrite r v s (writeReg r v s) := by
  rw [writeReg_input r v s h]
  cases hb : s.status.busy with
  | true =>
    rw [writeInput_busy s _ hb]
    exact .dropped (.inr ⟨h, hb⟩)
  | false =>
    rw [writeInput_idle s _ hb]
    exact .stored h hb

theorem regWrite_writeReg (r : Reg) (v : Word) (s : State) : RegWrite r v s (writeReg r v s) := by
  by_cases hin : r ∈ inputRegs
  · exact regWrite_input r v s hin
  cases r with
  | id => exact .ignored (by decide)
  | ctrl => exact regWrite_ctrl v s
  | status => exact .acknowledged rfl
  | cmd => exact regWrite_cmd v s
  | errInfo => exact .ignored (by decide)
  | res => exact .ignored (by decide)
  | reserved => exact .ignored (by decide)
  | _ => exact absurd (by decide) hin

/-- Settles O10: a `STATUS` write is the acknowledge. -/
theorem statusWriteClearsByOnes : Obligations.StatusWriteClearsByOnes :=
  fun s v rest => step_regWrite s .status v rest

end Sys2Proof.Machine
end

section
/-! Hardware and soft reset (10_state.md R44, 70_reset_and_hazards.md R260 to R262). -/

namespace Sys2Proof.Machine

/-- A reset gives every register its reset value; of the rest only data memory and the draw counter may change. -/
theorem applyReset_eq (s : State) :
    applyReset s = { State.resetOf s.params with
      mem := (applyReset s).mem
      resetIn := s.resetIn
      inbox := s.inbox
      busErrs := s.busErrs
      freeCount := (applyReset s).freeCount
      readData := s.readData } := by
  unfold applyReset
  split
  · rfl
  · unfold clearRegisters
    simp only [freeBuffer_params, freeBuffer_resetIn, freeBuffer_inbox, freeBuffer_busErrs, freeBuffer_readData]

@[simp] theorem applyReset_ctrl (s : State) : (applyReset s).ctrl = { ieDone := false, ieErr := false } := by
  rw [applyReset_eq]; rfl
@[simp] theorem applyReset_status (s : State) :
    (applyReset s).status = { busy := false, done := false, err := false, ovr := false, errcode := 0#8 } := by
  rw [applyReset_eq]; rfl
@[simp] theorem applyReset_res (s : State) : (applyReset s).res = 0#32 := by
  rw [applyReset_eq]; rfl
@[simp] theorem applyReset_resetIn (s : State) : (applyReset s).resetIn = s.resetIn := by
  rw [applyReset_eq]

/-- With no command in flight data memory is kept (70_reset_and_hazards.md R262). -/
theorem applyReset_mem_idle (s : State) (h : runningCommand s = none) : (applyReset s).mem = s.mem := by
  unfold applyReset
  rw [h]
  rfl

theorem freeBuffer_without_regions (i : Instr) (s : State) (h : regions i s = []) : freeBuffer i s = s := by
  unfold freeBuffer
  rw [h]

/-- With a command in flight every byte outside its buffer is kept (70_reset_and_hazards.md R262). -/
theorem memByte_applyReset_outside (s : State) (i : Instr) (a : Nat) (hi : runningCommand s = some i)
    (h : regions i s = [] ∨ OutsideRegion (bufRegion s) a) : memByte (applyReset s).mem a = memByte s.mem a := by
  have happly : (applyReset s).mem = (freeBuffer i s).mem := by
    unfold applyReset
    rw [hi]
    rfl
  rw [happly]
  rcases h with h | h
  · rw [freeBuffer_without_regions i s h]
  · exact memByte_freeBuffer_outside i s a h

/-- An input that resets the block, and the level of the reset input after it: the line is asserted or released, or a
`CTRL` write out of reset has `SRST` set. -/
def ResetInput (s : State) (b : Bool) (v : Word) (rest : List Event) : Prop :=
  (s.inbox = .resetLine b :: rest ∧ (b = true ∨ s.resetIn = true)) ∨
    (s.inbox = .regWrite (regAddr s.params .ctrl) .b32 v :: rest ∧ v.getLsbD 31 = true ∧ s.resetIn = false ∧ b = false)

/-- Every such input does the same but for the level of the reset input. -/
theorem step_resetInput (s : State) (b : Bool) (v : Word) (rest : List Event) (h : ResetInput s b v rest) :
    step s = .next { applyReset { s with inbox := rest } with resetIn := b } := by
  rcases h with ⟨hin, hb⟩ | ⟨hin, hv, hr, rfl⟩
  · rw [step_cons s _ rest hin]
    exact congrArg _ (setResetLine_driven b { s with inbox := rest } hb)
  · have hlevel : (applyReset { s with inbox := rest }).resetIn = false := by simpa using hr
    have hwrite : writeReg .ctrl v { s with inbox := rest } = applyReset { s with inbox := rest } := if_pos hv
    rw [step_regWrite s .ctrl v rest hin hr, hwrite, ← hlevel]

/-- Settles O14: the inputs that reset share one step, whose registers and memory the lemmas on `applyReset` give. -/
theorem resetClearsRegistersAndAbandonsTheCommand : Obligations.ResetClearsRegistersAndAbandonsTheCommand := by
  refine ⟨fun s b v rest h => ?_, fun s rest hr hin => ?_⟩
  · refine ⟨_, step_resetInput s b v rest h, ?_, ?_, fun hi => ?_, fun i hi a ha => ?_⟩
    · rw [applyReset_eq]
    · simp [State.irq]
    · exact applyReset_mem_idle { s with inbox := rest } hi
    · exact memByte_applyReset_outside { s with inbox := rest } i a hi ha
  · rw [step_cons s _ rest hin]
    exact congrArg _ (setResetLine_released { s with inbox := rest } hr)

end Sys2Proof.Machine
end

section
/-! Writable and reserved bits: what a stored write reads back as, and what it leaves alone (10_state.md R24, R40). -/

namespace Sys2Proof.Machine

/-! One lemma per field: a stored write sets its own register. -/

theorem storeInput_cfg (r : Reg) (v : Word) (s : State) :
    (storeInput r v s).cfg = if r = .cfg then cfgOfWord v else s.cfg := by cases r <;> rfl
theorem storeInput_bufAddr (r : Reg) (v : Word) (s : State) :
    (storeInput r v s).bufAddr = if r = .bufAddr then maskAddr s.params v else s.bufAddr := by cases r <;> rfl
theorem storeInput_twAddr (r : Reg) (v : Word) (s : State) :
    (storeInput r v s).twAddr = if r = .twAddr then maskAddr s.params v else s.twAddr := by cases r <;> rfl
theorem storeInput_twStride (r : Reg) (v : Word) (s : State) :
    (storeInput r v s).twStride = if r = .twStride then v.extractLsb' 0 16 else s.twStride := by cases r <;> rfl
theorem storeInput_twLen (r : Reg) (v : Word) (s : State) :
    (storeInput r v s).twLen = if r = .twLen then v else s.twLen := by cases r <;> rfl
theorem storeInput_brAddr (r : Reg) (v : Word) (s : State) :
    (storeInput r v s).brAddr = if r = .brAddr then maskAddr s.params v else s.brAddr := by cases r <;> rfl
theorem storeInput_brCount (r : Reg) (v : Word) (s : State) :
    (storeInput r v s).brCount = if r = .brCount then v.extractLsb' 0 16 else s.brCount := by cases r <;> rfl
theorem storeInput_opa (r : Reg) (v : Word) (s : State) :
    (storeInput r v s).opa = if r = .opa then v else s.opa := by cases r <;> rfl
theorem storeInput_opb (r : Reg) (v : Word) (s : State) :
    (storeInput r v s).opb = if r = .opb then v else s.opb := by cases r <;> rfl

@[simp] theorem storeInput_params (r : Reg) (v : Word) (s : State) : (storeInput r v s).params = s.params := by
  cases r <;> rfl
@[simp] theorem storeInput_ctrl (r : Reg) (v : Word) (s : State) : (storeInput r v s).ctrl = s.ctrl := by
  cases r <;> rfl
@[simp] theorem storeInput_status (r : Reg) (v : Word) (s : State) : (storeInput r v s).status = s.status := by
  cases r <;> rfl
@[simp] theorem storeInput_errInfo (r : Reg) (v : Word) (s : State) : (storeInput r v s).errInfo = s.errInfo := by
  cases r <;> rfl
@[simp] theorem storeInput_res (r : Reg) (v : Word) (s : State) : (storeInput r v s).res = s.res := by
  cases r <;> rfl
@[simp] theorem storeInput_latch (r : Reg) (v : Word) (s : State) : (storeInput r v s).latch = s.latch := by
  cases r <;> rfl
@[simp] theorem storeInput_mem (r : Reg) (v : Word) (s : State) : (storeInput r v s).mem = s.mem := by
  cases r <;> rfl

/-- A stored write leaves every other register. -/
theorem readReg_storeInput_other (q r : Reg) (v : Word) (s : State) (h : q ≠ r) :
    readReg q (storeInput r v s) = readReg q s := by
  have hr : ∀ p : Reg, p = q → r ≠ p := fun p hp hrp => h (hp ▸ hrp.symm)
  cases q with
  | id => simp [readReg]
  | ctrl => simp [readReg]
  | status => simp [readReg]
  | cmd => rfl
  | cfg => simp [readReg, storeInput_cfg, hr]
  | bufAddr => simp [readReg, storeInput_bufAddr, hr]
  | twAddr => simp [readReg, storeInput_twAddr, hr]
  | twStride => simp [readReg, storeInput_twStride, hr]
  | twLen => simp [readReg, storeInput_twLen, hr]
  | brAddr => simp [readReg, storeInput_brAddr, hr]
  | brCount => simp [readReg, storeInput_brCount, hr]
  | errInfo => simp [readReg]
  | opa => simp [readReg, storeInput_opa, hr]
  | opb => simp [readReg, storeInput_opb, hr]
  | res => simp [readReg]
  | reserved => rfl

/-! What is stored reads back on the writable bits. -/

theorem ctrlWord_ctrlOfWord (p : Config.Params) (v : Word) : ctrlWord (ctrlOfWord v) = v &&& writableBits p .ctrl := by
  unfold ctrlOfWord
  rw [ctrlWord_eq, bit_getLsbD, bit_getLsbD, ← BitVec.and_or_distrib_left]
  rfl

theorem cfgWord_cfgOfWord (p : Config.Params) (v : Word) : cfgWord (cfgOfWord v) = v &&& writableBits p .cfg := by
  have hdir : decide ((cfgOfWord v).dir = .inv) = v.getLsbD 4 := by
    unfold cfgOfWord
    cases v.getLsbD 4 <;> rfl
  have hord : decide ((cfgOfWord v).ord = .natural) = v.getLsbD 5 := by
    unfold cfgOfWord
    cases v.getLsbD 5 <;> rfl
  have hlen : (cfgOfWord v).log4n = v.extractLsb' 0 4 := rfl
  rw [cfgWord_eq, hdir, hord, hlen, field_extractLsb', bit_getLsbD, bit_getLsbD, ← BitVec.and_or_distrib_left,
    ← BitVec.and_or_distrib_left]
  rfl

theorem setWidth_extractLsb'_half (v : Word) : (v.extractLsb' 0 16).setWidth 32 = v &&& 0x0000FFFF#32 := by
  rw [setWidth_eq_field, field_extractLsb']
  rfl

theorem readReg_storeInput_same (r : Reg) (v : Word) (s : State) (h : r ∈ inputRegs) :
    readReg r (storeInput r v s) = v &&& writableBits s.params r := by
  cases r with
  | cfg => exact cfgWord_cfgOfWord s.params v
  | bufAddr => exact maskAddr_eq_and s.params v
  | twAddr => exact maskAddr_eq_and s.params v
  | brAddr => exact maskAddr_eq_and s.params v
  | twStride => exact setWidth_extractLsb'_half v
  | brCount => exact setWidth_extractLsb'_half v
  | twLen => exact BitVec.and_allOnes.symm
  | opa => exact BitVec.and_allOnes.symm
  | opb => exact BitVec.and_allOnes.symm
  | _ => exact absurd h (by decide)

/-- The four flags that a `STATUS` read shows in bits [3:0] (10_state.md R27). -/
theorem statusWord_flags (st : Status) :
    statusWord st &&& 0x0000000F#32 = bit st.busy 0 ||| bit st.done 1 ||| bit st.err 2 ||| bit st.ovr 3 := by
  have herr : field st.errcode 8 &&& 0x0000000F#32 = 0#32 := field_and_eq_zero _ _ _ (by decide)
  simp only [statusWord_eq, BitVec.and_or_distrib_right, herr, bit_and]
  simp

/-- A `STATUS` write clears the flags it writes 1 to, `BUSY` excepted (10_state.md R27). -/
theorem statusWord_writeOneToClear (p : Config.Params) (st : Status) (v : Word) :
    statusWord (st.writeOneToClear v) &&& 0x0000000F#32 =
      statusWord st &&& 0x0000000F#32 &&& ~~~ (v &&& writableBits p .status) := by
  simp only [statusWord_flags, BitVec.and_or_distrib_right, bit_and, writableBits, BitVec.getLsbD_not,
    BitVec.getLsbD_and]
  simp [-BitVec.getLsbD_eq_getElem]

/-- Settles O11: input writes by `storeInput`, `CTRL` and `STATUS` writes by the words they leave. -/
theorem inputWritesDropOrTakeEffect : Obligations.InputWritesDropOrTakeEffect := by
  intro s r v
  refine ⟨fun hr hb => ?_, fun hr hb => ?_, fun hv => ?_, fun hv => ?_, ?_, fun hr => ?_⟩
  · rw [writeReg_input r v s hr, writeInput_busy s _ hb]
    rfl
  · rw [writeReg_input r v s hr, writeInput_idle s _ hb]
    exact ⟨readReg_storeInput_same r v s hr, fun q hq => readReg_storeInput_other q r v s hq, storeInput_latch r v s,
      storeInput_mem r v s⟩
  · have hw : writeReg .ctrl v s = { s with ctrl := ctrlOfWord v } := if_neg (by rw [hv]; decide)
    rw [hw]
    exact ⟨ctrlWord_ctrlOfWord s.params v, rfl⟩
  · have hw : writeReg .ctrl v s = applyReset s := if_pos hv
    rw [hw]
    exact ⟨congrArg ctrlWord (applyReset_ctrl s), by rw [applyReset_status]⟩
  · exact statusWord_writeOneToClear s.params s.status v
  · simp only [List.mem_cons, List.not_mem_nil, or_false] at hr
    rcases hr with rfl | rfl | rfl | rfl <;> rfl

/-! Reserved bits. -/

/-- Two words that agree under a mask agree on every part of the word where the mask is all ones. -/
theorem extractLsb'_eq_of_masked {v u m : Word} (h : v &&& m = u &&& m) (k n : Nat)
    (hm : m.extractLsb' k n = BitVec.allOnes n) : v.extractLsb' k n = u.extractLsb' k n := by
  have := congrArg (BitVec.extractLsb' k n) h
  rwa [BitVec.extractLsb'_and, BitVec.extractLsb'_and, hm, BitVec.and_allOnes, BitVec.and_allOnes] at this

theorem getLsbD_eq_of_masked {v u m : Word} (h : v &&& m = u &&& m) (k : Nat) (hm : m.getLsbD k = true) :
    v.getLsbD k = u.getLsbD k := by
  have := congrArg (BitVec.getLsbD · k) h
  simpa only [BitVec.getLsbD_and, hm, Bool.and_true] using this

theorem readReg_and_reservedBits (s : State) (r : Reg) (hbuf : s.bufAddr.toNat < 2 ^ s.params.addrW)
    (htw : s.twAddr.toNat < 2 ^ s.params.addrW) (hbr : s.brAddr.toNat < 2 ^ s.params.addrW) :
    readReg r s &&& reservedBits s.params r = 0#32 := by
  cases r with
  | id =>
    simp (disch := decide) only [readReg, reservedBits, idWord_eq, BitVec.and_or_distrib_right, bit_and,
      field_and_eq_zero]
    simp
  | ctrl =>
    simp only [readReg, reservedBits, ctrlWord_eq, BitVec.and_or_distrib_right, bit_and]
    simp
  | status =>
    simp (disch := decide) only [readReg, reservedBits, statusWord_eq, BitVec.and_or_distrib_right, bit_and,
      field_and_eq_zero]
    simp
  | cfg =>
    simp (disch := decide) only [readReg, reservedBits, cfgWord_eq, BitVec.and_or_distrib_right, bit_and,
      field_and_eq_zero]
    simp
  | bufAddr => exact and_not_addrMask s.params _ hbuf
  | twAddr => exact and_not_addrMask s.params _ htw
  | brAddr => exact and_not_addrMask s.params _ hbr
  | twStride =>
    simp only [readReg, reservedBits, setWidth_eq_field]
    exact field_and_eq_zero _ _ _ (by decide)
  | brCount =>
    simp only [readReg, reservedBits, setWidth_eq_field]
    exact field_and_eq_zero _ _ _ (by decide)
  | cmd => exact BitVec.zero_and
  | twLen => exact BitVec.and_zero
  | errInfo => exact BitVec.and_zero
  | opa => exact BitVec.and_zero
  | opb => exact BitVec.and_zero
  | res => exact BitVec.and_zero
  | reserved => exact BitVec.zero_and

theorem maskAddr_eq_of_masked (p : Config.Params) (v u : Word)
    (h : v &&& ~~~ ~~~ BitVec.ofNat 32 (2 ^ p.addrW - 1) = u &&& ~~~ ~~~ BitVec.ofNat 32 (2 ^ p.addrW - 1)) :
    maskAddr p v = maskAddr p u := by
  rwa [BitVec.not_not, ← maskAddr_eq_and, ← maskAddr_eq_and] at h

theorem eq_of_masked_zero {v u : Word} (h : v &&& ~~~ 0#32 = u &&& ~~~ 0#32) : v = u := by
  rwa [BitVec.not_zero, BitVec.and_allOnes, BitVec.and_allOnes] at h

/-- No register but `CMD` keeps anything of its reserved bits (10_state.md R24). -/
theorem writeReg_eq_of_masked (r : Reg) (v u : Word) (s : State) (hr : r ≠ .cmd)
    (h : v &&& ~~~ reservedBits s.params r = u &&& ~~~ reservedBits s.params r) : writeReg r v s = writeReg r u s := by
  cases r with
  | id => rfl
  | ctrl =>
    simp only [reservedBits] at h
    simp only [writeReg, writeCtrl, ctrlOfWord, getLsbD_eq_of_masked h 0 (by decide),
      getLsbD_eq_of_masked h 1 (by decide), getLsbD_eq_of_masked h 31 (by decide)]
  | status =>
    simp only [reservedBits] at h
    simp only [writeReg, acknowledge, Status.writeOneToClear, getLsbD_eq_of_masked h 1 (by decide),
      getLsbD_eq_of_masked h 2 (by decide), getLsbD_eq_of_masked h 3 (by decide)]
  | cmd => exact absurd rfl hr
  | cfg =>
    simp only [reservedBits] at h
    simp only [writeReg, cfgOfWord, extractLsb'_eq_of_masked h 0 4 (by decide),
      getLsbD_eq_of_masked h 4 (by decide), getLsbD_eq_of_masked h 5 (by decide)]
  | bufAddr => simp only [writeReg, maskAddr_eq_of_masked s.params v u h]
  | twAddr => simp only [writeReg, maskAddr_eq_of_masked s.params v u h]
  | twStride =>
    simp only [reservedBits] at h
    simp only [writeReg, extractLsb'_eq_of_masked h 0 16 (by decide)]
  | twLen => rw [eq_of_masked_zero h]
  | brAddr => simp only [writeReg, maskAddr_eq_of_masked s.params v u h]
  | brCount =>
    simp only [reservedBits] at h
    simp only [writeReg, extractLsb'_eq_of_masked h 0 16 (by decide)]
  | errInfo => rfl
  | opa => rw [eq_of_masked_zero h]
  | opb => rw [eq_of_masked_zero h]
  | res => rfl
  | reserved => rfl

/-- A command word with a bit of [31:8] set is rejected (30_encoding.md R92). -/
theorem decode_reservedBits (v : Word) (h : v &&& 0xFFFFFF00#32 ≠ 0#32) : decode v = .error .reservedBits := by
  unfold decode
  refine if_pos fun hv => h ?_
  calc v &&& 0xFFFFFF00#32 = field (v.extractLsb' 8 24) 8 := (field_extractLsb' v 8 24).symm
    _ = 0#32 := by rw [hv, field_zero]

/-- Settles O12: reserved bits are read as 0, stored nowhere, and refused by the decoder. -/
theorem reservedBitsReadZeroAndIgnoreWrites : Obligations.ReservedBitsReadZeroAndIgnoreWrites :=
  fun s r v u hbuf htw hbr =>
    ⟨readReg_and_reservedBits s r hbuf htw hbr, writeReg_eq_of_masked r v u s, fun h => ⟨_, decode_reservedBits v h⟩⟩

end Sys2Proof.Machine
end

section
/-! A command depends on its registers, the parameters, data memory and the platform's answers only (10_state.md R43). -/

namespace Sys2Proof.Machine

/-- `s` with other interrupt enables, another last read, other inputs to come and another latch. -/
def State.withHost (s : State) (c : Ctrl) (d : Word) (q : List Event) (l : Option Word) : State :=
  { s with ctrl := c, readData := d, inbox := q, latch := l }

section

variable (i : Instr) (s : State) (c : Ctrl) (d : Word) (q : List Event) (l : Option Word)

theorem regions_withHost : regions i (s.withHost c d q l) = regions i s := rfl

theorem validate_withHost : validate i (s.withHost c d q l) = validate i s := rfl

theorem bufferOverlaps_withHost : bufferOverlaps i (s.withHost c d q l) = bufferOverlaps i s := rfl

theorem engStart_withHost : engStart i (s.withHost c d q l) = engStart i s := rfl

theorem stageTwoLevels_withHost (dir : Dir) (levels : Nat) :
    ∀ n1 st, stageTwoLevels (s.withHost c d q l) dir levels n1 st = stageTwoLevels s dir levels n1 st := by
  induction levels with
  | zero => exact fun _ _ => rfl
  | succ k ih => exact fun n1 st => congrArg (stageTwoLevel s dir n1 st >>= fun _ => ·) (ih _ _)

theorem stageTwo_withHost (dir : Dir) : stageTwo (s.withHost c d q l) dir = stageTwo s dir :=
  stageTwoLevels_withHost s c d q l dir _ _ _

theorem transform_withHost : transform (s.withHost c d q l) = transform s := by
  have hcfg : (s.withHost c d q l).cfg = s.cfg := rfl
  unfold transform
  rw [hcfg, stageTwo_withHost]
  rfl

theorem commandBody_withHost : commandBody i (s.withHost c d q l) = commandBody i s := by
  cases i with
  | nop => rfl
  | stg1f => rfl
  | stg1i => rfl
  | stg2f => exact stageTwo_withHost s c d q l .fwd
  | stg2i => exact stageTwo_withHost s c d q l .inv
  | stg3f => rfl
  | stg3i => rfl
  | bitrev => rfl
  | xform => exact transform_withHost s c d q l
  | rotf => rfl
  | roti => rfl
  | presc => rfl

theorem freeBuffer_withHost : freeBuffer i (s.withHost c d q l) = (freeBuffer i s).withHost c d q l := by
  unfold freeBuffer
  rw [regions_withHost]
  split <;> rfl

theorem settleRaces_withHost : settleRaces i (s.withHost c d q l) = (settleRaces i s).withHost c d q l := by
  have hraces : (s.withHost c d q l).races = s.races := rfl
  unfold settleRaces
  rw [hraces, freeBuffer_withHost]
  split <;> rfl

theorem raiseError_withHost (x : CmdError) :
    raiseError x (s.withHost c d q l) = (raiseError x s).withHost c d q none := rfl

theorem complete_withHost : complete (s.withHost c d q l) = (complete s).withHost c d q none := rfl

theorem endWithError_withHost (x : CmdError) :
    endWithError i x (s.withHost c d q l) = (endWithError i x s).withHost c d q none := by
  cases x with
  | busErr a =>
    simp only [endWithError, freeBuffer_withHost, settleRaces_withHost, raiseError_withHost]
  | _ => simp only [endWithError, settleRaces_withHost, raiseError_withHost]

theorem endWithSuccess_withHost (e : Eng) :
    endWithSuccess i e (s.withHost c d q l) = (endWithSuccess i e s).withHost c d q none := by
  have hmem : { s.withHost c d q l with mem := e.mem, busErrs := e.bus } =
      ({ s with mem := e.mem, busErrs := e.bus } : State).withHost c d q l := rfl
  unfold endWithSuccess
  rw [hmem, bufferOverlaps_withHost]
  split
  · simp only [freeBuffer_withHost, settleRaces_withHost, complete_withHost]
  · simp only [settleRaces_withHost, complete_withHost]

theorem runCommand_withHost (body : EngM Unit) :
    ∃ t, runCommand i body s = .next t ∧ runCommand i body (s.withHost c d q l) = .next (t.withHost c d q none) := by
  unfold runCommand
  rw [validate_withHost, engStart_withHost]
  cases validate i s with
  | some x => exact ⟨_, rfl, congrArg _ (endWithError_withHost i s c d q l x)⟩
  | none =>
    cases body (engStart i s) with
    | ok u e => exact ⟨_, rfl, congrArg _ (endWithSuccess_withHost i s c d q l e)⟩
    | error x e => exact ⟨_, rfl, congrArg _ (endWithError_withHost i { s with busErrs := e.bus } c d q l x)⟩

/-- Every command answers the same next state, but for what it does not read. -/
theorem exec_withHost : ∃ t, exec i s = .next t ∧ exec i (s.withHost c d q l) = .next (t.withHost c d q none) := by
  cases hu : usesLength i with
  | true =>
    rw [exec_eq_runCommand i s hu, exec_eq_runCommand i _ hu, commandBody_withHost]
    exact runCommand_withHost i s c d q l _
  | false =>
    cases i with
    | nop => exact ⟨_, rfl, rfl⟩
    | rotf => exact ⟨_, rfl, rfl⟩
    | roti => exact ⟨_, rfl, rfl⟩
    | presc => exact ⟨_, rfl, rfl⟩
    | _ => cases hu

end

/-- All the ways a command can end leave no command and `BUSY` = 0, and keep `OVR` (60_exceptions.md R237, R238). -/
theorem exec_end (i : Instr) (s t : State) (h : exec i s = .next t) :
    t.latch = none ∧ t.status.busy = false ∧ t.status.ovr = s.status.ovr := by
  rcases exec_cases i s t h with ⟨-, r, rfl⟩ | ⟨-, x, bus, rfl⟩ | ⟨-, -, e, -, rfl⟩
  · exact ⟨rfl, rfl, rfl⟩
  · rcases endWithError_cases i x { s with busErrs := bus } with he | ⟨-, he⟩
    · simp [he]
    · simp [he]
  · unfold endWithSuccess
    split
    · simp
    · simp

/-- Settles O54: every command ends with an empty latch, so even that is the same in both next states. -/
theorem commandsHaveNoResidualState : Obligations.CommandsHaveNoResidualState := by
  intro i s c d q l
  obtain ⟨t, ht, hother⟩ := exec_withHost i s c d q l
  obtain ⟨hlatch, -, -⟩ := exec_end i s t ht
  refine ⟨t, ht, hother.trans ?_⟩
  rw [← hlatch]
  rfl

end Sys2Proof.Machine
end

section
/-! What a move can change: `RES` (10_state.md R39, R44), the inputs of a running command (R40) and `OVR` (R40,
60_exceptions.md R244). -/

namespace Sys2Proof.Machine

/-! The engine's turn. -/

/-- The engine's turn idles, or ends the latched word. -/
theorem engineTurn_end (s t : State) (h : engineTurn s = .next t) :
    t = s ∨ (t.latch = none ∧ t.status.busy = false ∧ t.status.ovr = s.status.ovr) := by
  rcases engineTurn_cases s with ⟨-, he⟩ | ⟨w, i, -, -, he⟩ | ⟨w, r, -, -, he⟩
  · rw [he] at h
    cases h
    exact .inl rfl
  · rw [he] at h
    exact .inr (exec_end i s t h)
  · rw [he] at h
    cases h
    exact .inr ⟨rfl, rfl, rfl⟩

theorem endWithError_res (i : Instr) (x : CmdError) (s : State) : (endWithError i x s).res = s.res := by
  rcases endWithError_cases i x s with h | ⟨-, h⟩
  · simp [h]
  · simp [h]

theorem endWithSuccess_res (i : Instr) (e : Eng) (s : State) : (endWithSuccess i e s).res = s.res := by
  unfold endWithSuccess
  split
  · simp
  · simp

/-- Only `ROTF`, `ROTI` and `PRESC` change `RES`, and they succeed (40_datapath.md R122 to R124). -/
theorem exec_changes_res (i : Instr) (s t : State) (h : exec i s = .next t) (hres : t.res ≠ s.res) :
    i ∈ [Instr.rotf, .roti, .presc] ∧ t.status.done = true := by
  rcases exec_cases i s t h with ⟨hu, r, rfl⟩ | ⟨-, x, bus, rfl⟩ | ⟨-, -, e, -, rfl⟩
  · refine ⟨?_, rfl⟩
    cases i with
    | nop =>
      obtain rfl : s.res = r := congrArg State.res (Host.Outcome.next.inj h)
      exact absurd rfl hres
    | rotf => decide
    | roti => decide
    | presc => decide
    | _ => cases hu
  · exact absurd (endWithError_res i x _) hres
  · exact absurd (endWithSuccess_res i e s) hres

theorem engineTurn_changes_res (s t : State) (h : engineTurn s = .next t) (hres : t.res ≠ s.res) :
    ∃ i ∈ [Instr.rotf, .roti, .presc], runningCommand s = some i ∧ exec i s = .next t ∧ t.status.done = true := by
  rcases engineTurn_cases s with ⟨-, he⟩ | ⟨w, i, hl, hd, he⟩ | ⟨w, r, -, -, he⟩
  · rw [he] at h
    cases h
    exact absurd rfl hres
  · rw [he] at h
    obtain ⟨hi, hdone⟩ := exec_changes_res i s t h hres
    exact ⟨i, hi, (runningCommand_of_decode s w hl).1 i hd, h, hdone⟩
  · rw [he] at h
    cases h
    exact absurd rfl hres

/-! Host stores. -/

/-- A store that goes on changes data memory, and draws a value and records the race when it races (20_memory.md R77). -/
theorem hostStore_next (a : Nat) (size : AccessSize) (v : Word) (s t : State) (h : hostStore a size v s = .next t) :
    ∃ m n ws, t = { s with mem := m, freeCount := n, races := ws } := by
  unfold hostStore at h
  split at h
  · cases h
  · split at h
    · cases h
      exact ⟨_, _, _, rfl⟩
    · cases h
      exact ⟨_, s.freeCount, s.races, rfl⟩

/-! The reset input. -/

/-- Driving the reset input resets the block, or does nothing (log entry 12). -/
theorem setResetLine_cases (b : Bool) (s : State) :
    ((b = true ∨ s.resetIn = true) ∧ setResetLine b s = { applyReset s with resetIn := b }) ∨ setResetLine b s = s := by
  by_cases h : b = true ∨ s.resetIn = true
  · exact .inl ⟨h, setResetLine_driven b s h⟩
  · obtain ⟨rfl, hr⟩ : b = false ∧ s.resetIn = false := by simpa using h
    exact .inr (setResetLine_released s hr)

/-! `RES`. -/

theorem regWrite_changes_res {r : Reg} {v : Word} {s t : State} (h : RegWrite r v s t) (hres : t.res ≠ s.res) :
    r = .ctrl ∧ v.getLsbD 31 = true ∧ t.res = 0#32 := by
  cases h with
  | softReset hr hv => exact ⟨hr, hv, applyReset_res s⟩
  | stored hr hb => exact absurd (storeInput_res r v s) hres
  | _ => exact absurd rfl hres

/-- Settles O47: of the moves, only the end of a primitive command and a reset change `RES`. -/
theorem onlyPrimitivesAndResetChangeRes : Obligations.OnlyPrimitivesAndResetChangeRes := by
  intro s t hstep hres
  cases move_of_step s t hstep with
  | engine q d hin ht =>
    obtain ⟨i, hi, hrun, hexec, hdone⟩ := engineTurn_changes_res _ t ht hres
    obtain ⟨u, hu, hother⟩ := exec_withHost i s s.ctrl d q s.latch
    obtain rfl : t = u.withHost s.ctrl d q none := Host.Outcome.next.inj (hexec.symm.trans hother)
    refine .inl ⟨i, u, hi, hrun, hu, rfl, rfl, hdone, ?_⟩
    rcases hin with ⟨hnil, -⟩ | hengine | ⟨rfl, hpoll⟩
    · exact .inl hnil
    · exact .inr (.inl ⟨q, hengine⟩)
    · exact .inr (.inr hpoll)
  | quiet q n d => exact absurd rfl hres
  | write r v q hin hr =>
    obtain ⟨rfl, hv, hzero⟩ := regWrite_changes_res (regWrite_writeReg r v _) hres
    exact .inr ⟨hzero, .inl ⟨v, q, hin, hv⟩⟩
  | store a size v q hin ht =>
    obtain ⟨m, n, ws, rfl⟩ := hostStore_next _ _ _ _ _ ht
    exact absurd rfl hres
  | reset b q hin =>
    rcases setResetLine_cases b { s with inbox := q } with ⟨hb, he⟩ | he
    · exact .inr ⟨by rw [he]; exact applyReset_res _, .inr ⟨b, q, hin, hb⟩⟩
    · exact absurd (congrArg State.res he) hres

/-! The inputs of a running command. -/

/-- What a running command works from: the latched word and the input registers (10_state.md R40). -/
def commandInputs (s : State) : Option Word × Cfg × Word × Word × Half × Word × Word × Half × Word × Word :=
  (s.latch, s.cfg, s.bufAddr, s.twAddr, s.twStride, s.twLen, s.brAddr, s.brCount, s.opa, s.opb)

/-- A register write while `BUSY` is set resets the block, or keeps the command's inputs. -/
theorem regWrite_busy {r : Reg} {v : Word} {s t : State} (h : RegWrite r v s t) (hb : s.status.busy = true) :
    t.status.busy = false ∨ commandInputs t = commandInputs s := by
  cases h with
  | accepted _ hidle _ => rw [hb] at hidle; cases hidle
  | stored _ hidle => rw [hb] at hidle; cases hidle
  | softReset _ _ => exact .inl (by rw [applyReset_status])
  | _ => exact .inr rfl

/-- A move from `BUSY` = 1 ends the command, resets the block, or keeps the command's inputs. -/
theorem move_busy {s t : State} (h : Move s t) (hb : s.status.busy = true) :
    t.status.busy = false ∨ commandInputs t = commandInputs s := by
  cases h with
  | engine q d _ ht =>
    rcases engineTurn_end _ t ht with rfl | ⟨-, hidle, -⟩
    · exact .inr rfl
    · exact .inl hidle
  | quiet q n d => exact .inr rfl
  | write r v q _ _ => exact (regWrite_busy (regWrite_writeReg r v { s with inbox := q }) hb :)
  | store a size v q _ ht =>
    obtain ⟨m, n, ws, rfl⟩ := hostStore_next _ _ _ _ _ ht
    exact .inr rfl
  | reset b q _ =>
    rcases setResetLine_cases b { s with inbox := q } with ⟨-, he⟩ | he
    · exact .inl (by simp [he])
    · exact .inr (congrArg commandInputs he :)

/-- Settles O48: a move after which `BUSY` is still 1 keeps the command's inputs. -/
theorem busyFreezesTheCommandsInputs : Obligations.BusyFreezesTheCommandsInputs := by
  intro s t hstep hb hb'
  rcases move_busy (move_of_step s t hstep) hb with hidle | hkept
  · rw [hb'] at hidle
    cases hidle
  · simpa [commandInputs] using hkept

/-! `OVR`. -/

theorem regWrite_sets_ovr {r : Reg} {v : Word} {s t : State} (h : RegWrite r v s t) (hs : s.status.ovr = false)
    (ht : t.status.ovr = true) :
    (r = .cmd ∧ (s.status.busy = true ∨ s.status.err = true)) ∨ (r ∈ inputRegs ∧ s.status.busy = true) := by
  have hkept : t.status.ovr ≠ s.status.ovr := by rw [hs, ht]; decide
  cases h with
  | dropped hdrop => exact hdrop
  | stored _ _ => exact absurd (congrArg Status.ovr (storeInput_status r v s)) hkept
  | acknowledged _ => simp [hs] at ht
  | softReset _ _ => simp at ht
  | _ => exact absurd rfl hkept

theorem regWrite_clears_ovr {r : Reg} {v : Word} {s t : State} (h : RegWrite r v s t) (hs : s.status.ovr = true)
    (ht : t.status.ovr = false) : (r = .status ∧ v.getLsbD 3 = true) ∨ (r = .ctrl ∧ v.getLsbD 31 = true) := by
  have hkept : t.status.ovr ≠ s.status.ovr := by rw [hs, ht]; decide
  cases h with
  | dropped _ => cases ht
  | stored _ _ => exact absurd (congrArg Status.ovr (storeInput_status r v s)) hkept
  | acknowledged hr => exact .inl ⟨hr, by simpa [hs, -BitVec.getLsbD_eq_getElem] using ht⟩
  | softReset hr hv => exact .inr ⟨hr, hv⟩
  | _ => exact absurd rfl hkept

/-- Only a register write and a reset change `OVR`. -/
theorem move_changes_ovr {s t : State} (h : Move s t) (hne : t.status.ovr ≠ s.status.ovr) :
    (∃ r v q, s.inbox = .regWrite (regAddr s.params r) .b32 v :: q ∧ RegWrite r v { s with inbox := q } t) ∨
      (t.status.ovr = false ∧ ∃ b q, s.inbox = .resetLine b :: q ∧ (b = true ∨ s.resetIn = true)) := by
  cases h with
  | engine q d _ ht =>
    rcases engineTurn_end _ t ht with rfl | ⟨-, -, hovr⟩
    · exact absurd rfl hne
    · exact absurd hovr hne
  | quiet q n d => exact absurd rfl hne
  | write r v q hin _ => exact .inl ⟨r, v, q, hin, regWrite_writeReg r v _⟩
  | store a size v q _ ht =>
    obtain ⟨m, n, ws, rfl⟩ := hostStore_next _ _ _ _ _ ht
    exact absurd rfl hne
  | reset b q hin =>
    rcases setResetLine_cases b { s with inbox := q } with ⟨hb, he⟩ | he
    · exact .inr ⟨by simp [he], b, q, hin, hb⟩
    · exact absurd (congrArg (·.status.ovr) he) hne

/-- Settles O50: of the register writes, drops set `OVR`, and a W1C write and a soft reset clear it; the reset input only
clears it. -/
theorem overrunIsStickyAndSetByDrops : Obligations.OverrunIsStickyAndSetByDrops := by
  intro s t hstep
  have hmove := move_of_step s t hstep
  refine ⟨fun hs ht => ?_, fun hs ht => ?_⟩
  · rcases move_changes_ovr hmove (by rw [hs, ht]; decide) with ⟨r, v, q, hin, hw⟩ | ⟨hclear, -⟩
    · exact ⟨r, v, q, hin, (regWrite_sets_ovr hw hs ht :)⟩
    · rw [ht] at hclear
      cases hclear
  · rcases move_changes_ovr hmove (by rw [hs, ht]; decide) with ⟨r, v, q, hin, hw⟩ | ⟨-, hreset⟩
    · rcases regWrite_clears_ovr hw hs ht with ⟨rfl, hv⟩ | ⟨rfl, hv⟩
      · exact .inl ⟨v, q, hin, hv⟩
      · exact .inr (.inl ⟨v, q, hin, hv⟩)
    · exact .inr (.inr hreset)

end Sys2Proof.Machine
end

section
/-! The frame of a command: no byte outside its buffer changes (20_memory.md R63, R77). -/

namespace Sys2Proof.Machine

/-- A write to a sample leaves every byte outside the buffer. -/
theorem survivesSamples_byteOutside (s : State) (a : Nat) (v : Byte) (h : OutsideRegion (bufRegion s) a) :
    SurvivesSamples s s.fftLen fun m _ => memByte m a = v := by
  intro k hk m w hm
  simp only [OutsideRegion, bufRegion] at h
  rw [memByte_memWrite_outside 4 m _ w a (by unfold sampleAddr; omega)]
  exact hm

@[simp] theorem bufRegion_freeBuffer (i : Instr) (s : State) : bufRegion (freeBuffer i s) = bufRegion s := by
  simp [bufRegion, State.fftLen, State.log4n]

/-- An error frees at most the buffer and settles the raced words (60_exceptions.md R236, R239). -/
theorem memByte_endWithError_outside (i : Instr) (x : CmdError) (s : State) (a : Nat)
    (h : OutsideRegion (bufRegion s) a) (hw : ∀ w ∈ s.races, a < w ∨ w + 4 ≤ a) :
    memByte (endWithError i x s).mem a = memByte s.mem a := by
  have hfree : memByte (freeBuffer i s).mem a = memByte s.mem a := memByte_freeBuffer_outside i s a h
  rcases endWithError_cases i x s with he | ⟨-, he⟩
  · rw [he, raiseError_mem, memByte_settleRaces_outside i s a h hw]
  · rw [he, raiseError_mem, memByte_settleRaces_outside i (freeBuffer i s) a _ _, hfree]
    · simpa using h
    · simpa using hw

/-- A success keeps the writes of the body, frees at most the buffer and settles the raced words
(60_exceptions.md R237). -/
theorem memByte_endWithSuccess_outside (i : Instr) (e : Eng) (s : State) (a : Nat)
    (h : OutsideRegion (bufRegion s) a) (hw : ∀ w ∈ s.races, a < w ∨ w + 4 ≤ a) :
    memByte (endWithSuccess i e s).mem a = memByte e.mem a := by
  have hfree : memByte (freeBuffer i { s with mem := e.mem, busErrs := e.bus }).mem a = memByte e.mem a :=
    memByte_freeBuffer_outside i _ a h
  unfold endWithSuccess
  rw [complete_mem]
  split
  · rw [memByte_settleRaces_outside i _ a _ _, hfree]
    · rw [bufRegion_freeBuffer]
      exact h
    · simpa using hw
  · exact memByte_settleRaces_outside i _ a h hw

/-- The body of a command that goes through leaves every byte outside the buffer. -/
theorem memByte_commandBody_outside (i : Instr) (s : State) (e : Eng) (a : Nat) (h : OutsideRegion (bufRegion s) a)
    (he : commandBody i s (engStart i s) = .ok () e) : memByte e.mem a = memByte s.mem a :=
  commandBody_ok_keeps i s _ (survivesSamples_byteOutside s a _ h) rfl e he

/-- Settles O45, by the three ways a command can end. -/
theorem commandsWriteOnlyTheirBuffer : Obligations.CommandsWriteOnlyTheirBuffer := by
  intro i s t a ht hout hw
  rcases exec_cases i s t ht with ⟨-, r, rfl⟩ | ⟨hu, x, bus, rfl⟩ | ⟨hu, -, e, he, rfl⟩
  · rfl
  · have ha : OutsideRegion (bufRegion s) a := hout.resolve_left (by simp [hu])
    exact memByte_endWithError_outside i x { s with busErrs := bus } a ha hw
  · have ha : OutsideRegion (bufRegion s) a := hout.resolve_left (by simp [hu])
    rw [memByte_endWithSuccess_outside i e s a ha hw, memByte_commandBody_outside i s e a ha he]

end Sys2Proof.Machine
end

section
/-! The host's accesses to data memory (20_memory.md R60, R61, R75, R77). -/

namespace Sys2Proof.Machine

/-! What an access does, by where it lies. -/

theorem hostLoad_pastTop (s : State) (a : Nat) (size : AccessSize)
    (h : 2 ^ s.params.addrW < a + accessBytes size) : hostLoad a size s = .fault (.memOutsideSpace a) := by
  unfold hostLoad
  rw [if_pos h]

theorem hostStore_pastTop (s : State) (a : Nat) (size : AccessSize) (v : Word)
    (h : 2 ^ s.params.addrW < a + accessBytes size) : hostStore a size v s = .fault (.memOutsideSpace a) := by
  unfold hostStore
  rw [if_pos h]

section

variable (s : State) (a : Nat) (size : AccessSize) (v : Word) (h : a + accessBytes size ≤ 2 ^ s.params.addrW)

include h

theorem hostLoad_ordinary (hr : racesWithCommand a (accessBytes size) s = false) :
    hostLoad a size s = .next { s with readData := BitVec.ofNat 32 (memRead s.mem a (accessBytes size)) } := by
  unfold hostLoad
  rw [if_neg (Nat.not_lt.2 h), hr]
  rfl

theorem hostLoad_raced (hr : racesWithCommand a (accessBytes size) s = true) :
    hostLoad a size s = .next { s with
      readData := BitVec.ofNat 32 ((Config.freeWord s.freeCount).toNat % 256 ^ accessBytes size)
      freeCount := s.freeCount + 1 } := by
  unfold hostLoad
  rw [if_neg (Nat.not_lt.2 h), if_pos hr]

theorem hostStore_ordinary (hr : racesWithCommand a (accessBytes size) s = false) :
    hostStore a size v s = .next { s with mem := memWrite s.mem a (accessBytes size) v.toNat } := by
  unfold hostStore
  rw [if_neg (Nat.not_lt.2 h), hr]
  rfl

theorem hostStore_raced (hr : racesWithCommand a (accessBytes size) s = true) :
    hostStore a size v s = .next { s with
      mem := memFreeWords s.freeCount s.mem (touchedWords a (accessBytes size))
      freeCount := s.freeCount + 1
      races := touchedWords a (accessBytes size) ++ s.races } := by
  unfold hostStore
  rw [if_neg (Nat.not_lt.2 h), if_pos hr]

end

/-- Settles O57: inside, each access goes on, whether it races or not; past the top, each stops. -/
theorem hostAccessesStopPastTheTop : Obligations.HostAccessesStopPastTheTop := by
  intro s a size v rest
  refine ⟨fun hin => ⟨fun hq => ?load, fun hq => ?store⟩, fun hpast hq => ?fault⟩
  case load =>
    rw [step_cons s _ rest hq]
    cases hr : racesWithCommand a (accessBytes size) { s with inbox := rest } with
    | false => exact ⟨_, hostLoad_ordinary _ a size hin hr, rfl, rfl⟩
    | true => exact ⟨_, hostLoad_raced _ a size hin hr, rfl, rfl⟩
  case store =>
    rw [step_cons s _ rest hq]
    cases hr : racesWithCommand a (accessBytes size) { s with inbox := rest } with
    | false => exact ⟨_, hostStore_ordinary _ a size v hin hr, rfl, rfl⟩
    | true => exact ⟨_, hostStore_raced _ a size v hin hr, rfl, rfl⟩
  case fault =>
    rcases hq with hq | hq
    · rw [step_cons s _ rest hq]
      exact hostLoad_pastTop _ a size hpast
    · rw [step_cons s _ rest hq]
      exact hostStore_pastTop _ a size v hpast

/-! Little-endian bytes (20_memory.md R61). -/

/-- Byte k of the range a write covers is byte k of the value. -/
theorem memByte_memWrite_inside (n : Nat) : ∀ (m : Memory) (a v k : Nat), k < n →
    memByte (memWrite m a n v) (a + k) = BitVec.ofNat 8 (v / 256 ^ k) := by
  induction n with
  | zero => exact fun _ _ _ k hk => absurd hk (Nat.not_lt_zero k)
  | succ n ih =>
    intro m a v k hk
    unfold memWrite
    cases k with
    | zero =>
      rw [memByte_memWrite_outside n _ _ _ _ (by omega), memByte_memInsert, Nat.add_zero, if_pos rfl, pow_zero,
        Nat.div_one]
    | succ k =>
      rw [show a + (k + 1) = a + 1 + k by omega, ih _ _ _ k (by omega), Nat.div_div_eq_div_mul, ← pow_succ']

/-- Byte k of what a read returns is byte k of the range it covers. -/
theorem memRead_byte (n : Nat) : ∀ (m : Memory) (a k : Nat), k < n →
    memRead m a n / 256 ^ k % 256 = (memByte m (a + k)).toNat := by
  induction n with
  | zero => exact fun _ _ k hk => absurd hk (Nat.not_lt_zero k)
  | succ n ih =>
    intro m a k hk
    have hbyte := (memByte m a).isLt
    unfold memRead
    cases k with
    | zero => simp only [pow_zero, Nat.div_one, Nat.add_zero]; omega
    | succ k =>
      have htail : ((memByte m a).toNat + 256 * memRead m (a + 1) n) / 256 = memRead m (a + 1) n := by omega
      rw [pow_succ', ← Nat.div_div_eq_div_mul, htail, ih m (a + 1) k (by omega),
        show a + 1 + k = a + (k + 1) by omega]

theorem toNat_extractLsb'_byte (v : Word) (k : Nat) : (v.extractLsb' (8 * k) 8).toNat = v.toNat / 256 ^ k % 256 := by
  rw [BitVec.extractLsb'_toNat, Nat.shiftRight_eq_div_pow, pow_mul]
  rfl

theorem accessBytes_le (size : AccessSize) : accessBytes size ≤ 4 := by
  cases size with
  | b8 => decide
  | b16 => decide
  | b32 => decide

/-- What an access reads fits a 32-bit word. -/
theorem memRead_access_lt (m : Memory) (a : Nat) (size : AccessSize) : memRead m a (accessBytes size) < 2 ^ 32 :=
  calc memRead m a (accessBytes size) < 256 ^ accessBytes size := memRead_lt _ m a
    _ ≤ 256 ^ 4 := Nat.pow_le_pow_right (by decide) (accessBytes_le size)
    _ = 2 ^ 32 := by decide

/-! Halfwords (20_memory.md R61). -/

/-- The halfword of memory at a byte address. -/
def halfAt (m : Memory) (a : Nat) : Half := BitVec.ofNat 16 (memRead m a 2)

/-- A word is its two halfwords, the low one first. -/
theorem wordAt_eq_cat (m : Memory) (a : Nat) : wordAt m a = cat (halfAt m (a + 2)) (halfAt m a) := by
  have hlo := memRead_lt 2 m a
  have hhi := memRead_lt 2 m (a + 2)
  have hsplit : memRead m a 4 = memRead m a 2 + 65536 * memRead m (a + 2) 2 := by
    show _ = memRead m a 2 + 65536 * memRead m (a + 1 + 1) 2
    simp only [memRead]
    omega
  apply BitVec.eq_of_toNat_eq
  unfold wordAt cat halfAt
  rw [BitVec.toNat_append, ← Nat.shiftLeft_add_eq_or_of_lt (BitVec.isLt _), hsplit]
  simp only [BitVec.toNat_ofNat, Nat.shiftLeft_eq]
  omega

theorem loHalf_wordAt (m : Memory) (a : Nat) : loHalf (wordAt m a) = halfAt m a := by
  rw [wordAt_eq_cat, loHalf_cat]

theorem hiHalf_wordAt (m : Memory) (a : Nat) : hiHalf (wordAt m a) = halfAt m (a + 2) := by
  rw [wordAt_eq_cat, hiHalf_cat]

/-- A halfword store leaves the low half of the stored word there. -/
theorem halfAt_memWrite_same (m : Memory) (a : Nat) (v : Word) : halfAt (memWrite m a 2 v.toNat) a = loHalf v := by
  apply BitVec.eq_of_toNat_eq
  unfold halfAt loHalf
  rw [memRead_memWrite_same, BitVec.extractLsb'_toNat, BitVec.toNat_ofNat, Nat.shiftRight_zero]
  omega

theorem halfAt_memWrite_apart (m : Memory) (a b v : Nat) (h : b + 2 ≤ a ∨ a + 2 ≤ b) :
    halfAt (memWrite m a 2 v) b = halfAt m b := by
  unfold halfAt
  rw [memRead_memWrite_apart m a 2 v b 2 h]

/-- A halfword store at the low half of a word replaces that half. -/
theorem wordAt_storeLow (m : Memory) (a : Nat) (v : Word) :
    wordAt (memWrite m a 2 v.toNat) a = cat (hiHalf (wordAt m a)) (loHalf v) := by
  rw [wordAt_eq_cat, halfAt_memWrite_same, halfAt_memWrite_apart m a (a + 2) _ (by omega), hiHalf_wordAt]

/-- A halfword store at the high half of a word replaces that half. -/
theorem wordAt_storeHigh (m : Memory) (a : Nat) (v : Word) :
    wordAt (memWrite m (a + 2) 2 v.toNat) a = cat (loHalf v) (loHalf (wordAt m a)) := by
  rw [wordAt_eq_cat, halfAt_memWrite_same, halfAt_memWrite_apart m (a + 2) a _ (by omega), loHalf_wordAt]

/-- No command, no race (20_memory.md R77). -/
theorem racesWithCommand_idle (a n : Nat) (s : State) (h : s.latch = none) : racesWithCommand a n s = false := by
  unfold racesWithCommand runningRegions
  rw [runningCommand_none s h]
  rfl

/-- Settles O55: with no command latched a store writes its bytes and a load reads them. -/
theorem hostStoresAreLittleEndian : Obligations.HostStoresAreLittleEndian := by
  refine ⟨⟨rfl, rfl, rfl⟩, fun s a size v rest hl hin => ⟨fun hq => ?store, fun hq => ?load⟩⟩
  case store =>
    rw [step_cons s _ rest hq]
    refine ⟨_, hostStore_ordinary { s with inbox := rest } a size v hin (racesWithCommand_idle _ _ _ hl), rfl,
      fun k hk => ?byte, fun b hb => memByte_memWrite_outside _ _ _ _ b hb, ?word, ?low, ?high⟩
    case byte =>
      dsimp only
      rw [memByte_memWrite_inside _ _ _ _ k hk]
      apply BitVec.eq_of_toNat_eq
      rw [toNat_extractLsb'_byte, BitVec.toNat_ofNat]
    case word =>
      rintro rfl
      exact wordAt_memWrite_same _ a v
    case low =>
      rintro rfl -
      exact wordAt_storeLow _ a v
    case high =>
      rintro rfl hmod
      obtain ⟨b, rfl⟩ : ∃ b, a = b + 2 := ⟨a - 2, by omega⟩
      exact wordAt_storeHigh _ b v
  case load =>
    rw [step_cons s _ rest hq]
    refine ⟨_, hostLoad_ordinary { s with inbox := rest } a size hin (racesWithCommand_idle _ _ _ hl), rfl,
      fun k hk => ?byte, ?bound⟩
    case byte =>
      apply BitVec.eq_of_toNat_eq
      rw [toNat_extractLsb'_byte, BitVec.toNat_ofNat, Nat.mod_eq_of_lt (memRead_access_lt _ a size),
        memRead_byte _ _ a k hk]
    case bound =>
      dsimp only
      rw [BitVec.toNat_ofNat, Nat.mod_eq_of_lt (memRead_access_lt _ a size)]
      exact memRead_lt _ _ a

/-! Accesses while a command runs (20_memory.md R77). -/

/-- An access races when it meets a byte of a region of the running command. -/
theorem racesWithCommand_iff (a n : Nat) (s : State) (i : Instr) (hi : runningCommand s = some i) :
    racesWithCommand a n s = true ↔
      ∃ r ∈ regions i s, 0 < n ∧ 0 < r.size ∧ a < r.base.toNat + r.size ∧ r.base.toNat < a + n := by
  unfold racesWithCommand runningRegions
  rw [hi]
  simp only [List.any_eq_true, meets_iff]

theorem mem_touchedWords (a w : Nat) :
    w ∈ touchedWords a (accessBytes .b32) ↔ w = 4 * (a / 4) ∨ w = 4 * ((a + 3) / 4) := by
  have hlast : a + accessBytes .b32 - 1 = a + 3 := rfl
  unfold touchedWords
  rw [hlast]
  split
  · simp only [List.mem_singleton]
    omega
  · simp only [List.mem_cons, List.not_mem_nil, or_false]
    omega

/-- Settles O56: apart from the regions an access is ordinary, else it races. -/
theorem hostAccessesDuringACommand : Obligations.HostAccessesDuringACommand := by
  intro s i a v rest hi hin
  have hiff := racesWithCommand_iff a (accessBytes .b32) { s with inbox := rest } i hi
  refine ⟨fun hapart => ?apart, fun hmeets => ?meets⟩
  case apart =>
    have hr : racesWithCommand a (accessBytes .b32) { s with inbox := rest } = false := by
      rw [Bool.eq_false_iff, ne_eq, hiff]
      rintro ⟨r, hreg, -, hsize, hlo, hhi⟩
      rcases hapart r hreg with h | h | h
      · omega
      · exact absurd hhi (Nat.not_lt.2 h)
      · omega
    refine ⟨fun hq => ?_, fun hq => ?_⟩
    · rw [step_cons s _ rest hq]
      exact hostLoad_ordinary _ a .b32 hin hr
    · rw [step_cons s _ rest hq]
      exact hostStore_ordinary _ a .b32 v hin hr
  case meets =>
    have hr : racesWithCommand a (accessBytes .b32) { s with inbox := rest } = true := by
      obtain ⟨r, hreg, hmeet⟩ := hmeets
      exact hiff.2 ⟨r, hreg, by decide, hmeet⟩
    refine ⟨fun hq => ?_, fun hq => ?_⟩
    · rw [step_cons s _ rest hq]
      exact ⟨_, hostLoad_raced _ a .b32 hin hr, rfl⟩
    · rw [step_cons s _ rest hq]
      refine ⟨_, hostStore_raced _ a .b32 v hin hr, rfl, ?_, ?_, fun b hb => ?_⟩
      · exact List.mem_append_left _ ((mem_touchedWords a _).2 (.inl rfl))
      · exact List.mem_append_left _ ((mem_touchedWords a _).2 (.inr rfl))
      · refine memByte_memFreeWords_outside _ _ _ b fun w hw => ?_
        rw [mem_touchedWords] at hw
        omega

end Sys2Proof.Machine
end

section
/-! The ends of a command that uses N, when no race is to be settled (60_exceptions.md R233, R236, R237), and a bus
error on its first access (20_memory.md R83). -/

namespace Sys2Proof.Machine

/-! The register checks passed: the body decides. -/

theorem ChecksPass.validate {i : Instr} {s : State} (h : ChecksPass i s) : validate i s = none := by
  obtain ⟨hlen, hstride, hregions⟩ := h
  exact validate_none i s hlen hstride hregions

theorem exec_of_ok (i : Instr) (s : State) (e : Eng) (hu : usesLength i = true) (hc : ChecksPass i s)
    (he : commandBody i s (engStart i s) = .ok () e) : exec i s = .next (endWithSuccess i e s) := by
  rw [exec_eq_runCommand i s hu]
  unfold runCommand
  simp only [hc.validate, he]

theorem exec_of_error (i : Instr) (s : State) (x : CmdError) (e : Eng) (hu : usesLength i = true)
    (hc : ChecksPass i s) (he : commandBody i s (engStart i s) = .error x e) :
    exec i s = .next (endWithError i x { s with busErrs := e.bus }) := by
  rw [exec_eq_runCommand i s hu]
  unfold runCommand
  simp only [hc.validate, he]

/-! What the ends change without a race. -/

/-- A success without an overlap keeps the writes of the body and draws nothing. -/
theorem endWithSuccess_apart (i : Instr) (e : Eng) (s : State) (hr : s.races = []) (ho : bufferOverlaps i s = false) :
    endWithSuccess i e s = complete { s with mem := e.mem, busErrs := e.bus } := by
  unfold endWithSuccess
  rw [ho]
  exact congrArg complete (settleRaces_none i _ hr)

/-- A success with an overlap frees the buffer (20_memory.md R82). -/
theorem endWithSuccess_overlap (i : Instr) (e : Eng) (s : State) (hr : s.races = []) (ho : bufferOverlaps i s = true) :
    endWithSuccess i e s = complete (freeBuffer i { s with mem := e.mem, busErrs := e.bus }) := by
  unfold endWithSuccess
  rw [ho]
  exact congrArg complete (settleRaces_none i _ (by simpa using hr))

/-- A success changes data memory, the draw counter, the platform's answers, `STATUS` and the latch. -/
theorem endWithSuccess_eq (i : Instr) (e : Eng) (s : State) (hr : s.races = []) :
    endWithSuccess i e s = { s with
      mem := (endWithSuccess i e s).mem
      freeCount := (endWithSuccess i e s).freeCount
      busErrs := e.bus
      status := s.status.completed
      latch := none } := by
  cases ho : bufferOverlaps i s with
  | false => rw [endWithSuccess_apart i e s hr ho]; rfl
  | true =>
    rw [endWithSuccess_overlap i e s hr ho, freeBuffer_eq]
    rfl

/-- `BUS_ERR` changes data memory, the draw counter, `STATUS`, `ERRINFO` and the latch. -/
theorem endWithError_busErr_eq (i : Instr) (a : Word) (s : State) (hr : s.races = []) :
    endWithError i (.busErr a) s = { s with
      mem := (endWithError i (.busErr a) s).mem
      freeCount := (endWithError i (.busErr a) s).freeCount
      status := s.status.failed 0x07#8
      errInfo := a
      latch := none } := by
  have hsettle : settleRaces i (freeBuffer i s) = freeBuffer i s := settleRaces_none i _ (by simpa using hr)
  unfold endWithError
  dsimp only
  rw [hsettle, freeBuffer_eq]
  rfl

/-- Without a race an error changes no byte outside the buffer. -/
theorem memByte_endWithError_calm (i : Instr) (x : CmdError) (s : State) (hr : s.races = []) (a : Nat)
    (h : OutsideRegion (bufRegion s) a) : memByte (endWithError i x s).mem a = memByte s.mem a :=
  memByte_endWithError_outside i x s a h (by simp [hr])

/-! Stage two at N = 16 (42_stage_two.md R162). -/

theorem stageTwo_sixteen (s : State) (dir : Dir) (h : s.log4n = 2) : stageTwo s dir = pure () := by
  unfold stageTwo
  rw [h]
  rfl

/-- With the length legal a wrong stride is the first check that fails (60_exceptions.md R233). -/
theorem validate_badStride (i : Instr) (s : State) (hu : usesLength i = true) (ht : readsTwiddles i = true)
    (hl : LengthLegal s) (hs : ¬ StrideLegal s) : validate i s = some (.badStride (s.twStride.setWidth 32)) := by
  obtain ⟨hmin, hmax⟩ := hl
  have hstride : s.stride = 0 ∨ s.stride * s.fftLen ≠ s.twLen.toNat := by
    by_contra hn
    obtain ⟨hzero, hsize⟩ := not_or.1 hn
    exact hs ⟨hzero, not_not.1 hsize⟩
  unfold validate
  rw [if_neg (by simp [hu]), if_neg (by omega), if_pos ⟨ht, hstride⟩]

/-- Settles O32: at N = 16 the body of stage two is empty. -/
theorem stageTwoDoesNothingForSixteenSamples : Obligations.StageTwoDoesNothingForSixteenSamples := by
  intro s i hi hn hr hl
  obtain ⟨hu, ht, hbody, hregions⟩ : usesLength i = true ∧ readsTwiddles i = true ∧ commandBody i s = pure () ∧
      regions i s = [bufRegion s, twRegion s] := by
    rcases hi with rfl | rfl
    · exact ⟨rfl, rfl, stageTwo_sixteen s .fwd hn, rfl⟩
    · exact ⟨rfl, rfl, stageTwo_sixteen s .inv hn, rfl⟩
  refine ⟨fun hc => ?pass, fun hs => ?stride⟩
  case pass =>
    have hexec := exec_of_ok i s (engStart i s) hu hc (by rw [hbody]; rfl)
    refine ⟨_, hexec, endWithSuccess_eq i _ s hr, fun hapart => ?_, fun a ha => ?_⟩
    · have ho : bufferOverlaps i s = false := bufferOverlaps_false i s _ _ hregions (by simpa using hapart)
      rw [endWithSuccess_apart i _ s hr ho]
      exact ⟨rfl, rfl⟩
    · exact memByte_endWithSuccess_outside i _ s a ha (by simp [hr])
  case stride =>
    have hv := validate_badStride i s hu ht hl hs
    exact ⟨_, (exec_eq_runCommand i s hu).trans (runCommand_of_invalid i _ s _ hv (by simp) hr), rfl⟩

/-! The first access (20_memory.md R83, log entry 6). -/

/-- The first access of `x` is at `a`: an error answered to it is reported, and no other answer is used. -/
def StartsAt {α : Type} (x : EngM α) (a : Nat) : Prop :=
  ∀ e rest, e.bus = true :: rest → x e = .error (.busErr (BitVec.ofNat 32 a)) { e with bus := rest }

theorem startsAt_busAnswer (a : Nat) : StartsAt (busAnswer a) a := by
  intro e rest h
  unfold busAnswer
  rw [h]

theorem StartsAt.bind {α β : Type} {x : EngM α} {a : Nat} (h : StartsAt x a) (f : α → EngM β) :
    StartsAt (x >>= f) a := by
  intro e rest hb
  rw [engBind_apply, h e rest hb]

/-- A loop with at least one turn starts where its first turn does. -/
theorem startsAt_forUp (n : Nat) (body : Nat → EngM Unit) (a : Nat) (hn : 0 < n) (h : StartsAt (body 0) a) :
    StartsAt (forUp n body) a := by
  induction n with
  | zero => omega
  | succ k ih =>
    rw [forUp_succ]
    cases k with
    | zero =>
      rw [forUp_zero, pure_bind]
      exact h
    | succ j => exact (ih (by omega)).bind _

theorem startsAt_engRead (a : Nat) : StartsAt (engRead a) a := (startsAt_busAnswer a).bind _

/-- A butterfly reads its first sample first (41_stage_one.md R141). -/
theorem startsAt_butterfly (s : State) (k : Kind) (dir : Dir) (i0 n2 t : Nat) :
    StartsAt (butterfly s k dir i0 n2 t) (sampleAddr s i0) :=
  ((((startsAt_engRead _).bind _).bind _).bind _)

/-- A length that is legal is at least 16 (00_scope.md R7). -/
theorem LengthLegal.sixteen_le {s : State} (h : LengthLegal s) : 16 ≤ s.fftLen := by
  obtain ⟨hmin, -⟩ := h
  exact Nat.pow_le_pow_right (n := 4) (by decide) hmin

section

variable (s : State) (hl : LengthLegal s)

include hl

theorem startsAt_stageOne (dir : Dir) : StartsAt (stageOne s dir) s.bufAddr.toNat := by
  have hlen := hl.sixteen_le
  exact startsAt_forUp _ _ _ (by omega) (startsAt_butterfly s .s1 dir 0 _ _)

theorem startsAt_stageThree (dir : Dir) : StartsAt (stageThree s dir) s.bufAddr.toNat := by
  have hlen := hl.sixteen_le
  exact startsAt_forUp _ _ _ (by omega) (startsAt_butterfly s .s3 dir 0 _ _)

/-- For N > 16 stage two has a level, and its first butterfly begins at sample 0 (42_stage_two.md R160). -/
theorem startsAt_stageTwo (dir : Dir) (h : 2 < s.log4n) : StartsAt (stageTwo s dir) s.bufAddr.toNat := by
  have hlen := hl.sixteen_le
  have hblocks : 0 < s.fftLen / (s.fftLen / 4) := Nat.div_pos (Nat.div_le_self _ _) (by omega)
  obtain ⟨k, hk⟩ : ∃ k, s.log4n - 2 = k + 1 := ⟨s.log4n - 3, by omega⟩
  have hfirst : StartsAt (butterfly s .s2 dir (0 + 0 * (s.fftLen / 4)) (s.fftLen / 4 / 4) (0 * (4 * s.stride)))
      s.bufAddr.toNat := by
    simpa [sampleAddr] using
      startsAt_butterfly s .s2 dir (0 + 0 * (s.fftLen / 4)) (s.fftLen / 4 / 4) (0 * (4 * s.stride))
  unfold stageTwo
  rw [hk]
  exact StartsAt.bind (startsAt_forUp _ _ _ (by omega) (startsAt_forUp _ _ _ hblocks hfirst)) _

theorem startsAt_stages : StartsAt (stages s) s.bufAddr.toNat := (startsAt_stageOne s hl _).bind _

/-- Without a table to read first, `XFORM` starts with stage one (44_permute_dispatch.md R205). -/
theorem startsAt_transform (h : s.cfg.ord = .bitReversed ∨ s.pairCount = 0) :
    StartsAt (transform s) s.bufAddr.toNat := by
  cases ho : s.cfg.ord with
  | bitReversed =>
    rw [transform_bitReversed s ho]
    exact startsAt_stages s hl
  | natural =>
    have hempty : checkTable s = pure () := by
      unfold checkTable
      rw [h.resolve_left (by simp [ho]), forUp_zero]
    rw [transform_natural s ho, hempty, pure_bind]
    exact (startsAt_stages s hl).bind _

end

/-- `CheckTable` reads pair 0 first (44_permute_dispatch.md R201). -/
theorem startsAt_checkTable (s : State) (h : 0 < s.pairCount) : StartsAt (checkTable s) s.brAddr.toNat :=
  startsAt_forUp _ _ _ h (((startsAt_engRead (pairAddr s 0)).bind _).bind _)

/-- A command whose body starts at a base register's address, and whose first access fails, ends with `BUS_ERR` and that
address (60_exceptions.md R236). -/
theorem exec_firstAccess (i : Instr) (s : State) (base : Word) (rest : List Bool) (hu : usesLength i = true)
    (hc : ChecksPass i s) (hb : s.busErrs = true :: rest) (h : StartsAt (commandBody i s) base.toNat) :
    exec i s = .next (endWithError i (.busErr base) { s with busErrs := rest }) := by
  have hbody := h (engStart i s) rest hb
  rw [BitVec.ofNat_toNat, BitVec.setWidth_eq] at hbody
  exact exec_of_error i s _ _ hu hc hbody

/-- Settles O42: each command's body starts at the base of the region it reads first. -/
theorem errorOnTheFirstAccessIsReported : Obligations.ErrorOnTheFirstAccessIsReported := by
  intro i s rest hb hr hc base hfirst
  have hl : LengthLegal s := hc.1
  obtain ⟨hu, hstart⟩ : usesLength i = true ∧ StartsAt (commandBody i s) base.toNat := by
    rcases hfirst with ⟨hi | ⟨hi, hn⟩ | ⟨rfl, ho⟩, rfl⟩ | ⟨rfl | ⟨rfl, ho⟩, hp, rfl⟩
    · simp only [List.mem_cons, List.not_mem_nil, or_false] at hi
      rcases hi with rfl | rfl | rfl | rfl
      · exact ⟨rfl, startsAt_stageOne s hl .fwd⟩
      · exact ⟨rfl, startsAt_stageOne s hl .inv⟩
      · exact ⟨rfl, startsAt_stageThree s hl .fwd⟩
      · exact ⟨rfl, startsAt_stageThree s hl .inv⟩
    · simp only [List.mem_cons, List.not_mem_nil, or_false] at hi
      rcases hi with rfl | rfl
      · exact ⟨rfl, startsAt_stageTwo s hl .fwd hn⟩
      · exact ⟨rfl, startsAt_stageTwo s hl .inv hn⟩
    · exact ⟨rfl, startsAt_transform s hl ho⟩
    · exact ⟨rfl, (startsAt_checkTable s hp).bind _⟩
    · refine ⟨rfl, ?_⟩
      show StartsAt (transform s) s.brAddr.toNat
      rw [transform_natural s ho]
      exact (startsAt_checkTable s hp).bind _
  exact ⟨_, exec_firstAccess i s base rest hu hc hb hstart, endWithError_busErr_eq i base _ hr,
    fun a ha => memByte_endWithError_calm i _ { s with busErrs := rest } hr a ha⟩

end Sys2Proof.Machine
end

section
/-! Two runs of one command in step. The body of a command makes the same accesses in the same order whatever
`PACK_ORDER` and data memory are, as long as its indices stay below N and its table reads the same. What holds of the
single accesses then holds of the whole body: that it fails only as the platform or its table makes it fail (one run
beside itself), and that the packing of the samples is invisible (two runs; 20_memory.md R65). -/

namespace Sys2Proof.Machine

open Sys2Proof.Config (PackOrder)

/-- From states related by `P` the two pieces of pseudocode go on with results related by `V` in states related by `P`,
or both raise the same error, one that meets `R`. -/
def InStep {α β : Type} (P : Eng → Eng → Prop) (R : CmdError → Prop) (V : α → β → Prop) (x : EngM α)
    (y : EngM β) : Prop :=
  ∀ e e', P e e' →
    (∃ a b e1 e1', x e = .ok a e1 ∧ y e' = .ok b e1' ∧ V a b ∧ P e1 e1') ∨
      ∃ r e1 e1', x e = .error r e1 ∧ y e' = .error r e1' ∧ R r

/-- No claim about the results. -/
def AnyResult {α β : Type} (_ : α) (_ : β) : Prop := True

/-- The same result. -/
def SameResult {α : Type} (a b : α) : Prop := b = a

section

variable {P : Eng → Eng → Prop} {R : CmdError → Prop}

theorem inStep_pure {α β : Type} {V : α → β → Prop} {a : α} {b : β} (h : V a b) :
    InStep P R V (pure a) (pure b) :=
  fun e e' hp => .inl ⟨a, b, e, e', rfl, rfl, h, hp⟩

theorem inStep_done : InStep P R (AnyResult (α := Unit) (β := Unit)) (pure ()) (pure ()) := inStep_pure trivial

theorem inStep_throw {α β : Type} {V : α → β → Prop} {r : CmdError} (h : R r) :
    InStep P R V (throw r : EngM α) (throw r : EngM β) :=
  fun e e' _ => .inr ⟨r, e, e', rfl, rfl, h⟩

theorem InStep.bind {α β γ δ : Type} {V : α → β → Prop} {W : γ → δ → Prop} {x : EngM α} {y : EngM β}
    {f : α → EngM γ} {g : β → EngM δ} (hx : InStep P R V x y) (hf : ∀ a b, V a b → InStep P R W (f a) (g b)) :
    InStep P R W (x >>= f) (y >>= g) := by
  intro e e' hp
  simp only [engBind_apply]
  rcases hx e e' hp with ⟨a, b, e1, e1', hxe, hye, hv, hp1⟩ | ⟨r, e1, e1', hxe, hye, hr⟩
  · rw [hxe, hye]
    exact hf a b hv e1 e1' hp1
  · rw [hxe, hye]
    exact .inr ⟨r, e1, e1', rfl, rfl, hr⟩

/-- A sequence whose second part needs no result of the first. -/
theorem InStep.seq {V : Unit → Unit → Prop} {x y x' y' : EngM Unit} (hx : InStep P R AnyResult x y)
    (hx' : InStep P R V x' y') : InStep P R V (x >>= fun _ => x') (y >>= fun _ => y') :=
  hx.bind fun _ _ _ => hx'

theorem InStep.imp {α β : Type} {V W : α → β → Prop} {x : EngM α} {y : EngM β} (h : InStep P R V x y)
    (hvw : ∀ a b, V a b → W a b) : InStep P R W x y := by
  intro e e' hp
  rcases h e e' hp with ⟨a, b, e1, e1', hx, hy, hv, hp1⟩ | herr
  · exact .inl ⟨a, b, e1, e1', hx, hy, hvw a b hv, hp1⟩
  · exact .inr herr

/-- What each turn of a loop establishes when it goes on, the loop establishes of all its turns. -/
theorem inStep_forUp_all {n : Nat} {body body' : Nat → EngM Unit} {V : Nat → Prop}
    (h : ∀ k < n, InStep P R (fun _ _ => V k) (body k) (body' k)) :
    InStep P R (fun _ _ => ∀ k < n, V k) (forUp n body) (forUp n body') := by
  induction n with
  | zero => exact inStep_pure fun k hk => absurd hk (Nat.not_lt_zero k)
  | succ n ih =>
    refine (ih fun k hk => h k (by omega)).bind fun _ _ hall => (h n (by omega)).imp fun _ _ hlast k hk => ?_
    rcases Nat.lt_succ_iff_lt_or_eq.1 hk with hlt | rfl
    · exact hall k hlt
    · exact hlast

theorem inStep_forUp {n : Nat} {body body' : Nat → EngM Unit}
    (h : ∀ k < n, InStep P R AnyResult (body k) (body' k)) : InStep P R AnyResult (forUp n body) (forUp n body') :=
  (inStep_forUp_all (V := fun _ => True) h).imp fun _ _ _ => trivial

end

/-! The accesses of a command. -/

/-- `s` with another packing of its samples and another data memory. -/
def State.repacked (s : State) (po : PackOrder) (m : Memory) : State :=
  { s with params := { s.params with packOrder := po }, mem := m }

/-- The commands that check and apply the swap table (44_permute_dispatch.md R202, R205). -/
def ReadsTable (i : Instr) (s : State) : Prop := i = .bitrev ∨ (i = .xform ∧ s.cfg.ord = .natural)

/-- Two buffer words, each in its own packing, hold the same sample (20_memory.md R64, R65). -/
def SameSample (s : State) (po : PackOrder) (w w' : Word) : Prop :=
  sampleOfWord po w' = sampleOfWord s.params.packOrder w

/-- A sample is stored as the same sample in every packing. -/
theorem sampleOfWord_wordOfSample_any (po po' : PackOrder) (p : Sample) :
    sampleOfWord po (wordOfSample po p) = sampleOfWord po' (wordOfSample po' p) := by
  cases po <;> cases po' <;> simp [sampleOfWord, wordOfSample, loHalf_cat, hiHalf_cat]

/-- Every access a command may make runs in step, on samples below N, entries inside the twiddle table and pairs
inside the swap table, and a bad pair is an error that meets `R`. -/
structure AccessesInStep (i : Instr) (s : State) (po : PackOrder) (P : Eng → Eng → Prop) (R : CmdError → Prop) :
    Prop where
  readSample : ∀ k < s.fftLen, InStep P R (SameSample s po) (engRead (sampleAddr s k)) (engRead (sampleAddr s k))
  writeSample : ∀ k < s.fftLen, ∀ w w', SameSample s po w w' →
    InStep P R AnyResult (engWrite (sampleAddr s k) w) (engWrite (sampleAddr s k) w')
  readTwiddle : readsTwiddles i = true → ∀ k < s.twLen.toNat,
    InStep P R SameResult (engRead (twiddleAddr s k)) (engRead (twiddleAddr s k))
  readPair : ReadsTable i s → ∀ p < s.pairCount,
    InStep P R (fun w w' => ((loHalf w).toNat, (hiHalf w).toNat) = pairAt s s.mem p ∧ w' = w) (engRead (pairAddr s p))
      (engRead (pairAddr s p))
  badTable : ReadsTable i s → ¬ TableLegal s → ∀ p, R (.badTable p)

/-! The passes, side by side. -/

/-- A butterfly's three twiddle indices stay below its block size times its twiddle step (41_stage_one.md R140, R141). -/
theorem twiddle_index_lt (j n st : Nat) (hj : j < n / 4) (hst : 0 < st) : 3 * (j * st) < n * st := by
  rw [← Nat.mul_assoc]
  exact Nat.mul_lt_mul_of_pos_right (by omega) hst

section

variable {i : Instr} {s : State} {po : PackOrder} {P : Eng → Eng → Prop} {R : CmdError → Prop}
  (h : AccessesInStep i s po P R) (m : Memory)

include h

theorem inStep_loadSample (k : Nat) (hk : k < s.fftLen) :
    InStep P R SameResult (loadSample s k) (loadSample (s.repacked po m) k) :=
  (h.readSample k hk).bind fun _ _ hw => inStep_pure hw

theorem inStep_storeSample (k : Nat) (hk : k < s.fftLen) (p : Sample) :
    InStep P R AnyResult (storeSample s k p) (storeSample (s.repacked po m) k p) :=
  h.writeSample k hk _ _ (sampleOfWord_wordOfSample_any _ _ p)

theorem inStep_loadTwiddle (ht : readsTwiddles i = true) (k : Nat) (hk : k < s.twLen.toNat) :
    InStep P R SameResult (loadTwiddle s k) (loadTwiddle (s.repacked po m) k) :=
  (h.readTwiddle ht k hk).bind fun _ _ hw => inStep_pure (congrArg twiddleOfWord hw)

theorem inStep_loadPair (ht : ReadsTable i s) (p : Nat) (hp : p < s.pairCount) :
    InStep P R (fun ij ij' => ij = pairAt s s.mem p ∧ ij' = ij) (loadPair s p) (loadPair (s.repacked po m) p) :=
  (h.readPair ht p hp).bind fun _ _ ⟨hw, hw'⟩ => inStep_pure ⟨hw, by rw [hw']⟩

theorem inStep_loadQuad (i0 n2 : Nat) (hi : i0 + 3 * n2 < s.fftLen) :
    InStep P R SameResult (loadQuad s i0 n2) (loadQuad (s.repacked po m) i0 n2) := by
  refine (inStep_loadSample h m i0 (by omega)).bind fun a _ ha => ?_
  refine (inStep_loadSample h m (i0 + n2) (by omega)).bind fun b _ hb => ?_
  refine (inStep_loadSample h m (i0 + 2 * n2) (by omega)).bind fun c _ hc => ?_
  refine (inStep_loadSample h m (i0 + 3 * n2) hi).bind fun d _ hd => ?_
  rw [ha, hb, hc, hd]
  exact inStep_pure rfl

theorem inStep_storeQuad (i0 n2 : Nat) (q : Quad) (hi : i0 + 3 * n2 < s.fftLen) :
    InStep P R AnyResult (storeQuad s i0 n2 q) (storeQuad (s.repacked po m) i0 n2 q) :=
  (inStep_storeSample h m i0 (by omega) _).seq <|
    (inStep_storeSample h m (i0 + n2) (by omega) _).seq <|
      (inStep_storeSample h m (i0 + 2 * n2) (by omega) _).seq (inStep_storeSample h m (i0 + 3 * n2) hi _)

theorem inStep_rotateFrom (ht : readsTwiddles i = true) (dir : Dir) (t : Nat) (q : Quad) (hi : 3 * t < s.twLen.toNat) :
    InStep P R SameResult (rotateFrom s dir t q) (rotateFrom (s.repacked po m) dir t q) := by
  refine (inStep_loadTwiddle h m ht (2 * t) (by omega)).bind fun a _ ha => ?_
  refine (inStep_loadTwiddle h m ht t (by omega)).bind fun b _ hb => ?_
  refine (inStep_loadTwiddle h m ht (3 * t) hi).bind fun c _ hc => ?_
  rw [ha, hb, hc]
  exact inStep_pure rfl

/-- Only the kinds that rotate read the twiddle table (41_stage_one.md R141, 43_stage_three.md R181). -/
theorem inStep_rotateStep (k : Kind) (dir : Dir) (t : Nat) (q : Quad)
    (ht : k = .s3 ∨ (readsTwiddles i = true ∧ 3 * t < s.twLen.toNat)) :
    InStep P R SameResult (rotateStep s k dir t q) (rotateStep (s.repacked po m) k dir t q) := by
  cases k with
  | s1 =>
    obtain ⟨htw, hi⟩ := ht.resolve_left (by simp)
    exact inStep_rotateFrom h m htw dir t q hi
  | s2 =>
    obtain ⟨htw, hi⟩ := ht.resolve_left (by simp)
    exact inStep_rotateFrom h m htw dir t q hi
  | s3 => exact inStep_pure rfl

theorem inStep_butterfly (k : Kind) (dir : Dir) (i0 n2 t : Nat) (hi : i0 + 3 * n2 < s.fftLen)
    (ht : k = .s3 ∨ (readsTwiddles i = true ∧ 3 * t < s.twLen.toNat)) :
    InStep P R AnyResult (butterfly s k dir i0 n2 t) (butterfly (s.repacked po m) k dir i0 n2 t) := by
  refine (inStep_loadQuad h m i0 n2 hi).bind fun q _ hq => ?_
  rw [hq]
  refine (inStep_rotateStep h m k dir t _ ht).bind fun o _ ho => ?_
  rw [ho]
  exact inStep_storeQuad h m i0 n2 o hi

theorem inStep_stageThree (dir : Dir) : InStep P R AnyResult (stageThree s dir) (stageThree (s.repacked po m) dir) :=
  inStep_forUp fun _ hk => inStep_butterfly h m .s3 dir _ _ _ (by omega) (.inl rfl)

section

variable (ht : readsTwiddles i = true) (hs : StrideLegal s)

include ht hs

theorem inStep_stageOne (dir : Dir) : InStep P R AnyResult (stageOne s dir) (stageOne (s.repacked po m) dir) := by
  obtain ⟨hzero, hsize⟩ := hs
  refine inStep_forUp fun k hk => inStep_butterfly h m .s1 dir _ _ _ (by omega) (.inr ⟨ht, ?_⟩)
  rw [← hsize, Nat.mul_comm s.stride]
  exact twiddle_index_lt k s.fftLen s.stride hk (Nat.pos_of_ne_zero hzero)

omit hs in
theorem inStep_stageTwoLevel (dir : Dir) (n1 st : Nat) (hst : 0 < st) (hn : n1 * st ≤ s.twLen.toNat) :
    InStep P R AnyResult (stageTwoLevel s dir n1 st) (stageTwoLevel (s.repacked po m) dir n1 st) :=
  inStep_forUp fun j hj => inStep_forUp fun b hb =>
    inStep_butterfly h m .s2 dir _ _ _ (butterfly_index_lt s.fftLen n1 j b hj hb)
      (.inr ⟨ht, (twiddle_index_lt j n1 st hj hst).trans_le hn⟩)

omit hs in
/-- From level to level the block size times the twiddle step does not grow (42_stage_two.md R160). -/
theorem inStep_stageTwoLevels (dir : Dir) (levels : Nat) :
    ∀ n1 st, 0 < st → n1 * st ≤ s.twLen.toNat →
      InStep P R AnyResult (stageTwoLevels s dir levels n1 st) (stageTwoLevels (s.repacked po m) dir levels n1 st) := by
  induction levels with
  | zero => exact fun _ _ _ _ => inStep_done
  | succ k ih =>
    intro n1 st hst hn
    have hnext : n1 / 4 * (4 * st) ≤ s.twLen.toNat := by
      rw [← Nat.mul_assoc]
      exact (Nat.mul_le_mul_right st (Nat.div_mul_le_self n1 4)).trans hn
    exact (inStep_stageTwoLevel h m ht dir n1 st hst hn).seq (ih _ _ (by omega) hnext)

theorem inStep_stageTwo (dir : Dir) : InStep P R AnyResult (stageTwo s dir) (stageTwo (s.repacked po m) dir) := by
  obtain ⟨hzero, hsize⟩ := hs
  refine inStep_stageTwoLevels h m ht dir _ _ _ (by omega) ?_
  rw [← hsize, ← Nat.mul_assoc, Nat.mul_comm s.stride]
  exact Nat.mul_le_mul_right s.stride (Nat.div_mul_le_self s.fftLen 4)

theorem inStep_stages : InStep P R AnyResult (stages s) (stages (s.repacked po m)) := by
  refine (inStep_stageOne h m ht hs s.cfg.dir).seq (InStep.seq ?_ (inStep_stageThree h m s.cfg.dir))
  have hlog : (s.repacked po m).log4n = s.log4n := rfl
  rw [hlog]
  split
  · exact inStep_stageTwo h m ht hs s.cfg.dir
  · exact inStep_done

end

/-- A pair that the check accepts is legal (44_permute_dispatch.md R201). -/
theorem inStep_checkPair (hr : ReadsTable i s) (p : Nat) (hp : p < s.pairCount) :
    InStep P R (fun _ _ => (pairAt s s.mem p).1 < s.fftLen ∧ (pairAt s s.mem p).2 < s.fftLen) (checkPair s p)
      (checkPair (s.repacked po m) p) := by
  refine (inStep_loadPair h m hr p hp).bind fun ij ij' ⟨hij, hij'⟩ => ?_
  subst hij hij'
  have hlen : (s.repacked po m).fftLen = s.fftLen := rfl
  rw [hlen]
  split
  · rename_i hbad
    refine inStep_throw (h.badTable hr (fun hlegal => ?_) _)
    obtain ⟨h1, h2⟩ := hlegal p hp
    omega
  · exact inStep_pure (by omega)

/-- A table that the check accepts is legal. -/
theorem inStep_checkTable (hr : ReadsTable i s) :
    InStep P R (fun _ _ => TableLegal s) (checkTable s) (checkTable (s.repacked po m)) :=
  inStep_forUp_all fun p hp => inStep_checkPair h m hr p hp

theorem inStep_swapWords (j k : Nat) (hj : j < s.fftLen) (hk : k < s.fftLen) :
    InStep P R AnyResult (swapWords s j k) (swapWords (s.repacked po m) j k) :=
  (h.readSample j hj).bind fun _ _ hwj => (h.readSample k hk).bind fun _ _ hwk =>
    (h.writeSample j hj _ _ hwk).seq (h.writeSample k hk _ _ hwj)

theorem inStep_bitRev (hr : ReadsTable i s) (ht : TableLegal s) :
    InStep P R AnyResult (bitRev s) (bitRev (s.repacked po m)) := by
  refine inStep_forUp fun p hp => (inStep_loadPair h m hr p hp).bind fun ij ij' ⟨hij, hij'⟩ => ?_
  subst hij hij'
  obtain ⟨h1, h2⟩ := ht p hp
  split
  · exact inStep_swapWords h m _ _ h1 h2
  · exact inStep_done

theorem inStep_transform (ht : readsTwiddles i = true) (hs : StrideLegal s)
    (hr : s.cfg.ord = .natural → ReadsTable i s) :
    InStep P R AnyResult (transform s) (transform (s.repacked po m)) := by
  have hstages := inStep_stages h m ht hs
  cases ho : s.cfg.ord with
  | bitReversed =>
    rw [transform_bitReversed s ho, transform_bitReversed (s.repacked po m) ho]
    exact hstages
  | natural =>
    rw [transform_natural s ho, transform_natural (s.repacked po m) ho]
    exact (inStep_checkTable h m (hr ho)).bind fun _ _ hlegal => hstages.seq (inStep_bitRev h m (hr ho) hlegal)

/-- The body of a command with a legal stride runs in step when its accesses do. -/
theorem inStep_commandBody (hs : readsTwiddles i = true → StrideLegal s) :
    InStep P R AnyResult (commandBody i s) (commandBody i (s.repacked po m)) := by
  cases i with
  | nop => exact inStep_done
  | stg1f => exact inStep_stageOne h m rfl (hs rfl) .fwd
  | stg1i => exact inStep_stageOne h m rfl (hs rfl) .inv
  | stg2f => exact inStep_stageTwo h m rfl (hs rfl) .fwd
  | stg2i => exact inStep_stageTwo h m rfl (hs rfl) .inv
  | stg3f => exact inStep_stageThree h m .fwd
  | stg3i => exact inStep_stageThree h m .inv
  | bitrev =>
    exact (inStep_checkTable h m (.inl rfl)).bind fun _ _ hlegal => inStep_bitRev h m (.inl rfl) hlegal
  | xform => exact inStep_transform h m rfl (hs rfl) fun ho => .inr ⟨rfl, ho⟩
  | rotf => exact inStep_done
  | roti => exact inStep_done
  | presc => exact inStep_done

end

end Sys2Proof.Machine
end

section
/-! How a body can fail: the platform answers an access with an error, or its table is not legal (44_permute_dispatch.md
R201, 60_exceptions.md R235, R236). -/

namespace Sys2Proof.Machine

/-! One access, alone. -/

theorem busAnswer_error (a : Nat) (r : CmdError) (e e' : Eng) (h : busAnswer a e = .error r e') :
    r = .busErr (BitVec.ofNat 32 a) ∧ true ∈ e.bus := by
  unfold busAnswer at h
  split at h
  · cases h
  · cases h
  · rename_i hb
    cases h
    exact ⟨rfl, by simp [hb]⟩

/-- An access fails only in its answer. -/
theorem access_error {α : Type} (a : Nat) (f : Unit → EngM α) (hf : ∀ e r e', f () e ≠ .error r e') (r : CmdError)
    (e e' : Eng) (h : (busAnswer a >>= f) e = .error r e') : r = .busErr (BitVec.ofNat 32 a) ∧ true ∈ e.bus := by
  rw [engBind_apply] at h
  cases hb : busAnswer a e with
  | ok u e1 =>
    rw [hb] at h
    exact absurd h (hf e1 r e')
  | error r1 e1 =>
    rw [hb] at h
    cases h
    exact busAnswer_error a _ e _ hb

theorem engRead_error (a : Nat) (r : CmdError) (e e' : Eng) (h : engRead a e = .error r e') :
    r = .busErr (BitVec.ofNat 32 a) ∧ true ∈ e.bus :=
  access_error a _ (fun _ _ _ hr => by cases hr) r e e' h

theorem engWrite_error (a : Nat) (w : Word) (r : CmdError) (e e' : Eng) (h : engWrite a w e = .error r e') :
    r = .busErr (BitVec.ofNat 32 a) ∧ true ∈ e.bus :=
  access_error a _ (fun _ _ _ hr => by cases hr) r e e' h

/-- The answers still to come are some of `l`. -/
def AnswersFrom (l : List Bool) (e : Eng) : Prop := ∀ b ∈ e.bus, b ∈ l

theorem engKeeps_answers_busAnswer (l : List Bool) (a : Nat) : EngKeeps (AnswersFrom l) (busAnswer a) := by
  intro e h
  unfold busAnswer
  split
  · exact ⟨fun _ _ hb => by cases hb; exact h, fun _ _ hr => by cases hr⟩
  · rename_i hbus
    exact ⟨fun _ _ hb => by cases hb; exact fun b hb => h b (by simp [hbus, hb]), fun _ _ hr => by cases hr⟩
  · rename_i hbus
    exact ⟨fun _ _ hb => (by cases hb), fun _ _ hr => by cases hr; exact fun b hb => h b (by simp [hbus, hb])⟩

theorem engKeeps_answers_engRead (l : List Bool) (a : Nat) : EngKeeps (AnswersFrom l) (engRead a) :=
  engKeeps_bind _ _ _ (engKeeps_answers_busAnswer l a) fun _ _ h =>
    ⟨fun _ _ hb => by cases hb; exact h, fun _ _ hr => by cases hr⟩

theorem engKeeps_answers_engWrite (l : List Bool) (a : Nat) (w : Word) : EngKeeps (AnswersFrom l) (engWrite a w) := by
  refine engKeeps_bind _ _ _ (engKeeps_answers_busAnswer l a) fun _ e h => ?_
  refine ⟨fun _ _ hb => ?_, fun _ _ hr => by cases hr⟩
  cases hb
  cases hd : e.dry <;> simpa [AnswersFrom, hd] using h

theorem EngKeeps.and {α : Type} {P Q : Eng → Prop} {x : EngM α} (hp : EngKeeps P x) (hq : EngKeeps Q x) :
    EngKeeps (fun e => P e ∧ Q e) x := by
  intro e ⟨h, h'⟩
  obtain ⟨hpok, hperr⟩ := hp e h
  obtain ⟨hqok, hqerr⟩ := hq e h'
  exact ⟨fun a e' hx => ⟨hpok a e' hx, hqok a e' hx⟩, fun r e' hx => ⟨hperr r e' hx, hqerr r e' hx⟩⟩

/-- A piece of pseudocode is in step with itself. -/
theorem inStep_self {α : Type} {P : Eng → Prop} {R : CmdError → Prop} {V : α → α → Prop} {x : EngM α}
    (hk : EngKeeps P x) (hok : ∀ e a e', P e → x e = .ok a e' → V a a)
    (herr : ∀ e r e', P e → x e = .error r e' → R r) : InStep (fun e e' => e' = e ∧ P e) R V x x := by
  intro e' e ⟨he, hp⟩
  subst he
  obtain ⟨hkok, -⟩ := hk e hp
  cases hx : x e with
  | ok a e1 => exact .inl ⟨a, a, e1, e1, rfl, rfl, hok e a e1 hp hx, rfl, hkok a e1 hx⟩
  | error r e1 => exact .inr ⟨r, e1, e1, rfl, rfl, herr e r e1 hp hx⟩

/-! The body of a command, alone. -/

/-- The address of a word of one of a command's regions (20_memory.md R63, R64, R66, R67). -/
def AccessOf (i : Instr) (s : State) (a : Nat) : Prop :=
  ∃ r ∈ regions i s, ∃ k, a = r.base.toNat + 4 * k ∧ 4 * k < r.size

/-- The errors a body can raise. -/
def BodyError (i : Instr) (s : State) (x : CmdError) : Prop :=
  (true ∈ s.busErrs ∧ ∃ a, AccessOf i s a ∧ x = .busErr (BitVec.ofNat 32 a)) ∨
    (ReadsTable i s ∧ ¬ TableLegal s ∧ ∃ p, x = .badTable p)

/-- What a body keeps as it goes on: its table as at acceptance, and some of the platform's answers. -/
def BodyState (i : Instr) (s : State) (e : Eng) : Prop := OnMem (FixesTable i s) e ∧ AnswersFrom s.busErrs e

theorem twRegion_mem_tail (i : Instr) (s : State) (h : readsTwiddles i = true) : twRegion s ∈ (regions i s).tail := by
  cases i with
  | stg1f => simp [regions]
  | stg1i => simp [regions]
  | stg2f => simp [regions]
  | stg2i => simp [regions]
  | xform => cases ho : s.cfg.ord <;> simp [regions, ho]
  | _ => cases h

theorem brRegion_mem_tail (i : Instr) (s : State) (h : ReadsTable i s) : brRegion s ∈ (regions i s).tail := by
  rcases h with rfl | ⟨rfl, ho⟩
  · simp [regions]
  · simp [regions, ho]

section

variable {i : Instr} {s : State} {V : Word → Word → Prop} {a : Nat} (ha : AccessOf i s a)

include ha

theorem inStep_self_engRead (hv : ∀ e, BodyState i s e → V (wordAt e.mem a) (wordAt e.mem a)) :
    InStep (fun e e' => e' = e ∧ BodyState i s e) (BodyError i s) V (engRead a) (engRead a) := by
  refine inStep_self ((engKeeps_engRead _ a).and (engKeeps_answers_engRead _ a)) (fun e w e' hp hx => ?_)
    fun e r e' hp hx => ?_
  · rw [engRead_ok a w e e' hx]
    exact hv e hp
  · obtain ⟨hr, hbus⟩ := engRead_error a r e e' hx
    exact .inl ⟨hp.2 true hbus, a, ha, hr⟩

theorem inStep_self_engWrite (w : Word)
    (hs : ∀ m, FixesTable i s m false → FixesTable i s (memWrite m a 4 w.toNat) false) :
    InStep (fun e e' => e' = e ∧ BodyState i s e) (BodyError i s) AnyResult (engWrite a w) (engWrite a w) := by
  refine inStep_self ((engKeeps_engWrite _ a w hs).and (engKeeps_answers_engWrite _ a w)) (fun _ _ _ _ _ => trivial)
    fun e r e' hp hx => ?_
  obtain ⟨hr, hbus⟩ := engWrite_error a w r e e' hx
  exact .inl ⟨hp.2 true hbus, a, ha, hr⟩

end

/-- A word is determined by the sample it holds (20_memory.md R64). -/
theorem sameSample_self {s : State} {w w' : Word} (h : SameSample s s.params.packOrder w w') : w' = w := by
  rw [← wordOfSample_sampleOfWord s.params.packOrder w', h, wordOfSample_sampleOfWord]

theorem accessOf_sample (i : Instr) (s : State) (k : Nat) (hu : usesLength i = true) (hk : k < s.fftLen) :
    AccessOf i s (sampleAddr s k) :=
  ⟨bufRegion s, bufRegion_mem_regions i s hu, k, rfl, Nat.mul_lt_mul_of_pos_left hk (by decide)⟩

theorem accessOf_twiddle (i : Instr) (s : State) (k : Nat) (ht : readsTwiddles i = true) (hk : k < s.twLen.toNat) :
    AccessOf i s (twiddleAddr s k) :=
  ⟨twRegion s, List.mem_of_mem_tail (twRegion_mem_tail i s ht), k, rfl, Nat.mul_lt_mul_of_pos_left hk (by decide)⟩

theorem accessOf_pair (i : Instr) (s : State) (p : Nat) (ht : ReadsTable i s) (hp : p < s.pairCount) :
    AccessOf i s (pairAddr s p) :=
  ⟨brRegion s, List.mem_of_mem_tail (brRegion_mem_tail i s ht), p, rfl, Nat.mul_lt_mul_of_pos_left hp (by decide)⟩

/-- A command beside itself: each access is inside a region, and fails only as `BodyError` says. -/
theorem accessesInStep_self (i : Instr) (s : State) (hu : usesLength i = true) :
    AccessesInStep i s s.params.packOrder (fun e e' => e' = e ∧ BodyState i s e) (BodyError i s) where
  readSample k hk := inStep_self_engRead (accessOf_sample i s k hu hk) fun _ _ => rfl
  writeSample k hk w w' hw := by
    rw [sameSample_self hw]
    exact inStep_self_engWrite (accessOf_sample i s k hu hk) w fun m => survivesSamples_fixesTable i s k hk m _
  readTwiddle ht k hk := inStep_self_engRead (accessOf_twiddle i s k ht hk) fun _ _ => rfl
  readPair ht p hp := inStep_self_engRead (accessOf_pair i s p ht hp) fun e ⟨hfix, _⟩ => by
    obtain ⟨-, hpairs⟩ := hfix (brRegion_mem_tail i s ht)
    exact ⟨hpairs p hp, rfl⟩
  badTable ht hn p := .inr ⟨ht, hn, p, rfl⟩

theorem bodyState_start (i : Instr) (s : State) : BodyState i s (engStart i s) :=
  ⟨fixesTable_start i s, fun _ => id⟩

/-- The body of a command with a legal stride goes through, or fails as `BodyError` says. -/
theorem commandBody_cases (i : Instr) (s : State) (hu : usesLength i = true)
    (hs : readsTwiddles i = true → StrideLegal s) :
    (∃ e, commandBody i s (engStart i s) = .ok () e) ∨
      ∃ x e, commandBody i s (engStart i s) = .error x e ∧ BodyError i s x := by
  have hself := inStep_commandBody (accessesInStep_self i s hu) s.mem hs
  rcases hself _ _ ⟨rfl, bodyState_start i s⟩ with ⟨_, _, e, _, hok, -⟩ | ⟨x, e, _, herr, -, hx⟩
  · exact .inl ⟨e, hok⟩
  · exact .inr ⟨x, e, herr, hx⟩

/-! After `BUS_ERR` (60_exceptions.md R236). -/

/-- `Validate` makes no access, so it reports no bus error (60_exceptions.md R233). -/
theorem validate_not_busErr (i : Instr) (s : State) (a : Word) : validate i s ≠ some (.busErr a) := by
  unfold validate
  split
  · simp
  split
  · simp
  split
  · simp
  · unfold checkRegions
    split
    · simp
    · split <;> simp

theorem errorCode_eq_seven (x : CmdError) (h : errorCode x = 0x07#8) : ∃ a, x = .busErr a := by
  cases x with
  | busErr a => exact ⟨a, rfl⟩
  | _ => exact absurd h (by simp [errorCode])

/-- An error ends with its code. -/
theorem endWithError_errcode (i : Instr) (x : CmdError) (s : State) :
    (endWithError i x s).status.errcode = errorCode x := by
  rcases endWithError_cases i x s with h | ⟨-, h⟩
  · simp [h]
  · simp [h]

/-- A success sets no error. -/
theorem endWithSuccess_err (i : Instr) (e : Eng) (s : State) : (endWithSuccess i e s).status.err = s.status.err := by
  unfold endWithSuccess
  split
  · simp
  · simp

/-- A command ends with code 7 only from a bus error in its body, after its checks passed. -/
theorem exec_busErr (i : Instr) (s t : State) (ht : exec i s = .next t) (hs : s.status.err = false)
    (he : t.status.err = true) (hcode : t.status.errcode = 0x07#8) :
    usesLength i = true ∧ ChecksPass i s ∧ ∃ a e, commandBody i s (engStart i s) = .error (.busErr a) e ∧
      t = endWithError i (.busErr a) { s with busErrs := e.bus } := by
  cases hu : usesLength i with
  | false =>
    obtain ⟨r, hr⟩ := exec_primitive i s hu
    rw [hr] at ht
    cases ht
    simp [hs] at he
  | true =>
    rw [exec_eq_runCommand i s hu] at ht
    rcases runCommand_cases i (commandBody i s) s with ⟨x, hv, hx⟩ | ⟨hv, x, e, hbody, hx⟩ | ⟨hv, e, -, hx⟩
    · rw [hx] at ht
      cases ht
      rw [endWithError_errcode] at hcode
      obtain ⟨a, rfl⟩ := errorCode_eq_seven x hcode
      exact absurd hv (validate_not_busErr i s a)
    · rw [hx] at ht
      cases ht
      rw [endWithError_errcode] at hcode
      obtain ⟨a, rfl⟩ := errorCode_eq_seven x hcode
      exact ⟨rfl, checksPass_of_validate i s hu hv, a, e, hbody, rfl⟩
    · rw [hx] at ht
      cases ht
      rw [endWithSuccess_err, hs] at he
      cases he

/-- An access of a command whose regions are legal is aligned, inside its region, and fits an address of 32 bits. -/
theorem AccessOf.address {i : Instr} {s : State} {a : Nat} (h : AccessOf i s a) (hp : s.params.legal = true)
    (hc : ChecksPass i s) : (BitVec.ofNat 32 a).toNat = a ∧ a % 4 = 0 ∧
      ∃ r ∈ regions i s, r.base.toNat ≤ a ∧ a < r.base.toNat + r.size := by
  obtain ⟨r, hr, k, rfl, hk⟩ := h
  obtain ⟨-, -, hregions⟩ := hc
  obtain ⟨haligned, hrange⟩ := hregions r hr
  have haddr : s.params.addrW ≤ 32 := by
    simp only [Config.Params.legal, Bool.and_eq_true, decide_eq_true_eq] at hp
    exact hp.2
  have htop : 2 ^ s.params.addrW ≤ 2 ^ 32 := Nat.pow_le_pow_right (by decide) haddr
  unfold RegionAligned at haligned
  unfold RegionInRange at hrange
  refine ⟨?_, by omega, r, hr, by omega, by omega⟩
  rw [BitVec.toNat_ofNat]
  exact Nat.mod_eq_of_lt (by omega)

/-- Settles O43: the error came from an access of the body, and `BUS_ERR` frees nothing but the buffer. -/
theorem busErrorLeavesOnlyTheBufferOpen : Obligations.BusErrorLeavesOnlyTheBufferOpen := by
  intro i s t hp hr hs ht he hcode
  obtain ⟨hu, hc, a, e, hbody, rfl⟩ := exec_busErr i s t ht hs he hcode
  have hframe := endWithError_busErr_eq i a { s with busErrs := e.bus } hr
  have hinfo : (endWithError i (.busErr a) { s with busErrs := e.bus }).errInfo = a := by rw [hframe]
  obtain ⟨-, addr, haccess, rfl⟩ : true ∈ s.busErrs ∧ ∃ addr, AccessOf i s addr ∧ a = BitVec.ofNat 32 addr := by
    rcases commandBody_cases i s hu hc.2.1 with ⟨e1, hok⟩ | ⟨x, e1, herr, hx⟩
    · rw [hbody] at hok
      cases hok
    · rw [hbody] at herr
      cases herr
      rcases hx with ⟨hbus, addr, haccess, hx⟩ | ⟨-, -, p, hx⟩
      · exact ⟨hbus, addr, haccess, CmdError.busErr.inj hx⟩
      · cases hx
  obtain ⟨hnat, haligned, hregion⟩ := haccess.address hp hc
  rw [hinfo, hnat]
  refine ⟨hregion, haligned, ?_, fun b hb => memByte_endWithError_calm i _ { s with busErrs := e.bus } hr b hb⟩
  rw [hframe]
  rfl

/-! With a legal table and no bus error every command completes, whatever overlaps (20_memory.md R82). -/

/-- A freed buffer that is in range holds the free values of its draw. -/
theorem memByte_freeBuffer_inside (i : Instr) (s : State) (a : Nat) (hu : usesLength i = true)
    (hrange : RegionInRange s (bufRegion s)) (h : ¬ OutsideRegion (bufRegion s) a) :
    memByte (freeBuffer i s).mem a = Config.freeByte s.freeCount a := by
  have hbuf := bufRegion_mem_regions i s hu
  unfold OutsideRegion at h
  unfold RegionInRange at hrange
  unfold freeBuffer
  rcases regions_shape i s with hr | ⟨ts, hr⟩
  · rw [hr] at hbuf
    cases hbuf
  · rw [hr]
    exact memByte_memFree_inside _ _ _ _ _ (by omega)

/-- The body of an undisturbed command with a legal table goes through. -/
theorem commandBody_goes_through (i : Instr) (s : State) (hu : usesLength i = true) (hc : ChecksPass i s)
    (hcalm : NoBusError s) (ht : ReadsTable i s → TableLegal s) : ∃ e, commandBody i s (engStart i s) = .ok () e := by
  rcases commandBody_cases i s hu hc.2.1 with hok | ⟨x, e, -, ⟨hbus, -⟩ | ⟨htable, hn, -⟩⟩
  · exact hok
  · cases hcalm true hbus
  · exact absurd (ht htable) hn

/-- Settles O46: the body goes through, and an overlap frees the buffer at the end. -/
theorem overlappingRegionsStillComplete : Obligations.OverlappingRegionsStillComplete := by
  intro i s hu hc ⟨hcalm, hr⟩ ht
  obtain ⟨e, he⟩ := commandBody_goes_through i s hu hc hcalm ht
  refine ⟨_, exec_of_ok i s e hu hc he, ?frame, fun a ha => ?outside, fun ho a ha => ?inside⟩
  case frame =>
    rw [endWithSuccess_eq i e s hr]
    rfl
  case outside =>
    rw [memByte_endWithSuccess_outside i e s a ha (by simp [hr]), memByte_commandBody_outside i s e a ha he]
  case inside =>
    obtain ⟨-, hrange⟩ := hc.2.2 _ (bufRegion_mem_regions i s hu)
    rw [endWithSuccess_overlap i e s hr ((bufferOverlaps_iff i s).2 ho), complete_mem]
    exact memByte_freeBuffer_inside i { s with mem := e.mem, busErrs := e.bus } a hu hrange ha

end Sys2Proof.Machine
end

section
/-! Packing equivalence (20_memory.md R65): two runs in step whose memories hold the same samples, each in its own
packing, and the same bytes outside the buffer. -/

namespace Sys2Proof.Machine

open Sys2Proof.Config (PackOrder)

/-! Memories with the same samples. -/

/-- `m` and `m'` hold the same samples, each in its own packing, and what `s` holds outside the buffer. -/
structure SameSamples (s : State) (po : PackOrder) (m m' : Memory) : Prop where
  left : ∀ a, OutsideRegion (bufRegion s) a → memByte m a = memByte s.mem a
  right : ∀ a, OutsideRegion (bufRegion s) a → memByte m' a = memByte s.mem a
  sample : ∀ k < s.fftLen, SameSample s po (wordAt m (sampleAddr s k)) (wordAt m' (sampleAddr s k))

/-- A word of a table apart from the buffer is as it was at acceptance. -/
theorem wordAt_table {s : State} {m : Memory}
    (hm : ∀ a, OutsideRegion (bufRegion s) a → memByte m a = memByte s.mem a) (r : Region) (k : Nat) (hapart : RegionsApart (bufRegion s) r) (hk : 4 * k + 4 ≤ r.size) :
    wordAt m (r.base.toNat + 4 * k) = wordAt s.mem (r.base.toNat + 4 * k) := by
  refine wordAt_congr _ _ _ fun b hlo hhi => hm b ?_
  unfold RegionsApart at hapart
  unfold OutsideRegion
  omega

/-- After a sample is written, another sample's word is as before. -/
theorem wordAt_memWrite_otherSample (s : State) (m : Memory) (j k v : Nat) (h : j ≠ k) :
    wordAt (memWrite m (sampleAddr s k) 4 v) (sampleAddr s j) = wordAt m (sampleAddr s j) :=
  wordAt_memWrite_apart m _ _ v (by unfold sampleAddr; omega)

/-- Writing the same sample to both memories keeps them the same. -/
theorem SameSamples.write {s : State} {po : PackOrder} {m m' : Memory} (h : SameSamples s po m m') (k : Nat)
    (hk : k < s.fftLen) {w w' : Word} (hw : SameSample s po w w') :
    SameSamples s po (memWrite m (sampleAddr s k) 4 w.toNat) (memWrite m' (sampleAddr s k) 4 w'.toNat) where
  left a ha := survivesSamples_byteOutside s a _ ha k hk m _ (h.left a ha)
  right a ha := survivesSamples_byteOutside s a _ ha k hk m' _ (h.right a ha)
  sample j hj := by
    by_cases hjk : j = k
    · subst hjk
      rw [wordAt_memWrite_same, wordAt_memWrite_same]
      exact hw
    · rw [wordAt_memWrite_otherSample s m j k _ hjk, wordAt_memWrite_otherSample s m' j k _ hjk]
      exact h.sample j hj

/-! Two runs without a bus error. -/

/-- Writes are kept and no bus error comes. -/
def Calm (e : Eng) : Prop := e.dry = false ∧ ∀ b ∈ e.bus, b = false

/-- Two calm engines over memories with the same samples. -/
def PackedAlike (s : State) (po : PackOrder) (e e' : Eng) : Prop := Calm e ∧ Calm e' ∧ SameSamples s po e.mem e'.mem

/-- What runs without a bus error runs in step. -/
theorem inStep_of_runs {α β : Type} {s : State} {po : PackOrder} {R : CmdError → Prop} {V : α → β → Prop}
    {x : EngM α} {y : EngM β} (h : ∀ m m', SameSamples s po m m' →
      ∃ a b m1 m1', EngRuns x m a m1 ∧ EngRuns y m' b m1' ∧ V a b ∧ SameSamples s po m1 m1') :
    InStep (PackedAlike s po) R V x y := by
  intro e e' ⟨⟨hdry, hbus⟩, ⟨hdry', hbus'⟩, hsame⟩
  obtain ⟨a, b, m1, m1', hx, hy, hv, hsame1⟩ := h _ _ hsame
  obtain ⟨e1, hxe, rfl, hcalm⟩ := hx e rfl hdry hbus
  obtain ⟨e1', hye, rfl, hcalm'⟩ := hy e' rfl hdry' hbus'
  exact .inl ⟨a, b, e1, e1', hxe, hye, hv, hcalm, hcalm', hsame1⟩

/-- A read of the same address runs in step. -/
theorem inStep_read {s : State} {po : PackOrder} {R : CmdError → Prop} {V : Word → Word → Prop} (a : Nat)
    (hv : ∀ m m', SameSamples s po m m' → V (wordAt m a) (wordAt m' a)) :
    InStep (PackedAlike s po) R V (engRead a) (engRead a) :=
  inStep_of_runs fun m m' hm =>
    ⟨_, _, m, m', engRuns_engRead a m, engRuns_engRead a m', hv m m' hm, hm⟩

/-- With its tables apart from the buffer, and its swap table legal, a command runs in step with itself in the other
packing, and no error ends it. -/
theorem accessesInStep_packed (i : Instr) (s : State) (po : PackOrder)
    (hapart : ∀ r ∈ (regions i s).tail, RegionsApart (bufRegion s) r) (htable : ReadsTable i s → TableLegal s) :
    AccessesInStep i s po (PackedAlike s po) (fun _ => False) where
  readSample k hk := inStep_read _ fun _ _ hm => hm.sample k hk
  writeSample k hk w w' hw := inStep_of_runs fun m m' hm =>
    ⟨(), (), _, _, engRuns_engWrite _ w m, engRuns_engWrite _ w' m', trivial, hm.write k hk hw⟩
  readTwiddle ht k hk := inStep_read _ fun _ _ hm => by
    have htw := hapart _ (twRegion_mem_tail i s ht)
    have hsize : 4 * k + 4 ≤ (twRegion s).size := Nat.mul_le_mul_left 4 hk
    exact (wordAt_table hm.right _ k htw hsize).trans (wordAt_table hm.left _ k htw hsize).symm
  readPair ht p hp := inStep_read _ fun _ _ hm => by
    have hbr := hapart _ (brRegion_mem_tail i s ht)
    have hsize : 4 * p + 4 ≤ (brRegion s).size := Nat.mul_le_mul_left 4 hp
    have hleft := wordAt_table hm.left _ p hbr hsize
    exact ⟨congrArg (fun w : Word => ((loHalf w).toNat, (hiHalf w).toNat)) hleft,
      (wordAt_table hm.right _ p hbr hsize).trans hleft.symm⟩
  badTable ht hn _ := hn (htable ht)

/-! Legal operands (`CommandReady`) in the terms of the register checks. -/

/-- What legal operands say of a command that uses N. -/
structure ReadyFacts (i : Instr) (s : State) : Prop where
  checks : ChecksPass i s
  calm : Undisturbed s
  apart : ∀ r ∈ (regions i s).tail, RegionsApart (bufRegion s) r
  table : ReadsTable i s → TableLegal s

theorem BufferReady.facts {i : Instr} {s : State} (h : BufferReady s) (hr : regions i s = [bufRegion s])
    (ht : readsTwiddles i = false) (hn : ¬ ReadsTable i s) : ReadyFacts i s where
  checks := ⟨h.len, fun htw => by simp [ht] at htw, by simpa [hr] using h.buf⟩
  calm := h.calm
  apart := by simp [hr]
  table htable := absurd htable hn

theorem TwiddleReady.facts {i : Instr} {s : State} (h : TwiddleReady s) (hr : regions i s = [bufRegion s, twRegion s])
    (hn : ¬ ReadsTable i s) : ReadyFacts i s where
  checks := ⟨h.len, fun _ => h.stride, by simpa [hr] using ⟨h.buf, h.tw⟩⟩
  calm := h.calm
  apart := by simpa [hr] using h.apart
  table htable := absurd htable hn

theorem PermuteReady.facts {s : State} (h : PermuteReady s) : ReadyFacts .bitrev s where
  checks := ⟨h.len, fun ht => (by cases ht), by simpa [regions] using ⟨h.buf, h.br⟩⟩
  calm := h.calm
  apart := by simpa [regions] using h.apartBr
  table _ := h.table

theorem TransformReady.facts {s : State} (h : TransformReady s) : ReadyFacts .xform s := by
  cases ho : s.cfg.ord with
  | bitReversed => exact h.toTwiddleReady.facts (by simp [regions, ho]) (by simp [ReadsTable, ho])
  | natural =>
    have hp := h.permute ho
    exact
      { checks := ⟨h.len, fun _ => h.stride, by simpa [regions, ho] using ⟨h.buf, h.tw, hp.br⟩⟩
        calm := h.calm
        apart := by simpa [regions, ho] using ⟨h.apart, hp.apartBr⟩
        table := fun _ => hp.table }

theorem CommandReady.facts {i : Instr} {s : State} (h : CommandReady i s) (hu : usesLength i = true) :
    ReadyFacts i s := by
  cases i with
  | stg1f => exact TwiddleReady.facts h rfl (by simp [ReadsTable])
  | stg1i => exact TwiddleReady.facts h rfl (by simp [ReadsTable])
  | stg2f => exact TwiddleReady.facts h rfl (by simp [ReadsTable])
  | stg2i => exact TwiddleReady.facts h rfl (by simp [ReadsTable])
  | stg3f => exact BufferReady.facts h rfl rfl (by simp [ReadsTable])
  | stg3i => exact BufferReady.facts h rfl rfl (by simp [ReadsTable])
  | bitrev => exact PermuteReady.facts h
  | xform => exact TransformReady.facts h
  | _ => cases hu

/-! The two commands. -/

theorem checksPass_repacked {i : Instr} {s : State} (h : ChecksPass i s) (po : PackOrder) (m : Memory) :
    ChecksPass i (s.repacked po m) := h

theorem bufferOverlaps_repacked (i : Instr) (s : State) (po : PackOrder) (m : Memory) :
    bufferOverlaps i (s.repacked po m) = bufferOverlaps i s := rfl

/-- A command that uses N, with legal operands, completes in both packings with the same samples. -/
theorem exec_repacked (i : Instr) (s : State) (po : PackOrder) (m : Memory) (hu : usesLength i = true)
    (h : ReadyFacts i s) (hm : SameSamples s po s.mem m) :
    ∃ e e' : Eng, exec i s = .next (complete { s with mem := e.mem, busErrs := e.bus }) ∧
      exec i (s.repacked po m) = .next (complete { s.repacked po m with mem := e'.mem, busErrs := e'.bus }) ∧
      SameSamples s po e.mem e'.mem := by
  obtain ⟨hcalm, hraces⟩ := h.calm
  have ho : bufferOverlaps i s = false := by
    rw [Bool.eq_false_iff, ne_eq, bufferOverlaps_iff]
    rintro ⟨r, hr, hn⟩
    exact hn (h.apart r hr)
  have ho' : bufferOverlaps i (s.repacked po m) = false := (bufferOverlaps_repacked i s po m).trans ho
  have hbody := inStep_commandBody (accessesInStep_packed i s po h.apart h.table) m h.checks.2.1
  have hstart : PackedAlike s po (engStart i s) (engStart i (s.repacked po m)) := ⟨⟨ho, hcalm⟩, ⟨ho', hcalm⟩, hm⟩
  rcases hbody _ _ hstart with ⟨_, _, e, e', hok, hok', -, -, -, hsame⟩ | ⟨_, _, _, -, -, hfalse⟩
  · refine ⟨e, e', ?_, ?_, hsame⟩
    · rw [exec_of_ok i s e hu h.checks hok, endWithSuccess_apart i e s hraces ho]
    · rw [exec_of_ok i _ e' hu (checksPass_repacked h.checks po m) hok',
        endWithSuccess_apart i e' (s.repacked po m) hraces ho']
  · exact hfalse.elim

/-- A command that does not use N does the same in both packings, and leaves both memories. -/
theorem exec_primitive_repacked (i : Instr) (s : State) (po : PackOrder) (m : Memory) (hu : usesLength i = false) :
    ∃ r, exec i s = .next (complete { s with res := r }) ∧
      exec i (s.repacked po m) = .next (complete { s.repacked po m with res := r }) := by
  cases i with
  | nop => exact ⟨s.res, rfl, rfl⟩
  | rotf => exact ⟨_, rfl, rfl⟩
  | roti => exact ⟨_, rfl, rfl⟩
  | presc => exact ⟨_, rfl, rfl⟩
  | _ => cases hu

/-- Settles O53: the two bodies run in step. -/
theorem packingOrderIsInvisible : Obligations.PackingOrderIsInvisible := by
  intro i s po m hready s' hout hsample
  cases hu : usesLength i with
  | false =>
    obtain ⟨r, hexec, hexec'⟩ := exec_primitive_repacked i s po m hu
    exact ⟨_, _, hexec, hexec', rfl, rfl, hsample, hout⟩
  | true =>
    have hm : SameSamples s po s.mem m := ⟨fun _ _ => rfl, hout, hsample⟩
    obtain ⟨e, e', hexec, hexec', hsame⟩ := exec_repacked i s po m hu (hready.facts hu) hm
    exact ⟨_, _, hexec, hexec', rfl, rfl, hsame.sample, fun a ha => (hsame.right a ha).trans (hsame.left a ha).symm⟩

end Sys2Proof.Machine
end

section
/-! The decoder and the encoder: a word is read as a command exactly when it is that command's word (30_encoding.md R90
to R96). -/

namespace Sys2Proof.Machine

/-! The fields of a command word (30_encoding.md R90). -/

/-- A word is its four fields. -/
theorem word_eq_fields (w : Word) :
    w = field (w.extractLsb' 8 24) 8 ||| field (wordClass w) 4 ||| field (w.extractLsb' 1 3) 1 ||| bit (wordD w) 0 := by
  unfold wordClass wordD
  simp only [field_extractLsb', bit_getLsbD, ← BitVec.and_or_distrib_left]
  exact BitVec.and_allOnes.symm

/-- The class and `D` of a word are those of a command's word. -/
def HasFieldsOf (w : Word) (i : Instr) : Prop := wordClass w = wordClass (encode i) ∧ wordD w = wordD (encode i)

/-- A command's word has no bit of [31:8] and no bit of `OPC[3:1]` (30_encoding.md R90, R92). -/
theorem encode_zeroFields (i : Instr) : (encode i).extractLsb' 8 24 = 0#24 ∧ (encode i).extractLsb' 1 3 = 0#3 := by
  cases i <;> decide

theorem eq_encode_of_fields {w : Word} {i : Instr} (hreserved : w.extractLsb' 8 24 = 0#24)
    (hmiddle : w.extractLsb' 1 3 = 0#3) (h : HasFieldsOf w i) : w = encode i := by
  obtain ⟨hclass, hd⟩ := h
  obtain ⟨hreserved', hmiddle'⟩ := encode_zeroFields i
  rw [word_eq_fields w, word_eq_fields (encode i), hreserved, hreserved', hmiddle, hmiddle', hclass, hd]

/-! What a decoded word says of its fields. -/

theorem hasFieldsOf_undirected {w : Word} {i j : Instr} (h : undirected (wordD w) j = .ok i)
    (hclass : (wordClass w).toNat = (wordClass (encode j)).toNat) (hd : wordD (encode j) = false) :
    HasFieldsOf w i := by
  unfold undirected at h
  split at h
  · cases h
  · rename_i hw
    cases h
    exact ⟨BitVec.eq_of_toNat_eq hclass, (Bool.eq_false_of_not_eq_true hw).trans hd.symm⟩

theorem hasFieldsOf_directed {w : Word} {i fwd inv : Instr} (h : directed (wordD w) fwd inv = .ok i)
    (hclass : (wordClass w).toNat = (wordClass (encode fwd)).toNat)
    (hpair : wordClass (encode inv) = wordClass (encode fwd)) (hfwd : wordD (encode fwd) = false)
    (hinv : wordD (encode inv) = true) : HasFieldsOf w i := by
  have hclass' : wordClass w = wordClass (encode fwd) := BitVec.eq_of_toNat_eq hclass
  unfold directed at h
  split at h
  · rename_i hw
    cases h
    exact ⟨hclass'.trans hpair.symm, hw.trans hinv.symm⟩
  · rename_i hw
    cases h
    exact ⟨hclass', (Bool.eq_false_of_not_eq_true hw).trans hfwd.symm⟩

/-- A decoded word is the command's own word: one case per class of 30_encoding.md R91. -/
theorem eq_encode_of_decode {w : Word} {i : Instr} (h : decode w = .ok i) : w = encode i := by
  unfold decode at h
  split at h
  · cases h
  rename_i hreserved
  split at h
  · cases h
  rename_i hmiddle
  refine eq_encode_of_fields (not_not.1 hreserved) (not_not.1 hmiddle) ?_
  split at h
  next hclass => exact hasFieldsOf_undirected h hclass rfl
  next hclass => exact hasFieldsOf_directed h hclass rfl rfl rfl
  next hclass => exact hasFieldsOf_directed h hclass rfl rfl rfl
  next hclass => exact hasFieldsOf_directed h hclass rfl rfl rfl
  next hclass => exact hasFieldsOf_undirected h hclass rfl
  next hclass => exact hasFieldsOf_undirected h hclass rfl
  next hclass => exact hasFieldsOf_directed h hclass rfl rfl rfl
  next hclass => exact hasFieldsOf_undirected h hclass rfl
  next => cases h

theorem decode_encode (i : Instr) : decode (encode i) = .ok i := by
  cases i <;> rfl

theorem decode_eq_ok_iff (w : Word) (i : Instr) : decode w = .ok i ↔ w = encode i :=
  ⟨eq_encode_of_decode, fun h => h ▸ decode_encode i⟩

theorem decode_rejects_iff (w : Word) : (∃ r, decode w = .error r) ↔ ∀ i, w ≠ encode i := by
  simp only [ne_eq, ← decode_eq_ok_iff]
  cases decode w with
  | ok i => simp
  | error r => simp

/-! The opcode map (30_encoding.md R91). -/

/-- The twelve commands in the order of the opcode map. -/
def commands : List Instr :=
  [.nop, .stg1f, .stg1i, .stg2f, .stg2i, .stg3f, .stg3i, .bitrev, .xform, .rotf, .roti, .presc]

theorem mem_commands (i : Instr) : i ∈ commands := by
  cases i <;> decide

theorem mem_opcodeMap_iff (w : Word) (i : Instr) : (w, i) ∈ commands.map (fun j => (encode j, j)) ↔ w = encode i := by
  simp [mem_commands, eq_comm]

theorem not_mem_commandWords_iff (w : Word) : w ∉ commands.map encode ↔ ∀ i, w ≠ encode i := by
  simp [mem_commands, eq_comm]

/-- Settles O1: every command is well formed, so the premise is not used. -/
theorem decodeReadsEncodedCommand : Obligations.DecodeReadsEncodedCommand :=
  fun i _ => decode_encode i

/-- Settles O2: the printed rows are `encode` over the commands. -/
theorem decodeAcceptsExactlyTheTwelveWords : Obligations.DecodeAcceptsExactlyTheTwelveWords := fun w =>
  ⟨fun i => (decode_eq_ok_iff w i).trans (mem_opcodeMap_iff w i).symm,
    (decode_rejects_iff w).trans (not_mem_commandWords_iff w).symm⟩

/-- Settles O3: each printed word is `encode` of its command. -/
theorem printedWordsDecode : Obligations.PrintedWordsDecode :=
  ⟨decode_encode .nop, decode_encode .stg1i, decode_encode .stg2f, decode_encode .stg3i, decode_encode .bitrev,
    decode_encode .xform, decode_encode .roti, decode_encode .presc⟩

end Sys2Proof.Machine
end

section
/-! The life of a command word from its `CMD` write to the end of `wait`: acceptance, the engine's turn, the poll and the
expect of a host program (30_encoding.md R96, R100, R101, 60_exceptions.md R232, R233). -/

namespace Sys2Proof.Machine

/-! Acceptance and the engine's turn. -/

theorem writeCmd_free (w : Word) (s : State) (hb : s.status.busy = false) (he : s.status.err = false) :
    writeCmd w s = accept w s := by
  unfold writeCmd
  rw [hb, he]
  rfl

/-- The engine moves when no input is left, and on its own input (log entries 4 and 5). -/
theorem step_engine (s : State) (rest : List Event)
    (h : (s.inbox = [] ∧ rest = []) ∨ s.inbox = .engine :: rest) : step s = engineTurn { s with inbox := rest } := by
  rcases h with ⟨hin, rfl⟩ | hin
  · have hs : { s with inbox := [] } = s := by rw [← hin]
    rw [step_nil s hin, hs]
  · exact step_cons s _ rest hin

theorem engineTurn_illegal (s : State) (w : Word) (r : Reject) (hl : s.latch = some w) (hd : decode w = .error r) :
    engineTurn s = .next (raiseError (.illegalCmd w) s) := by
  unfold engineTurn
  simp only [hl, hd]

theorem engineTurn_command (s : State) (w : Word) (i : Instr) (hl : s.latch = some w) (hd : decode w = .ok i) :
    engineTurn s = exec i s := by
  unfold engineTurn
  simp only [hl, hd]

/-- A command takes nothing from the inbox, and does not read it. -/
theorem exec_inbox (i : Instr) (s t : State) (h : exec i s = .next t) : t.inbox = s.inbox := by
  obtain ⟨u, -, hu⟩ := exec_withHost i s s.ctrl s.readData s.inbox s.latch
  have ht : t = u.withHost s.ctrl s.readData s.inbox none := Host.Outcome.next.inj (h.symm.trans hu)
  rw [ht]
  rfl

/-- A latched command ends in the engine's turn, which takes nothing from the inbox (60_exceptions.md R237, R238). -/
theorem engineTurn_ends_command (s : State) (w : Word) (i : Instr) (hl : s.latch = some w) (hd : decode w = .ok i) :
    ∃ t, engineTurn s = .next t ∧ t.latch = none ∧ t.status.busy = false ∧ t.inbox = s.inbox := by
  obtain ⟨t, ht⟩ := exec_next i s
  obtain ⟨hlatch, hbusy, -⟩ := exec_end i s t ht
  exact ⟨t, (engineTurn_command s w i hl hd).trans ht, hlatch, hbusy, exec_inbox i s t ht⟩

/-- Settles O4: the write is an acceptance, and the engine finds the latched word rejected by the decoder. -/
theorem illegalWordEndsWithIllegalCmd : Obligations.IllegalWordEndsWithIllegalCmd := by
  intro s w hw
  refine ⟨fun rest hin hr hb he => ?_, fun rest hin hl => ?_⟩
  · rw [step_regWrite s .cmd w rest hin hr]
    exact congrArg _ (writeCmd_free w { s with inbox := rest } hb he)
  · obtain ⟨r, hd⟩ := (decode_rejects_iff w).2 ((not_mem_commandWords_iff w).1 hw)
    rw [step_engine s rest hin]
    exact engineTurn_illegal { s with inbox := rest } w r hl hd

/-! The poll and the expect of a register (30_encoding.md R100). -/

theorem pollTurn_holds (r : Reg) (mask value : Word) (again s : State) (h : readReg r s &&& mask = value) :
    pollTurn (regAddr s.params r) mask value again s = .next { s with readData := readReg r s } := by
  unfold pollTurn
  rw [decodeAccess_regAddr]
  exact if_pos h

theorem pollTurn_waits (r : Reg) (mask value : Word) (again s : State) (h : readReg r s &&& mask ≠ value) :
    pollTurn (regAddr s.params r) mask value again s = engineTurn { again with readData := readReg r s } := by
  unfold pollTurn
  rw [decodeAccess_regAddr]
  exact if_neg h

theorem hostRegExpect_holds (r : Reg) (mask value : Word) (s : State) (h : readReg r s &&& mask = value) :
    hostRegExpect (regAddr s.params r) mask value s = .next { s with readData := readReg r s } := by
  unfold hostRegExpect
  rw [decodeAccess_regAddr]
  exact if_pos h

theorem hostRegExpect_fails (r : Reg) (mask value : Word) (s : State) (h : readReg r s &&& mask ≠ value) :
    hostRegExpect (regAddr s.params r) mask value s = .fault (.expectFailed (readReg r s &&& mask) value) := by
  unfold hostRegExpect
  rw [decodeAccess_regAddr]
  exact if_neg h

/-- The bit `wait` reads (30_encoding.md R101). -/
theorem readReg_status_busy (s : State) : readReg .status s &&& 1#32 = bit s.status.busy 0 := by
  obtain ⟨hbusy, -⟩ := statusWord_fields s.status
  calc statusWord s.status &&& bit true 0 = bit ((statusWord s.status).getLsbD 0) 0 := (bit_getLsbD _ 0).symm
    _ = bit s.status.busy 0 := by rw [hbusy]

/-- `wait` with `BUSY` = 0 is one read of `STATUS`. -/
theorem step_wait_idle (s : State) (q : List Event) (hin : s.inbox = formEvents s.params .wait ++ q)
    (hb : s.status.busy = false) : step s = .next { s with inbox := q, readData := readReg .status s } := by
  have hread : readReg .status s &&& 1#32 = 0#32 := by rw [readReg_status_busy, hb]; rfl
  rw [step_cons s _ q hin]
  exact pollTurn_holds .status 1#32 0#32 s { s with inbox := q } hread

/-- `wait` with `BUSY` = 1 is the engine's turn, with `wait` still to come. -/
theorem step_wait_busy (s : State) (q : List Event) (hin : s.inbox = formEvents s.params .wait ++ q)
    (hb : s.status.busy = true) : step s = engineTurn { s with readData := readReg .status s } := by
  have hread : readReg .status s &&& 1#32 ≠ 0#32 := by rw [readReg_status_busy, hb]; decide
  rw [step_cons s _ q hin]
  exact pollTurn_waits .status 1#32 0#32 s { s with inbox := q } hread

/-- An expect of a whole register reads it, and stops where it differs. -/
theorem step_expect (s : State) (r : Reg) (v : Word) (rest : List Event)
    (hin : s.inbox = .regExpect (regAddr s.params r) 0xFFFFFFFF#32 v :: rest) :
    (readReg r s = v → step s = .next { s with inbox := rest, readData := v }) ∧
      (readReg r s ≠ v → step s = .fault (.expectFailed (readReg r s) v)) := by
  have hwhole : readReg r s &&& 0xFFFFFFFF#32 = readReg r s := BitVec.and_allOnes
  have hstep : step s = hostRegExpect (regAddr s.params r) 0xFFFFFFFF#32 v { s with inbox := rest } :=
    step_cons s _ rest hin
  refine ⟨fun hv => ?_, fun hv => ?_⟩
  · subst hv
    exact hstep.trans (hostRegExpect_holds r _ _ { s with inbox := rest } hwhole)
  · have hfault := hostRegExpect_fails r 0xFFFFFFFF#32 v { s with inbox := rest } fun h => hv (hwhole.symm.trans h)
    rw [← hwhole]
    exact hstep.trans hfault

/-- Settles O58: while `BUSY` is 1 the poll gives the engine its turn, and a command ends in it. -/
theorem waitEndsWhenBusyReadsZero : Obligations.WaitEndsWhenBusyReadsZero := by
  intro s v rest
  refine ⟨fun q hin => ⟨step_wait_idle s q hin, fun i w hb hl hd => ?_⟩, fun r => step_expect s r v rest⟩
  rw [step_wait_busy s q hin hb]
  exact engineTurn_ends_command { s with readData := readReg .status s } w i hl hd

end Sys2Proof.Machine
end

section
/-! Clamps and rounded shifts in plain arithmetic (40_datapath.md R110 to R116). -/

namespace Sys2Proof.Machine

open Sys2Proof.Config (Rnd)

/-! The clamp (40_datapath.md R110). -/

theorem sat16_eq_ite (v : Int) : sat16 v = if v > 32767 then 32767 else if v < -32768 then -32768 else v := by
  unfold sat16
  omega

/-- The clamp changes a result exactly when that result is no 16-bit signed value. -/
theorem sat16_ne_self_iff (v : Int) : sat16 v ≠ v ↔ ¬ Lane v := by
  refine ⟨fun hne hv => hne (sat16_of_isLane v hv), fun hv heq => hv ?_⟩
  rw [← heq]
  exact isLane_sat16 v

theorem isLane_min : Lane (-32768) := by
  unfold Lane
  decide

theorem isLane_max : Lane 32767 := by
  unfold Lane
  decide

/-! The rounded shift (40_datapath.md R112), for any shift, by 1 and by 16. -/

theorem rshift_halfUp (v : Int) (k : Nat) : rshift .halfUp v k = asr (v + 2 ^ (k - 1)) k := rfl

theorem rshift_trunc (v : Int) (k : Nat) : rshift .trunc v k = asr v k := rfl

@[simp] theorem rshift_halfUp_one (v : Int) : rshift .halfUp v 1 = (v + 1) / 2 := rfl

@[simp] theorem rshift_trunc_one (v : Int) : rshift .trunc v 1 = v / 2 := rfl

@[simp] theorem rshift_halfUp_sixteen (v : Int) : rshift .halfUp v 16 = (v + 32768) / 65536 := rfl

@[simp] theorem rshift_trunc_sixteen (v : Int) : rshift .trunc v 16 = v / 65536 := rfl

/-- A rounded shift by 1 is within half a unit of the half, in both modes. -/
theorem rshift_one_near (rnd : Rnd) (v : Int) : 2 * rshift rnd v 1 ≤ v + 1 ∧ v ≤ 2 * rshift rnd v 1 + 1 := by
  cases rnd with
  | halfUp =>
    rw [rshift_halfUp_one]
    omega
  | trunc =>
    rw [rshift_trunc_one]
    omega

/-- The half of a 16-bit signed value needs no clamp (40_datapath.md R116). -/
theorem rshift_one_range (rnd : Rnd) (v : Int) (hv : Lane v) : -16384 ≤ rshift rnd v 1 ∧ rshift rnd v 1 ≤ 16384 := by
  obtain ⟨hlo, hhi⟩ := hv
  obtain ⟨hle, hge⟩ := rshift_one_near rnd v
  omega

/-- A half-sum is a 16-bit signed value: a sum is at most 65534, so even rounded up its half is at most 32767
(40_datapath.md R114). -/
theorem isLane_halfSum (rnd : Rnd) (a b : Int) (ha : Lane a) (hb : Lane b) : Lane (rshift rnd (a + b) 1) := by
  obtain ⟨hle, hge⟩ := rshift_one_near rnd (a + b)
  unfold Lane at *
  omega

/-- A half-difference is a 16-bit signed value but at the largest difference, rounded up (40_datapath.md R114). -/
theorem isLane_halfDifference_iff (rnd : Rnd) (a b : Int) (ha : Lane a) (hb : Lane b) :
    Lane (rshift rnd (a - b) 1) ↔ ¬ (rnd = .halfUp ∧ a - b = 65535) := by
  unfold Lane at *
  cases rnd with
  | halfUp =>
    rw [rshift_halfUp_one]
    simp only [true_and]
    omega
  | trunc =>
    rw [rshift_trunc_one]
    simp only [reduceCtorEq, false_and, not_false_iff, iff_true]
    omega

theorem hsub_of_largest (rnd : Rnd) (a b : Int) (h : a - b = 65535) : hsub rnd a b = 32767 := by
  unfold hsub
  rw [h]
  cases rnd with
  | halfUp => rfl
  | trunc => rfl

theorem pre_eq_fdiv (v : Int) : pre v = Int.fdiv v 4 := (Int.fdiv_eq_ediv_of_nonneg v (by decide)).symm

/-- Settles O17: both modes are floors, `HALF_UP` that of the value plus half a unit. -/
theorem roundedShiftFollowsItsMode : Obligations.RoundedShiftFollowsItsMode := by
  have hfloor : ∀ (v : Int) (k : Nat), 2 ^ k * asr v k ≤ v ∧ v < 2 ^ k * asr v k + 2 ^ k := fun v k => by
    rw [mul_comm]
    exact asr_bounds v k
  refine ⟨hfloor, fun v k _ => ⟨?_, ?_⟩, rfl, rfl, rfl⟩
  · rw [rshift_halfUp]
    exact hfloor (v + 2 ^ (k - 1)) k
  · rw [rshift_trunc]
    exact hfloor v k

/-- Settles O18: `add_s` and `sub_s` are the clamp of the exact result. -/
theorem saturatingAddsClampExactSums : Obligations.SaturatingAddsClampExactSums := fun a b _ _ =>
  ⟨sat16_eq_ite (a + b), sat16_eq_ite (a - b), rfl, rfl, rfl⟩

/-- Settles O19: a half-sum is always a lane, a half-difference but at one point. -/
theorem halvingClampsAtOnePointOnly : Obligations.HalvingClampsAtOnePointOnly := by
  intro rnd a b ha hb
  have hsum : hadd rnd a b = rshift rnd (a + b) 1 := sat16_of_isLane _ (isLane_halfSum rnd a b ha hb)
  refine ⟨hsum, ?_, hsub_of_largest rnd a b, ?_⟩
  · exact (sat16_ne_self_iff _).trans ((not_congr (isLane_halfDifference_iff rnd a b ha hb)).trans not_not)
  · rw [hsum]
    exact rshift_one_near rnd (a + b)

/-- Settles O20: the pre-shift is `asr` by 2, whose divisor is positive. -/
theorem preShiftIsTheFloorOfAQuarter : Obligations.PreShiftIsTheFloorOfAQuarter := fun v hv =>
  have ⟨hlo, hhi⟩ := isLane_pre v hv
  ⟨pre_eq_fdiv v, hlo, hhi, rfl⟩

/-- Settles O21: the half of a lane is a lane, and so not clamped. -/
theorem stageTwoShiftNeverClamps : Obligations.StageTwoShiftNeverClamps := by
  intro rnd v hv
  obtain ⟨hlo, hhi⟩ := rshift_one_range rnd v hv
  have hshift : shr1 rnd v = rshift rnd v 1 := sat16_of_isLane _ ⟨by omega, by omega⟩
  rw [hshift]
  exact ⟨rfl, hlo, hhi⟩

end Sys2Proof.Machine
end

section
/-! The exact sums of the rotations, and what their shift by 16 and its clamp do (40_datapath.md R117 to R119, log
entry 19). -/

namespace Sys2Proof.Machine

open Sys2Proof.Config (Rnd)

/-- A product of two 16-bit signed values is at most 2^15 * (2^15 - 1) in size, but at the corner. -/
theorem lane_mul_cases (a b : Int) (ha : Lane a) (hb : Lane b) :
    (-1073709056 ≤ a * b ∧ a * b ≤ 1073709056) ∨ (a = -32768 ∧ b = -32768 ∧ a * b = 1073741824) := by
  unfold Lane at ha hb
  by_cases hmin : a = -32768
  · subst hmin
    omega
  · have ha' : |a| ≤ 32767 := abs_le.2 ⟨by omega, ha.2⟩
    have hb' : |b| ≤ 32768 := abs_le.2 ⟨hb.1, by omega⟩
    have hab : |a * b| ≤ 32767 * 32768 := by
      rw [abs_mul]
      exact mul_le_mul ha' hb' (abs_nonneg b) (by decide)
    exact .inl (abs_le.1 hab)

/-- What an exact sum of a rotation can be: at most 2^15 * (2^16 - 1) in size, or 2^31, and nothing between. -/
def RotationSum (e : Int) : Prop := -2147450880 ≤ e ∧ (e ≤ 2147450880 ∨ e = 2147483648)

/-- The lanes that add two products reach 2^31 when all four operands are -32768, and no value just below it. -/
theorem rotationSum_add (u v c s : Int) (hu : Lane u) (hv : Lane v) (hc : Lane c) (hs : Lane s) :
    RotationSum (u * c + v * s) ∧
      (u * c + v * s = 2147483648 → u = -32768 ∧ v = -32768 ∧ c = -32768 ∧ s = -32768) := by
  unfold RotationSum
  rcases lane_mul_cases u c hu hc with ⟨huc, huc'⟩ | ⟨hu', hc', huc⟩
  · rcases lane_mul_cases v s hv hs with ⟨hvs, hvs'⟩ | ⟨-, -, hvs⟩ <;> omega
  · rcases lane_mul_cases v s hv hs with ⟨hvs, hvs'⟩ | ⟨hv', hs', hvs⟩
    · omega
    · exact ⟨by omega, fun _ => ⟨hu', hv', hc', hs'⟩⟩

/-- The lanes that subtract two products stay below 2^31. -/
theorem rotationSum_sub (u v c s : Int) (hu : Lane u) (hv : Lane v) (hc : Lane c) (hs : Lane s) :
    RotationSum (u * c - v * s) ∧ u * c - v * s ≠ 2147483648 := by
  unfold RotationSum
  rcases lane_mul_cases u c hu hc with ⟨huc, huc'⟩ | ⟨-, -, huc⟩ <;>
    rcases lane_mul_cases v s hv hs with ⟨hvs, hvs'⟩ | ⟨-, -, hvs⟩ <;> omega

/-- The range of a shifted rotation sum, when it is above every lane, and when it is the lowest one. -/
theorem rshift_rotationSum (rnd : Rnd) (e : Int) (he : RotationSum e) :
    -32768 ≤ rshift rnd e 16 ∧ rshift rnd e 16 ≤ 32768 ∧
      (rshift rnd e 16 = 32768 ↔ e = 2147483648 ∨ (rnd = .halfUp ∧ e = 2147450880)) ∧
      (rshift rnd e 16 = -32768 ↔ rnd = .trunc ∧ e < -2147418112) := by
  unfold RotationSum at he
  cases rnd with
  | halfUp =>
    simp only [rshift_halfUp_sixteen, true_and, reduceCtorEq, false_and, iff_false]
    omega
  | trunc =>
    simp only [rshift_trunc_sixteen, true_and, reduceCtorEq, false_and, or_false]
    omega

/-- The clamp changes a shifted rotation sum exactly when the shift is 32768 (40_datapath.md R119). -/
theorem clamp_rotationSum_iff (rnd : Rnd) (e : Int) (he : RotationSum e) :
    sat16 (rshift rnd e 16) ≠ rshift rnd e 16 ↔ e = 2147483648 ∨ (rnd = .halfUp ∧ e = 2147450880) := by
  obtain ⟨hlo, hhi, htop, -⟩ := rshift_rotationSum rnd e he
  rw [sat16_ne_self_iff, ← htop]
  unfold Lane
  omega

/-- Each of the four exact sums of the rotations is a `RotationSum`, and only all operands at -32768 give 2^31. -/
theorem rotationSum_of_mem (u v c s e : Int) (hu : Lane u) (hv : Lane v) (hc : Lane c) (hs : Lane s)
    (he : e ∈ [u * c + v * s, v * c - u * s, u * c - v * s, v * c + u * s]) :
    RotationSum e ∧ (e = 2147483648 → u = -32768 ∧ v = -32768 ∧ c = -32768 ∧ s = -32768) := by
  simp only [List.mem_cons, List.not_mem_nil, or_false] at he
  rcases he with rfl | rfl | rfl | rfl
  · exact rotationSum_add u v c s hu hv hc hs
  · obtain ⟨hsum, hne⟩ := rotationSum_sub v u c s hv hu hc hs
    exact ⟨hsum, fun htop => absurd htop hne⟩
  · obtain ⟨hsum, hne⟩ := rotationSum_sub u v c s hu hv hc hs
    exact ⟨hsum, fun htop => absurd htop hne⟩
  · obtain ⟨hsum, hall⟩ := rotationSum_add v u c s hv hu hc hs
    refine ⟨hsum, fun htop => ?_⟩
    obtain ⟨hv', hu', hc', hs'⟩ := hall htop
    exact ⟨hu', hv', hc', hs'⟩

/-- Settles O22: the four sums are rotation sums, of which the shift and its clamp are known. -/
theorem rotationClampsOnlyAtTheTop : Obligations.RotationClampsOnlyAtTheTop := by
  intro rnd u v c s hu hv hc hs
  refine ⟨rfl, rfl, fun e he => ?_⟩
  obtain ⟨hsum, hall⟩ := rotationSum_of_mem u v c s e hu hv hc hs he
  obtain ⟨hlo, hhi, -, hbottom⟩ := rshift_rotationSum rnd e hsum
  have hclamp := clamp_rotationSum_iff rnd e hsum
  obtain ⟨hmin, hmax⟩ := hsum
  exact ⟨hmin, by omega, hlo, hhi, hclamp, hbottom, hall⟩

/-- Refutes O23: with `TRUNC`, u = v = s = -32768 and c = 32767, the difference lane of `rot_F` is -32768, below the
printed -32767 (log entry 19). -/
theorem not_rotationLanesStayInThePrintedRange : ¬ Obligations.RotationLanesStayInThePrintedRange := by
  intro h
  have hlane : (rotF .trunc { x := -32768, y := -32768 } { c := 32767, s := -32768 }).y = -32768 := by decide
  obtain ⟨hlow, -⟩ := h .trunc { x := -32768, y := -32768 } { c := 32767, s := -32768 } ⟨isLane_min, isLane_min⟩
    isLane_max isLane_min _ (List.mem_cons_of_mem _ List.mem_cons_self)
  rw [hlane] at hlow
  exact absurd hlow (by decide)

end Sys2Proof.Machine
end

section
/-! The primitive commands (40_datapath.md R121 to R124): each completes, with its result in `RES`, in every state. -/

namespace Sys2Proof.Machine

theorem exec_nop (s : State) : exec .nop s = .next (complete s) := rfl

theorem exec_rotf (s : State) :
    exec .rotf s = .next (complete { s with res := resWord (rotF s.params.rnd (opaSample s) (opbTwiddle s)) }) := rfl

theorem exec_roti (s : State) :
    exec .roti s = .next (complete { s with res := resWord (rotI s.params.rnd (opaSample s) (opbTwiddle s)) }) := rfl

theorem exec_presc (s : State) :
    exec .presc s = .next (complete { s with res := resWord (preSample (opaSample s)) }) := rfl

/-- The pre-shift of a lane, as a pattern, is its arithmetic shift by 2 (40_datapath.md R111, R115). -/
theorem u16_pre_s16 (p : Half) : u16 (pre (s16 p)) = p.sshiftRight 2 := by
  calc u16 (pre (s16 p)) = BitVec.ofInt 16 (p.toInt / (2 ^ 2 : Nat)) := rfl
    _ = BitVec.ofInt 16 (p.toInt >>> (2 : Nat)) := by rw [Int.shiftRight_eq_div_pow]
    _ = p.sshiftRight 2 := rfl

theorem resWord_preSample_opa (s : State) :
    resWord (preSample (opaSample s)) = (hiHalf s.opa).sshiftRight 2 ++ (loHalf s.opa).sshiftRight 2 := by
  rw [← u16_pre_s16, ← u16_pre_s16]
  rfl

/-- Settles O25: `NOP` is `complete`. -/
theorem nopOnlySetsDone : Obligations.NopOnlySetsDone := exec_nop

/-- Settles O26: the printed words are `encode`, and the printed lanes are those of `rot_F` and `rot_I` in `RES`. -/
theorem rotationCommandsWriteRes : Obligations.RotationCommandsWriteRes :=
  ⟨decode_encode .rotf, decode_encode .roti, fun s => ⟨exec_rotf s, exec_roti s⟩⟩

/-- Settles O27: the printed word is `encode`, and the pre-shift of both lanes is an arithmetic shift of both halves. -/
theorem prescShiftsBothLanes : Obligations.PrescShiftsBothLanes := by
  refine ⟨decode_encode .presc, fun s => ?_⟩
  rw [exec_presc, resWord_preSample_opa]
  rfl

end Sys2Proof.Machine
end

section
/-! The ranges of the nodes of an `S1` butterfly (41_stage_one.md R147): the two bits that the pre-shift takes off leave
room for every sum, so no node and no rotation clamps. -/

namespace Sys2Proof.Machine

open Sys2Proof.Config (Rnd)

/-- Both lanes of a sample lie in a range. -/
def SampleIn (lo hi : Int) (p : Sample) : Prop := ∀ z ∈ [p.x, p.y], lo ≤ z ∧ z ≤ hi

theorem sampleIn_iff {lo hi : Int} {p : Sample} :
    SampleIn lo hi p ↔ (lo ≤ p.x ∧ p.x ≤ hi) ∧ (lo ≤ p.y ∧ p.y ≤ hi) := by
  simp [SampleIn]

theorem SampleIn.widen {lo hi lo' hi' : Int} {p : Sample} (h : SampleIn lo hi p) (hlo : lo' ≤ lo) (hhi : hi ≤ hi') :
    SampleIn lo' hi' p := fun z hz =>
  have ⟨hzlo, hzhi⟩ := h z hz
  ⟨hlo.trans hzlo, hzhi.trans hhi⟩

theorem addS_of_isLane {a b : Int} (h : Lane (a + b)) : addS a b = a + b := sat16_of_isLane _ h

theorem subS_of_isLane {a b : Int} (h : Lane (a - b)) : subS a b = a - b := sat16_of_isLane _ h

theorem hadd_of_isLane (rnd : Rnd) {a b : Int} (ha : Lane a) (hb : Lane b) : hadd rnd a b = rshift rnd (a + b) 1 :=
  sat16_of_isLane _ (isLane_halfSum rnd a b ha hb)

/-! The first combine level. -/

theorem preSample_range {p : Sample} (h : LaneSample p) : SampleIn (-8192) 8191 (preSample p) := by
  obtain ⟨hx, hy⟩ := h
  exact sampleIn_iff.2 ⟨isLane_pre p.x hx, isLane_pre p.y hy⟩

section

variable {p r : Sample} (hp : SampleIn (-8192) 8191 p) (hr : SampleIn (-8192) 8191 r)

include hp hr

/-- A sum node, P or R. -/
theorem addS_preshifted :
    ({ x := addS p.x r.x, y := addS p.y r.y } : Sample) = { x := p.x + r.x, y := p.y + r.y } ∧
      SampleIn (-16384) 16382 { x := addS p.x r.x, y := addS p.y r.y } := by
  obtain ⟨hpx, hpy⟩ := sampleIn_iff.1 hp
  obtain ⟨hrx, hry⟩ := sampleIn_iff.1 hr
  rw [addS_of_isLane ⟨by omega, by omega⟩, addS_of_isLane ⟨by omega, by omega⟩]
  exact ⟨rfl, sampleIn_iff.2 (by dsimp only; omega)⟩

/-- A difference node, Q or S. -/
theorem subS_preshifted :
    ({ x := subS p.x r.x, y := subS p.y r.y } : Sample) = { x := p.x - r.x, y := p.y - r.y } ∧
      SampleIn (-16383) 16383 { x := subS p.x r.x, y := subS p.y r.y } := by
  obtain ⟨hpx, hpy⟩ := sampleIn_iff.1 hp
  obtain ⟨hrx, hry⟩ := sampleIn_iff.1 hr
  rw [subS_of_isLane ⟨by omega, by omega⟩, subS_of_isLane ⟨by omega, by omega⟩]
  exact ⟨rfl, sampleIn_iff.2 (by dsimp only; omega)⟩

end

/-! The second combine level: sums stop short of 16383 above and differences of -16384 below, and so their differences
stay lanes. -/

section

variable (rnd : Rnd) {p r : Sample} (hp : SampleIn (-16384) 16382 p) (hr : SampleIn (-16384) 16382 r)

include hp hr

theorem diffOut_s1 :
    diffOut rnd .s1 p r = { x := p.x - r.x, y := p.y - r.y } ∧ SampleIn (-32766) 32766 (diffOut rnd .s1 p r) := by
  obtain ⟨hpx, hpy⟩ := sampleIn_iff.1 hp
  obtain ⟨hrx, hry⟩ := sampleIn_iff.1 hr
  have hexact : diffOut rnd .s1 p r = { x := p.x - r.x, y := p.y - r.y } :=
    congrArg₂ Sample.mk (subS_of_isLane ⟨by omega, by omega⟩) (subS_of_isLane ⟨by omega, by omega⟩)
  exact ⟨hexact, sampleIn_iff.2 (by rw [hexact]; dsimp only; omega)⟩

theorem sumOut_s1_range : SampleIn (-16384) 16383 (sumOut rnd .s1 p r) := by
  have hhalf : ∀ a b : Int, -16384 ≤ a ∧ a ≤ 16382 → -16384 ≤ b ∧ b ≤ 16382 →
      -16384 ≤ hadd rnd a b ∧ hadd rnd a b ≤ 16383 := fun a b ha hb => by
    have hnear := rshift_one_near rnd (a + b)
    rw [hadd_of_isLane rnd ⟨by omega, by omega⟩ ⟨by omega, by omega⟩]
    omega
  obtain ⟨hpx, hpy⟩ := sampleIn_iff.1 hp
  obtain ⟨hrx, hry⟩ := sampleIn_iff.1 hr
  exact sampleIn_iff.2 ⟨hhalf p.x r.x hpx hrx, hhalf p.y r.y hpy hry⟩

end

section

variable (rnd : Rnd) {q s : Sample} (hq : SampleIn (-16383) 16383 q) (hs : SampleIn (-16383) 16383 s)

include hq hs

theorem crossMinus_s1 :
    crossMinus rnd .s1 q s = { x := q.x + s.y, y := q.y - s.x } ∧
      SampleIn (-32766) 32766 (crossMinus rnd .s1 q s) := by
  obtain ⟨hqx, hqy⟩ := sampleIn_iff.1 hq
  obtain ⟨hsx, hsy⟩ := sampleIn_iff.1 hs
  have hexact : crossMinus rnd .s1 q s = { x := q.x + s.y, y := q.y - s.x } :=
    congrArg₂ Sample.mk (addS_of_isLane ⟨by omega, by omega⟩) (subS_of_isLane ⟨by omega, by omega⟩)
  exact ⟨hexact, sampleIn_iff.2 (by rw [hexact]; dsimp only; omega)⟩

theorem crossPlus_s1 :
    crossPlus rnd .s1 q s = { x := q.x - s.y, y := q.y + s.x } ∧
      SampleIn (-32766) 32766 (crossPlus rnd .s1 q s) := by
  obtain ⟨hqx, hqy⟩ := sampleIn_iff.1 hq
  obtain ⟨hsx, hsy⟩ := sampleIn_iff.1 hs
  have hexact : crossPlus rnd .s1 q s = { x := q.x - s.y, y := q.y + s.x } :=
    congrArg₂ Sample.mk (subS_of_isLane ⟨by omega, by omega⟩) (addS_of_isLane ⟨by omega, by omega⟩)
  exact ⟨hexact, sampleIn_iff.2 (by rw [hexact]; dsimp only; omega)⟩

end

/-! The rotations of the outputs: a lane that is not -32768 keeps every exact sum away from the clamp. -/

/-- The shift by 16 of a sum of two products of size at most 2^15 * (2^15 - 1) is a 16-bit signed value. -/
theorem isLane_rshift_sixteen (rnd : Rnd) {e : Int} (hlo : -2147418112 ≤ e) (hhi : e ≤ 2147418112) :
    Lane (rshift rnd e 16) := by
  unfold Lane
  cases rnd with
  | halfUp =>
    rw [rshift_halfUp_sixteen]
    omega
  | trunc =>
    rw [rshift_trunc_sixteen]
    omega

theorem rot_of_range (rnd : Rnd) {p : Sample} (hp : SampleIn (-32767) 32766 p) (t : Twiddle) (hc : Lane t.c)
    (hs : Lane t.s) :
    rotF rnd p t = { x := rshift rnd (p.x * t.c + p.y * t.s) 16, y := rshift rnd (p.y * t.c - p.x * t.s) 16 } ∧
    rotI rnd p t = { x := rshift rnd (p.x * t.c - p.y * t.s) 16, y := rshift rnd (p.y * t.c + p.x * t.s) 16 } := by
  have hmul : ∀ z ∈ [p.x, p.y], ∀ w : Int, Lane w → -1073709056 ≤ z * w ∧ z * w ≤ 1073709056 := fun z hz w hw => by
    obtain ⟨hlo, hhi⟩ := hp z hz
    rcases lane_mul_cases z w ⟨by omega, by omega⟩ hw with hsmall | ⟨hcorner, -, -⟩
    · exact hsmall
    · omega
  have hxc := hmul p.x (by simp) t.c hc
  have hxs := hmul p.x (by simp) t.s hs
  have hyc := hmul p.y (by simp) t.c hc
  have hys := hmul p.y (by simp) t.s hs
  have hclamp : ∀ e : Int, -2147418112 ≤ e → e ≤ 2147418112 → sat16 (rshift rnd e 16) = rshift rnd e 16 :=
    fun e hlo hhi => sat16_of_isLane _ (isLane_rshift_sixteen rnd hlo hhi)
  exact ⟨congrArg₂ Sample.mk (hclamp _ (by omega) (by omega)) (hclamp _ (by omega) (by omega)),
    congrArg₂ Sample.mk (hclamp _ (by omega) (by omega)) (hclamp _ (by omega) (by omega))⟩

/-! The whole butterfly. -/

theorem sampleIn_four {lo hi : Int} {q : Quad} (h0 : SampleIn lo hi q.q0) (h1 : SampleIn lo hi q.q1)
    (h2 : SampleIn lo hi q.q2) (h3 : SampleIn lo hi q.q3) : ∀ p ∈ [q.q0, q.q1, q.q2, q.q3], SampleIn lo hi p := by
  simp only [List.forall_mem_cons, h0, h1, h2, h3, true_and, List.not_mem_nil, false_implies, implies_true]

/-- The second combine level of `S1` stays in range at each output, in both directions. -/
theorem secondCombine_s1_range (rnd : Rnd) (dir : Dir) {f : Quad} (hp : SampleIn (-16384) 16382 f.q0)
    (hq : SampleIn (-16383) 16383 f.q1) (hr : SampleIn (-16384) 16382 f.q2) (hs : SampleIn (-16383) 16383 f.q3) :
    let o := secondCombine rnd .s1 dir f
    ∀ p ∈ [o.q0, o.q1, o.q2, o.q3], SampleIn (-32767) 32766 p := by
  have hsum := (sumOut_s1_range rnd hp hr).widen (lo' := -32767) (hi' := 32766) (by decide) (by decide)
  have hdiff := (diffOut_s1 rnd hp hr).2.widen (lo' := -32767) (by decide) le_rfl
  have hminus := (crossMinus_s1 rnd hq hs).2.widen (lo' := -32767) (by decide) le_rfl
  have hplus := (crossPlus_s1 rnd hq hs).2.widen (lo' := -32767) (by decide) le_rfl
  cases dir with
  | fwd => exact sampleIn_four hsum hdiff hminus hplus
  | inv => exact sampleIn_four hsum hdiff hplus hminus

/-- Settles O24: the range of each level leaves the next one room, and the outputs never reach -32768. -/
theorem stageOneNeverSaturates : Obligations.StageOneNeverSaturates := by
  intro rnd dir q h0 h1 h2 h3 a f o
  have ha0 : SampleIn (-8192) 8191 a.q0 := preSample_range h0
  have ha1 : SampleIn (-8192) 8191 a.q1 := preSample_range h1
  have ha2 : SampleIn (-8192) 8191 a.q2 := preSample_range h2
  have ha3 : SampleIn (-8192) 8191 a.q3 := preSample_range h3
  obtain ⟨hpExact, hp⟩ := addS_preshifted ha0 ha2
  obtain ⟨hqExact, hq⟩ := subS_preshifted ha0 ha2
  obtain ⟨hrExact, hr⟩ := addS_preshifted ha1 ha3
  obtain ⟨hsExact, hs⟩ := subS_preshifted ha1 ha3
  have hfirst : ∀ p ∈ [f.q0, f.q1, f.q2, f.q3], SampleIn (-16384) 16383 p :=
    sampleIn_four (hp.widen le_rfl (by decide)) (hq.widen (by decide) le_rfl) (hr.widen le_rfl (by decide))
      (hs.widen (by decide) le_rfl)
  have hsecond : ∀ p ∈ [o.q0, o.q1, o.q2, o.q3], SampleIn (-32767) 32766 p :=
    secondCombine_s1_range rnd dir (f := f) hp hq hr hs
  have hrot : ∀ p ∈ [o.q1, o.q2, o.q3], SampleIn (-32767) 32766 p := fun p hmem =>
    hsecond p (List.mem_cons_of_mem _ hmem)
  obtain ⟨hdiff, -⟩ := diffOut_s1 rnd hp hr
  obtain ⟨hminus, -⟩ := crossMinus_s1 rnd hq hs
  obtain ⟨hplus, -⟩ := crossPlus_s1 rnd hq hs
  exact ⟨sampleIn_four ha0 ha1 ha2 ha3, hpExact, hqExact, hrExact, hsExact, hfirst, hdiff, hminus, hplus, hsecond,
    fun p hmem => rot_of_range rnd (hrot p hmem)⟩

end Sys2Proof.Machine
end

section
/-! A butterfly (41_stage_one.md R141 to R143, 42_stage_two.md R161, 43_stage_three.md R181): its outputs as formulas, and
that each is a sample, so that what is stored is what is loaded again. -/

namespace Sys2Proof.Machine

open Sys2Proof.Config (Rnd)

/-- Settles O28: for a given kind and direction the model's combinations are the printed ones. -/
theorem butterflyOutputsAreTheFormulas : Obligations.ButterflyOutputsAreTheFormulas :=
  fun _ _ _ _ _ _ _ _ _ _ _ => ⟨⟨rfl, rfl⟩, rfl, rfl, rfl, rfl⟩

theorem isLane_crossAdd (rnd : Rnd) (k : Kind) (a b : Int) : Lane (crossAdd rnd k a b) := by
  cases k <;> exact isLane_sat16 _

theorem isLane_crossSub (rnd : Rnd) (k : Kind) (a b : Int) : Lane (crossSub rnd k a b) := by
  cases k <;> exact isLane_sat16 _

theorem isSample_sumOut (rnd : Rnd) (k : Kind) (p r : Sample) : LaneSample (sumOut rnd k p r) := by
  cases k <;> exact ⟨isLane_sat16 _, isLane_sat16 _⟩

theorem isSample_diffOut (rnd : Rnd) (k : Kind) (p r : Sample) : LaneSample (diffOut rnd k p r) :=
  ⟨isLane_crossSub rnd k _ _, isLane_crossSub rnd k _ _⟩

theorem isSample_crossMinus (rnd : Rnd) (k : Kind) (q s : Sample) : LaneSample (crossMinus rnd k q s) :=
  ⟨isLane_crossAdd rnd k _ _, isLane_crossSub rnd k _ _⟩

theorem isSample_crossPlus (rnd : Rnd) (k : Kind) (q s : Sample) : LaneSample (crossPlus rnd k q s) :=
  ⟨isLane_crossSub rnd k _ _, isLane_crossAdd rnd k _ _⟩

theorem Quad.at_cases {P : Sample → Prop} {q : Quad} (h0 : P q.q0) (h1 : P q.q1) (h2 : P q.q2) (h3 : P q.q3) (r : Nat) :
    P (q.at r) := by
  match r with
  | 0 => exact h0
  | 1 => exact h1
  | 2 => exact h2
  | _ + 3 => exact h3

theorem isSample_combine (rnd : Rnd) (k : Kind) (dir : Dir) (q : Quad) (r : Nat) :
    LaneSample ((combine rnd k dir q).at r) := by
  have hminus := isSample_crossMinus rnd k (firstCombine (prescale k q)).q1 (firstCombine (prescale k q)).q3
  have hplus := isSample_crossPlus rnd k (firstCombine (prescale k q)).q1 (firstCombine (prescale k q)).q3
  cases dir with
  | fwd => exact Quad.at_cases (isSample_sumOut _ _ _ _) (isSample_diffOut _ _ _ _) hminus hplus r
  | inv => exact Quad.at_cases (isSample_sumOut _ _ _ _) (isSample_diffOut _ _ _ _) hplus hminus r

theorem isSample_rotateQuad (rnd : Rnd) (dir : Dir) {q : Quad} (h : LaneSample q.q0) (w2 w1 w3 : Twiddle) (r : Nat) :
    LaneSample ((rotateQuad rnd dir q w2 w1 w3).at r) :=
  Quad.at_cases (q := rotateQuad rnd dir q w2 w1 w3) h (isSample_rot _ _ _ _) (isSample_rot _ _ _ _)
    (isSample_rot _ _ _ _) r

/-- Every output of a butterfly is a sample: the last operation on each lane clamps (40_datapath.md R110). -/
theorem isSample_butterflyOut (rnd : Rnd) (k : Kind) (dir : Dir) (tw : Nat → Twiddle) (t : Nat) (q : Quad) (r : Nat) :
    LaneSample ((butterflyOut rnd k dir tw t q).at r) := by
  cases k with
  | s1 => exact isSample_rotateQuad rnd dir (isSample_combine rnd .s1 dir q 0) _ _ _ r
  | s2 => exact isSample_rotateQuad rnd dir (isSample_combine rnd .s2 dir q 0) _ _ _ r
  | s3 => exact isSample_combine rnd .s3 dir q r

/-- A butterfly reads the twiddle entries 2t, t and 3t, and none in `S3` (41_stage_one.md R141, 43_stage_three.md R181). -/
theorem butterflyOut_congr (rnd : Rnd) (k : Kind) (dir : Dir) {tw tw' : Nat → Twiddle} {t : Nat} (q : Quad)
    (h : k = .s3 ∨ ∀ m ≤ 3 * t, tw m = tw' m) : butterflyOut rnd k dir tw t q = butterflyOut rnd k dir tw' t q := by
  cases k with
  | s3 => rfl
  | s1 =>
    have htw := h.resolve_left (by simp)
    simp only [butterflyOut, htw (2 * t) (by omega), htw t (by omega), htw (3 * t) le_rfl]
  | s2 =>
    have htw := h.resolve_left (by simp)
    simp only [butterflyOut, htw (2 * t) (by omega), htw t (by omega), htw (3 * t) le_rfl]

end Sys2Proof.Machine
end

section
/-! Samples in memory (20_memory.md R64): what storing one sample, or the four of a butterfly, does to the samples of the
buffer and to the bytes outside it. -/

namespace Sys2Proof.Machine

/-! One sample. -/

theorem sampleAt_storeSampleMem_same (s : State) (m : Memory) (i : Nat) {p : Sample} (hp : LaneSample p) :
    sampleAt s (storeSampleMem s m i p) i = p := by
  unfold sampleAt storeSampleMem
  rw [wordAt_memWrite_same]
  exact sampleOfWord_wordOfSample _ p hp

theorem sampleAt_storeSampleMem_other (s : State) (m : Memory) {i j : Nat} (p : Sample) (h : j ≠ i) :
    sampleAt s (storeSampleMem s m i p) j = sampleAt s m j :=
  congrArg (sampleOfWord s.params.packOrder) (wordAt_memWrite_otherSample s m j i _ h)

theorem memByte_storeSampleMem_outside (s : State) (m : Memory) {i : Nat} (p : Sample) (hi : i < s.fftLen) {a : Nat}
    (ha : OutsideRegion (bufRegion s) a) : memByte (storeSampleMem s m i p) a = memByte m a :=
  survivesSamples_byteOutside s a _ ha i hi m _ rfl

/-! The four samples of a butterfly. -/

/-- After the store each of the four places holds its sample. -/
theorem sampleAt_storeQuadMem_at (s : State) (m : Memory) (i0 : Nat) {n2 : Nat} {q : Quad} (hn : 0 < n2)
    (hq : ∀ r, LaneSample (q.at r)) {r : Nat} (hr : r < 4) :
    sampleAt s (storeQuadMem s m i0 n2 q) (i0 + r * n2) = q.at r := by
  unfold storeQuadMem
  match r, hr with
  | 3, _ => exact sampleAt_storeSampleMem_same s _ _ (hq 3)
  | 2, _ =>
    rw [sampleAt_storeSampleMem_other s _ _ (by omega)]
    exact sampleAt_storeSampleMem_same s _ _ (hq 2)
  | 1, _ =>
    rw [Nat.one_mul, sampleAt_storeSampleMem_other s _ _ (by omega), sampleAt_storeSampleMem_other s _ _ (by omega)]
    exact sampleAt_storeSampleMem_same s _ _ (hq 1)
  | 0, _ =>
    rw [Nat.zero_mul, Nat.add_zero, sampleAt_storeSampleMem_other s _ _ (by omega),
      sampleAt_storeSampleMem_other s _ _ (by omega), sampleAt_storeSampleMem_other s _ _ (by omega)]
    exact sampleAt_storeSampleMem_same s _ _ (hq 0)

/-- The store leaves every sample at another place. -/
theorem sampleAt_storeQuadMem_other (s : State) (m : Memory) (i0 n2 : Nat) (q : Quad) {i : Nat}
    (h : ∀ r < 4, i ≠ i0 + r * n2) : sampleAt s (storeQuadMem s m i0 n2 q) i = sampleAt s m i := by
  have h0 := h 0 (by decide)
  have h1 := h 1 (by decide)
  unfold storeQuadMem
  rw [sampleAt_storeSampleMem_other s _ _ (h 3 (by decide)), sampleAt_storeSampleMem_other s _ _ (h 2 (by decide)),
    sampleAt_storeSampleMem_other s _ _ (by omega), sampleAt_storeSampleMem_other s _ _ (by omega)]

theorem memByte_storeQuadMem_outside (s : State) (m : Memory) {i0 n2 : Nat} (q : Quad) (hi : i0 + 3 * n2 < s.fftLen)
    {a : Nat} (ha : OutsideRegion (bufRegion s) a) : memByte (storeQuadMem s m i0 n2 q) a = memByte m a := by
  unfold storeQuadMem
  rw [memByte_storeSampleMem_outside s _ _ hi ha, memByte_storeSampleMem_outside s _ _ (by omega) ha,
    memByte_storeSampleMem_outside s _ _ (by omega) ha, memByte_storeSampleMem_outside s _ _ (by omega) ha]

/-- A twiddle entry is as it was at acceptance, when the buffer is apart from the table (20_memory.md R82). -/
theorem twiddleAt_of_outside {s : State} {m : Memory}
    (hm : ∀ a, OutsideRegion (bufRegion s) a → memByte m a = memByte s.mem a)
    (hapart : RegionsApart (bufRegion s) (twRegion s)) {k : Nat} (hk : k < s.twLen.toNat) :
    twiddleAt s m k = twiddleAt s s.mem k :=
  congrArg twiddleOfWord (wordAt_table hm (twRegion s) k hapart (Nat.mul_le_mul_left 4 hk))

end Sys2Proof.Machine
end

section
/-! One decimation level (20_memory.md R72, 41_stage_one.md R144, 42_stage_two.md R160, 43_stage_three.md R180), butterfly
by butterfly: the samples of the butterflies done are the level's outputs, the others are still its inputs. -/

namespace Sys2Proof.Machine

open Sys2Proof.Config (Rnd)

/-! The samples of a butterfly. -/

/-- The four samples of a butterfly, of the samples `x`. -/
def quadOf (x : Nat → Sample) (i0 n2 : Nat) : Quad :=
  { q0 := x i0, q1 := x (i0 + n2), q2 := x (i0 + 2 * n2), q3 := x (i0 + 3 * n2) }

/-- What memory holds at a butterfly's four places is the butterfly of `x`, when each place holds its sample of `x`. -/
theorem quadAt_eq_quadOf {s : State} {m : Memory} {x : Nat → Sample} {i0 n2 : Nat}
    (h : ∀ r < 4, sampleAt s m (i0 + r * n2) = x (i0 + r * n2)) : quadAt s m i0 n2 = quadOf x i0 n2 := by
  have h0 := h 0 (by decide)
  have h1 := h 1 (by decide)
  rw [Nat.zero_mul, Nat.add_zero] at h0
  rw [Nat.one_mul] at h1
  rw [quadAt, quadOf, h0, h1, h 2 (by decide), h 3 (by decide)]

/-- Sample `i` belongs to the butterfly (j, b) of a level of block size `n1`. -/
def InButterfly (n1 j b i : Nat) : Prop := i % n1 % (n1 / 4) = j ∧ i / n1 = b

section

variable {n1 j b : Nat} (hn : 4 * (n1 / 4) = n1) (hj : j < n1 / 4)

include hn hj

/-- The sample at offset r * n2 of the butterfly (j, b): where it lies in its block, and in which block. -/
theorem butterfly_place {r : Nat} (hr : r < 4) :
    (j + b * n1 + r * (n1 / 4)) % n1 = j + r * (n1 / 4) ∧ (j + b * n1 + r * (n1 / 4)) / n1 = b := by
  have hr3 : r * (n1 / 4) ≤ 3 * (n1 / 4) := Nat.mul_le_mul_right _ (by omega)
  have hlt : j + r * (n1 / 4) < n1 := by omega
  have hpos : 0 < n1 := by omega
  rw [Nat.add_right_comm]
  exact ⟨by rw [Nat.add_mul_mod_self_right, Nat.mod_eq_of_lt hlt],
    by rw [Nat.add_mul_div_right _ _ hpos, Nat.div_eq_of_lt hlt, Nat.zero_add]⟩

theorem butterfly_offset {r : Nat} (hr : r < 4) : (j + b * n1 + r * (n1 / 4)) % n1 / (n1 / 4) = r := by
  have hpos : 0 < n1 / 4 := by omega
  rw [(butterfly_place hn hj hr).1, Nat.add_mul_div_right _ _ hpos, Nat.div_eq_of_lt hj, Nat.zero_add]

theorem inButterfly_at {r : Nat} (hr : r < 4) : InButterfly n1 j b (j + b * n1 + r * (n1 / 4)) := by
  obtain ⟨hplace, hblock⟩ := butterfly_place hn hj (b := b) hr
  exact ⟨by rw [hplace, Nat.add_mul_mod_self_right, Nat.mod_eq_of_lt hj], hblock⟩

/-- A butterfly's samples are the four at its offsets. -/
theorem InButterfly.exists_offset {i : Nat} (h : InButterfly n1 j b i) : ∃ r < 4, i = j + b * n1 + r * (n1 / 4) := by
  obtain ⟨rfl, rfl⟩ := h
  refine ⟨i % n1 / (n1 / 4), ?_, ?_⟩
  · rw [Nat.div_lt_iff_lt_mul (by omega), hn]
    exact Nat.mod_lt _ (by omega)
  · have hblock := Nat.mod_add_div i n1
    have hoffset := Nat.mod_add_div (i % n1) (n1 / 4)
    rw [Nat.mul_comm (i / n1), Nat.mul_comm (i % n1 / (n1 / 4))]
    omega

/-- The level's output at offset r * n2 of a butterfly is the butterfly's output r. -/
theorem levelOut_at (rnd : Rnd) (k : Kind) (dir : Dir) (st : Nat) (tw : Nat → Twiddle) (x : Nat → Sample) {r : Nat}
    (hr : r < 4) :
    levelOut rnd k dir n1 st tw x (j + b * n1 + r * (n1 / 4)) =
      (butterflyOut rnd k dir tw (j * st) (quadOf x (j + b * n1) (n1 / 4))).at r := by
  obtain ⟨hj', hb'⟩ := inButterfly_at hn hj (b := b) hr
  unfold levelOut quadOf
  simp only [hj', hb', butterfly_offset hn hj hr]

end

/-! The progress of a level. -/

/-- Memory inside a level from samples `x` to samples `y`: nothing has changed outside the buffer, the samples in `done`
are those of `y` and the others those of `x`. -/
structure LevelProgress (s : State) (x y : Nat → Sample) (done : Nat → Prop) (m : Memory) : Prop where
  outside : ∀ a, OutsideRegion (bufRegion s) a → memByte m a = memByte s.mem a
  output : ∀ i < s.fftLen, done i → sampleAt s m i = y i
  input : ∀ i < s.fftLen, ¬ done i → sampleAt s m i = x i

theorem LevelProgress.congr {s : State} {x y : Nat → Sample} {done done' : Nat → Prop} {m : Memory}
    (h : LevelProgress s x y done m) (hiff : ∀ i < s.fftLen, done' i ↔ done i) : LevelProgress s x y done' m where
  outside := h.outside
  output i hi hd := h.output i hi ((hiff i hi).1 hd)
  input i hi hd := h.input i hi fun hdone => hd ((hiff i hi).2 hdone)

/-- One butterfly of a level whose samples are still inputs: they become outputs. A kind that rotates needs the table
apart from the buffer and its indices inside the table. -/
theorem LevelProgress.runs_butterfly {s : State} {k : Kind} {dir : Dir} {n1 st j b : Nat} {x : Nat → Sample}
    {done : Nat → Prop} {m : Memory}
    (h : LevelProgress s x (levelOut s.params.rnd k dir n1 st (twiddleAt s s.mem) x) done m)
    (hn : 4 * (n1 / 4) = n1) (hj : j < n1 / 4) (hfit : j + b * n1 + 3 * (n1 / 4) < s.fftLen)
    (hfresh : ∀ i < s.fftLen, InButterfly n1 j b i → ¬ done i)
    (ht : k = .s3 ∨ (RegionsApart (bufRegion s) (twRegion s) ∧ 3 * (j * st) < s.twLen.toNat)) :
    ∃ m', EngRuns (butterfly s k dir (j + b * n1) (n1 / 4) (j * st)) m () m' ∧
      LevelProgress s x (levelOut s.params.rnd k dir n1 st (twiddleAt s s.mem) x)
        (fun i => done i ∨ InButterfly n1 j b i) m' := by
  have hlt : ∀ r < 4, j + b * n1 + r * (n1 / 4) < s.fftLen := fun r hr => by
    have hr3 : r * (n1 / 4) ≤ 3 * (n1 / 4) := Nat.mul_le_mul_right _ (by omega)
    omega
  have hread : ∀ r < 4, sampleAt s m (j + b * n1 + r * (n1 / 4)) = x (j + b * n1 + r * (n1 / 4)) := fun r hr =>
    h.input _ (hlt r hr) (hfresh _ (hlt r hr) (inButterfly_at hn hj hr))
  have htw : k = .s3 ∨ ∀ e ≤ 3 * (j * st), twiddleAt s m e = twiddleAt s s.mem e :=
    ht.imp_right fun ⟨hapart, hlen⟩ e he => twiddleAt_of_outside h.outside hapart (by omega)
  have hother : ∀ i, ¬ InButterfly n1 j b i → ∀ r < 4, i ≠ j + b * n1 + r * (n1 / 4) := fun i hin r hr heq => by
    rw [heq] at hin
    exact hin (inButterfly_at hn hj hr)
  refine ⟨_, engRuns_butterfly s k dir _ _ _ m, ?_, ?_, ?_⟩
  · intro a ha
    rw [memByte_storeQuadMem_outside s m _ hfit ha]
    exact h.outside a ha
  · intro i hi hdone
    by_cases hin : InButterfly n1 j b i
    · obtain ⟨r, hr, rfl⟩ := hin.exists_offset hn hj
      rw [sampleAt_storeQuadMem_at s m _ (by omega) (isSample_butterflyOut _ _ _ _ _ _) hr, quadAt_eq_quadOf hread,
        butterflyOut_congr _ k dir _ htw, levelOut_at hn hj _ _ _ _ _ _ hr]
    · rw [sampleAt_storeQuadMem_other s m _ _ _ (hother i hin)]
      exact h.output i hi (hdone.resolve_right hin)
  · intro i hi hdone
    obtain ⟨hold, hin⟩ := not_or.1 hdone
    rw [sampleAt_storeQuadMem_other s m _ _ _ (hother i hin)]
    exact h.input i hi hold

end Sys2Proof.Machine
end

section
/-! Stage one on memory (41_stage_one.md R144), and the completion of a command whose body goes through. -/

namespace Sys2Proof.Machine

/-- `m` holds the samples `x` in the buffer, and what `s` holds outside it. -/
structure HoldsSamples (s : State) (x : Nat → Sample) (m : Memory) : Prop where
  outside : ∀ a, OutsideRegion (bufRegion s) a → memByte m a = memByte s.mem a
  sample : ∀ i < s.fftLen, sampleAt s m i = x i

theorem holdsSamples_start (s : State) : HoldsSamples s (sampleAt s s.mem) s.mem := ⟨fun _ _ => rfl, fun _ _ => rfl⟩

theorem HoldsSamples.progress {s : State} {x : Nat → Sample} {m : Memory} (h : HoldsSamples s x m) (y : Nat → Sample)
    {done : Nat → Prop} (hnone : ∀ i, ¬ done i) : LevelProgress s x y done m where
  outside := h.outside
  output i _ hd := absurd hd (hnone i)
  input i hi _ := h.sample i hi

theorem LevelProgress.holdsSamples {s : State} {x y : Nat → Sample} {done : Nat → Prop} {m : Memory}
    (h : LevelProgress s x y done m) (hall : ∀ i < s.fftLen, done i) : HoldsSamples s y m where
  outside := h.outside
  sample i hi := h.output i hi (hall i hi)

/-- A legal length is a multiple of 4. -/
theorem LengthLegal.four_mul_quarter {s : State} (h : LengthLegal s) : 4 * (s.fftLen / 4) = s.fftLen := by
  obtain ⟨hmin, -⟩ := h
  exact Nat.mul_div_cancel' (dvd_pow_self 4 (by omega))

/-- In the one block of level 0 butterfly k holds the samples i with i mod n2 = k. -/
theorem inButterfly_zero_iff {n k i : Nat} (hi : i < n) : InButterfly n k 0 i ↔ i % (n / 4) = k := by
  unfold InButterfly
  rw [Nat.mod_eq_of_lt hi, Nat.div_eq_of_lt hi]
  exact and_iff_left rfl

/-- StageOne takes the samples in memory to the outputs of level 0. -/
theorem engRuns_stageOne {s : State} (hl : LengthLegal s) (hs : StrideLegal s)
    (hapart : RegionsApart (bufRegion s) (twRegion s)) (dir : Dir) {x : Nat → Sample} {m : Memory}
    (h : HoldsSamples s x m) :
    ∃ m', EngRuns (stageOne s dir) m () m' ∧ HoldsSamples s (stageOneOut s dir x) m' := by
  obtain ⟨hzero, hsize⟩ := hs
  have hquarter := hl.four_mul_quarter
  have hlen := hl.sixteen_le
  have hturn : ∀ k < s.fftLen / 4, ∀ m, LevelProgress s x (stageOneOut s dir x) (fun i => i % (s.fftLen / 4) < k) m →
      ∃ m', EngRuns (butterfly s .s1 dir k (s.fftLen / 4) (k * s.stride)) m () m' ∧
        LevelProgress s x (stageOneOut s dir x) (fun i => i % (s.fftLen / 4) < k + 1) m' := fun k hk m hm => by
    have htw : 3 * (k * s.stride) < s.twLen.toNat := by
      rw [← hsize, Nat.mul_comm s.stride]
      exact twiddle_index_lt k s.fftLen s.stride hk (Nat.pos_of_ne_zero hzero)
    obtain ⟨m', hrun, hm'⟩ := LevelProgress.runs_butterfly (b := 0) hm hquarter hk (by omega)
      (fun i hi hin => by
        have := (inButterfly_zero_iff hi).1 hin
        omega)
      (.inr ⟨hapart, htw⟩)
    rw [Nat.zero_mul, Nat.add_zero] at hrun
    refine ⟨m', hrun, hm'.congr fun i hi => ?_⟩
    rw [inButterfly_zero_iff hi]
    omega
  obtain ⟨m', hrun, hm'⟩ := engRuns_forUp _ _ _ hturn m (h.progress _ fun i => Nat.not_lt_zero _)
  exact ⟨m', hrun, hm'.holdsSamples fun i _ => Nat.mod_lt i (by omega)⟩

theorem ReadyFacts.bufferOverlaps_eq_false {i : Instr} {s : State} (h : ReadyFacts i s) :
    bufferOverlaps i s = false := by
  rw [Bool.eq_false_iff, ne_eq, bufferOverlaps_iff]
  rintro ⟨r, hr, hn⟩
  exact hn (h.apart r hr)

/-- A command with legal operands whose body leaves the samples `x` completes with them. -/
theorem exec_completes_with {i : Instr} {s : State} (hu : usesLength i = true) (h : ReadyFacts i s) {x : Nat → Sample}
    (hbody : ∃ m, EngRuns (commandBody i s) s.mem () m ∧ HoldsSamples s x m) :
    ∃ t, exec i s = .next t ∧ CompletedInBuffer s t ∧ ∀ k < s.fftLen, sampleAt s t.mem k = x k := by
  obtain ⟨m, hrun, hm⟩ := hbody
  obtain ⟨bus, hexec⟩ :=
    runCommand_of_runs i (commandBody i s) s m h.checks.validate h.bufferOverlaps_eq_false h.calm hrun
  exact ⟨_, (exec_eq_runCommand i s hu).trans hexec, ⟨rfl, hm.outside⟩, hm.sample⟩

/-- Settles O29: the N/4 butterflies of level 0, one after the other, turn its inputs into its outputs. -/
theorem stageOneComputesItsLevel : Obligations.StageOneComputesItsLevel := by
  intro s i dir hi hready
  have hbody := engRuns_stageOne hready.len hready.stride hready.apart dir (holdsSamples_start s)
  rcases hi with ⟨rfl, rfl⟩ | ⟨rfl, rfl⟩
  · exact exec_completes_with rfl (CommandReady.facts (i := .stg1f) hready rfl) hbody
  · exact exec_completes_with rfl (CommandReady.facts (i := .stg1i) hready rfl) hbody

end Sys2Proof.Machine
end

section
/-! Stage two on memory (42_stage_two.md R160): the columns of a level, butterfly by butterfly, and the levels one after
the other. -/

namespace Sys2Proof.Machine

/-! The order of a level's butterflies. -/

/-- Sample `i` belongs to a butterfly that stage two runs before the butterfly (j, b): one of a column below j, or of
column j in a block below b. -/
def DoneBefore (n1 j b i : Nat) : Prop :=
  i % n1 % (n1 / 4) < j ∨ i % n1 % (n1 / 4) = j ∧ i / n1 < b

theorem not_doneBefore_first (n1 i : Nat) : ¬ DoneBefore n1 0 0 i := by
  simp [DoneBefore]

theorem doneBefore_succ_iff (n1 j b i : Nat) :
    DoneBefore n1 j (b + 1) i ↔ DoneBefore n1 j b i ∨ InButterfly n1 j b i := by
  unfold DoneBefore InButterfly
  omega

theorem InButterfly.not_doneBefore {n1 j b i : Nat} (h : InButterfly n1 j b i) : ¬ DoneBefore n1 j b i := by
  obtain ⟨rfl, rfl⟩ := h
  unfold DoneBefore
  omega

/-- After the last block of a column comes the first block of the next one. -/
theorem doneBefore_nextColumn_iff {n1 len i : Nat} (j : Nat) (hdvd : n1 ∣ len) (hi : i < len) :
    DoneBefore n1 (j + 1) 0 i ↔ DoneBefore n1 j (len / n1) i := by
  have hblock : i / n1 < len / n1 := Nat.div_lt_div_of_lt_of_dvd hdvd hi
  simp only [DoneBefore, hblock, Nat.not_lt_zero, and_false, or_false, and_true, Nat.lt_succ_iff_lt_or_eq]

/-- Every sample is in one of the n1/4 columns. -/
theorem doneBefore_end {n1 : Nat} (hpos : 0 < n1 / 4) (i : Nat) : DoneBefore n1 (n1 / 4) 0 i :=
  .inl (Nat.mod_lt _ hpos)

/-! One level. -/

/-- What one level of stage two makes of the samples `x`, with the twiddle entries of `s` (42_stage_two.md R160). -/
def stageTwoLevelOut (s : State) (dir : Dir) (n1 st : Nat) (x : Nat → Sample) : Nat → Sample :=
  levelOut s.params.rnd .s2 dir n1 st (twiddleAt s s.mem) x

section

variable {s : State} (hapart : RegionsApart (bufRegion s) (twRegion s)) (dir : Dir) {n1 st : Nat}
  (hfour : 4 * (n1 / 4) = n1) (hdvd : n1 ∣ s.fftLen) (hst : 0 < st) (hfit : n1 * st ≤ s.twLen.toNat)
  {x : Nat → Sample}

include hapart hfour hdvd hst hfit

/-- The butterflies of column j, one in each block. -/
theorem engRuns_stageTwoColumn {j : Nat} (hj : j < n1 / 4) {m : Memory}
    (h : LevelProgress s x (stageTwoLevelOut s dir n1 st x) (DoneBefore n1 j 0) m) :
    ∃ m', EngRuns (forUp (s.fftLen / n1) fun b => butterfly s .s2 dir (j + b * n1) (n1 / 4) (j * st)) m () m' ∧
      LevelProgress s x (stageTwoLevelOut s dir n1 st x) (DoneBefore n1 (j + 1) 0) m' := by
  have htw : 3 * (j * st) < s.twLen.toNat := (twiddle_index_lt j n1 st hj hst).trans_le hfit
  have hturn : ∀ b < s.fftLen / n1, ∀ m, LevelProgress s x (stageTwoLevelOut s dir n1 st x) (DoneBefore n1 j b) m →
      ∃ m', EngRuns (butterfly s .s2 dir (j + b * n1) (n1 / 4) (j * st)) m () m' ∧
        LevelProgress s x (stageTwoLevelOut s dir n1 st x) (DoneBefore n1 j (b + 1)) m' := fun b hb m hm => by
    obtain ⟨m', hrun, hm'⟩ := LevelProgress.runs_butterfly hm hfour hj (butterfly_index_lt s.fftLen n1 j b hj hb)
      (fun _ _ hin => hin.not_doneBefore) (.inr ⟨hapart, htw⟩)
    exact ⟨m', hrun, hm'.congr fun i _ => doneBefore_succ_iff n1 j b i⟩
  obtain ⟨m', hrun, hm'⟩ := engRuns_forUp _ _ _ hturn m h
  exact ⟨m', hrun, hm'.congr fun i hi => doneBefore_nextColumn_iff j hdvd hi⟩

/-- A level of stage two takes the samples in memory to its outputs. -/
theorem engRuns_stageTwoLevel {m : Memory} (h : HoldsSamples s x m) :
    ∃ m', EngRuns (stageTwoLevel s dir n1 st) m () m' ∧ HoldsSamples s (stageTwoLevelOut s dir n1 st x) m' := by
  have hpos : 0 < n1 := Nat.pos_of_dvd_of_pos hdvd (Nat.pow_pos (by decide))
  obtain ⟨m', hrun, hm'⟩ := engRuns_forUp _ _ _
    (fun _ hj _ hm => engRuns_stageTwoColumn hapart dir hfour hdvd hst hfit hj hm) m
    (h.progress _ (not_doneBefore_first n1))
  exact ⟨m', hrun, hm'.holdsSamples fun i _ => doneBefore_end (by omega) i⟩

end

/-! The levels. -/

theorem stageTwoLevels_succ (s : State) (dir : Dir) (k n1 st : Nat) : stageTwoLevels s dir (k + 1) n1 st =
    stageTwoLevel s dir n1 st >>= fun _ => stageTwoLevels s dir k (n1 / 4) (4 * st) := rfl

theorem levelsOut_succ (s : State) (dir : Dir) (k n1 st : Nat) (x : Nat → Sample) :
    levelsOut s.params.rnd dir (twiddleAt s s.mem) (k + 1) n1 st x =
      levelsOut s.params.rnd dir (twiddleAt s s.mem) k (n1 / 4) (4 * st) (stageTwoLevelOut s dir n1 st x) := rfl

/-- The last `levels` levels of stage two begin at block size 4^(levels + 1). From level to level the block size times
the twiddle step stays, and so the twiddle indices stay inside the table. -/
theorem engRuns_stageTwoLevels {s : State} (hapart : RegionsApart (bufRegion s) (twRegion s)) (dir : Dir) (levels : Nat)
    (hlevels : levels + 1 ≤ s.log4n) {st : Nat} (hst : 0 < st) (hfit : 4 ^ (levels + 1) * st ≤ s.twLen.toNat)
    {x : Nat → Sample} {m : Memory} (h : HoldsSamples s x m) :
    ∃ m', EngRuns (stageTwoLevels s dir levels (4 ^ (levels + 1)) st) m () m' ∧
      HoldsSamples s (levelsOut s.params.rnd dir (twiddleAt s s.mem) levels (4 ^ (levels + 1)) st x) m' := by
  induction levels generalizing st x m with
  | zero => exact ⟨m, engRuns_pure () m, h⟩
  | succ k ih =>
    have hquarter : 4 ^ (k + 1 + 1) / 4 = 4 ^ (k + 1) := Nat.mul_div_cancel _ (by decide)
    obtain ⟨m1, hrun1, hm1⟩ := engRuns_stageTwoLevel hapart dir (by omega) (pow_dvd_pow 4 hlevels) hst hfit h
    obtain ⟨m2, hrun2, hm2⟩ := ih (by omega) (st := 4 * st) (by omega)
      (by rwa [← Nat.mul_assoc, ← Nat.pow_succ]) hm1
    rw [stageTwoLevels_succ, levelsOut_succ, hquarter]
    exact ⟨m2, engRuns_bind _ _ _ _ _ () _ hrun1 hrun2, hm2⟩

/-- StageTwo takes the samples in memory to the outputs of its levels. For N = 16 there is no level (R162). -/
theorem engRuns_stageTwo {s : State} (hl : LengthLegal s) (hs : StrideLegal s)
    (hapart : RegionsApart (bufRegion s) (twRegion s)) (dir : Dir) {x : Nat → Sample} {m : Memory}
    (h : HoldsSamples s x m) :
    ∃ m', EngRuns (stageTwo s dir) m () m' ∧ HoldsSamples s (stageTwoOut s dir x) m' := by
  obtain ⟨hzero, hsize⟩ := hs
  obtain ⟨hmin, -⟩ := hl
  have hlen : s.fftLen = 4 * 4 ^ (s.log4n - 2 + 1) := by
    rw [← Nat.pow_succ', State.fftLen]
    congr 1
    omega
  have hquarter : s.fftLen / 4 = 4 ^ (s.log4n - 2 + 1) := by omega
  have hfit : 4 ^ (s.log4n - 2 + 1) * (4 * s.stride) = s.twLen.toNat := by
    rw [← hsize, hlen]
    ring
  unfold stageTwo stageTwoOut
  rw [hquarter]
  exact engRuns_stageTwoLevels hapart dir (s.log4n - 2) (by omega) (by omega) hfit.le h

/-- Settles O30: the levels 1 to L-2, one after the other, each turn their inputs into their outputs. -/
theorem stageTwoComputesItsLevels : Obligations.StageTwoComputesItsLevels := by
  intro s i dir hi hready
  have hbody := engRuns_stageTwo hready.len hready.stride hready.apart dir (holdsSamples_start s)
  rcases hi with ⟨rfl, rfl⟩ | ⟨rfl, rfl⟩
  · exact exec_completes_with rfl (CommandReady.facts (i := .stg2f) hready rfl) hbody
  · exact exec_completes_with rfl (CommandReady.facts (i := .stg2i) hready rfl) hbody

end Sys2Proof.Machine
end

section
/-! Stage three on memory (43_stage_three.md R180 to R183): the groups of four adjacent samples, one after the other, and
the exchange of two outputs that the direction makes. -/

namespace Sys2Proof.Machine

open Sys2Proof.Config (Rnd)

/-! Groups of four. -/

/-- In the last level the butterflies are the groups of four adjacent samples. -/
theorem inButterfly_four_iff (g i : Nat) : InButterfly 4 0 g i ↔ i / 4 = g := by
  unfold InButterfly
  omega

/-- Output `r` of a group is output `r` of its `S3` butterfly, which rotates nothing (43_stage_three.md R181). -/
theorem stageThreeOut_group (s : State) (dir : Dir) (x : Nat → Sample) (g : Nat) {r : Nat} (hr : r < 4) :
    stageThreeOut s dir x (4 * g + r) = (combine s.params.rnd .s3 dir (quadOf x (4 * g) 1)).at r := by
  have h := levelOut_at (n1 := 4) (b := g) rfl (j := 0) (by decide) s.params.rnd .s3 dir 0 (twiddleAt s s.mem) x hr
  rwa [Nat.zero_add, Nat.div_self (by decide), Nat.mul_one, Nat.mul_comm g] at h

theorem swap_two_three_lt : ∀ r < 4, Equiv.swap 2 3 r < 4 := by decide

/-- The direction only decides which of the two cross outputs comes first. -/
theorem combine_inv_at (rnd : Rnd) (k : Kind) (q : Quad) {r : Nat} (hr : r < 4) :
    (combine rnd k .inv q).at r = (combine rnd k .fwd q).at (Equiv.swap 2 3 r) := by
  match r, hr with
  | 0, _ => rfl
  | 1, _ => rfl
  | 2, _ => rfl
  | 3, _ => rfl

theorem stageThreeOut_inv_group (s : State) (x : Nat → Sample) (g : Nat) {r : Nat} (hr : r < 4) :
    stageThreeOut s .inv x (4 * g + r) = stageThreeOut s .fwd x (4 * g + Equiv.swap 2 3 r) := by
  rw [stageThreeOut_group s .inv x g hr, combine_inv_at _ _ _ hr,
    stageThreeOut_group s .fwd x g (swap_two_three_lt r hr)]

/-! The pass and its two commands. -/

/-- StageThree takes the samples in memory to the outputs of the last level. It reads no twiddle entry, so neither the
stride nor the place of the table matters (43_stage_three.md R182). -/
theorem engRuns_stageThree {s : State} (hl : LengthLegal s) (dir : Dir) {x : Nat → Sample} {m : Memory}
    (h : HoldsSamples s x m) :
    ∃ m', EngRuns (stageThree s dir) m () m' ∧ HoldsSamples s (stageThreeOut s dir x) m' := by
  have hquarter := hl.four_mul_quarter
  have hturn : ∀ g < s.fftLen / 4, ∀ m, LevelProgress s x (stageThreeOut s dir x) (fun i => i / 4 < g) m →
      ∃ m', EngRuns (butterfly s .s3 dir (4 * g) 1 0) m () m' ∧
        LevelProgress s x (stageThreeOut s dir x) (fun i => i / 4 < g + 1) m' := fun g hg m hm => by
    obtain ⟨m', hrun, hm'⟩ := LevelProgress.runs_butterfly (j := 0) (b := g) hm rfl (by decide) (by omega)
      (fun i _ hin => ((inButterfly_four_iff g i).1 hin).not_lt) (.inl rfl)
    rw [Nat.zero_add, Nat.mul_comm g] at hrun
    refine ⟨m', hrun, hm'.congr fun i _ => ?_⟩
    rw [inButterfly_four_iff]
    exact Nat.lt_succ_iff_lt_or_eq
  obtain ⟨m', hrun, hm'⟩ := engRuns_forUp _ _ _ hturn m (h.progress _ fun _ => Nat.not_lt_zero _)
  exact ⟨m', hrun, hm'.holdsSamples fun i hi => by omega⟩

/-- Settles O31: the N/4 butterflies of the last level, one after the other, turn its inputs into its outputs. -/
theorem stageThreeComputesItsLevel : Obligations.StageThreeComputesItsLevel := by
  intro s i dir hi hready
  have hbody := engRuns_stageThree hready.len dir (holdsSamples_start s)
  rcases hi with ⟨rfl, rfl⟩ | ⟨rfl, rfl⟩
  · exact exec_completes_with rfl (CommandReady.facts (i := .stg3f) hready rfl) hbody
  · exact exec_completes_with rfl (CommandReady.facts (i := .stg3i) hready rfl) hbody

/-- Settles O33: both commands leave the last level's outputs, which in each group differ by the exchange. -/
theorem inverseStageThreeExchangesTwoOutputs : Obligations.InverseStageThreeExchangesTwoOutputs := by
  intro s hready
  obtain ⟨t, hexecF, -, hsampleF⟩ := stageThreeComputesItsLevel s .stg3f .fwd (.inl ⟨rfl, rfl⟩) hready
  obtain ⟨u, hexecI, -, hsampleI⟩ := stageThreeComputesItsLevel s .stg3i .inv (.inr ⟨rfl, rfl⟩) hready
  refine ⟨t, u, hexecF, hexecI, fun g hg => ?_⟩
  have hexchanged : ∀ r < 4, sampleAt s u.mem (4 * g + r) =
      sampleAt s t.mem (4 * g + Equiv.swap 2 3 r) := fun r hr => by
    have hswap := swap_two_three_lt r hr
    rw [hsampleI _ (by omega), hsampleF _ (by omega), stageThreeOut_inv_group s _ g hr]
  exact ⟨hexchanged 0 (by decide), hexchanged 1 (by decide), hexchanged 2 (by decide), hexchanged 3 (by decide)⟩

end Sys2Proof.Machine
end

section
/-! `CFG.DIR` and `CFG.ORD` are read by `XFORM` alone (44_permute_dispatch.md R208): for every other command the regions,
the register check and the body are the same whatever the two fields hold. -/

namespace Sys2Proof.Machine

/-- `s` with other values of `CFG.DIR` and `CFG.ORD`. -/
def State.reordered (s : State) (d : Dir) (o : OutOrder) : State :=
  { s with cfg := { s.cfg with dir := d, ord := o } }

section

variable (i : Instr) (s : State) (d : Dir) (o : OutOrder)

theorem stageTwoLevels_reordered (dir : Dir) (levels : Nat) :
    ∀ n1 st, stageTwoLevels (s.reordered d o) dir levels n1 st = stageTwoLevels s dir levels n1 st := by
  induction levels with
  | zero => exact fun _ _ => rfl
  | succ k ih => exact fun n1 st => congrArg (stageTwoLevel s dir n1 st >>= fun _ => ·) (ih _ _)

variable (hi : i ≠ .xform)

include hi

/-- Only the body of `XFORM` takes its direction and its swaps from `CFG`: the direction of the others is in their word
(30_encoding.md R90). -/
theorem commandBody_reordered : commandBody i (s.reordered d o) = commandBody i s := by
  cases i with
  | xform => exact absurd rfl hi
  | stg2f => exact stageTwoLevels_reordered s d o .fwd _ _ _
  | stg2i => exact stageTwoLevels_reordered s d o .inv _ _ _
  | _ => rfl

/-- Only the regions of `XFORM` depend on the ordering (60_exceptions.md R234). -/
theorem regions_reordered : regions i (s.reordered d o) = regions i s := by
  cases i with
  | xform => exact absurd rfl hi
  | _ => rfl

theorem validate_reordered : validate i (s.reordered d o) = validate i s := by
  unfold validate
  rw [regions_reordered i s d o hi]
  rfl

theorem bufferOverlaps_reordered : bufferOverlaps i (s.reordered d o) = bufferOverlaps i s := by
  unfold bufferOverlaps
  rw [regions_reordered i s d o hi]

theorem engStart_reordered : engStart i (s.reordered d o) = engStart i s := by
  unfold engStart
  rw [bufferOverlaps_reordered i s d o hi]
  rfl

theorem freeBuffer_reordered : freeBuffer i (s.reordered d o) = (freeBuffer i s).reordered d o := by
  unfold freeBuffer
  rw [regions_reordered i s d o hi]
  split <;> rfl

theorem settleRaces_reordered : settleRaces i (s.reordered d o) = (settleRaces i s).reordered d o := by
  have hraces : (s.reordered d o).races = s.races := rfl
  unfold settleRaces
  rw [hraces, freeBuffer_reordered i s d o hi]
  split <;> rfl

theorem endWithError_reordered (x : CmdError) :
    endWithError i x (s.reordered d o) = (endWithError i x s).reordered d o := by
  have hraise : ∀ t : State, raiseError x (t.reordered d o) = (raiseError x t).reordered d o := fun _ => rfl
  cases x with
  | busErr a =>
    simp only [endWithError, freeBuffer_reordered i _ d o hi, settleRaces_reordered i _ d o hi, hraise]
  | _ => simp only [endWithError, settleRaces_reordered i s d o hi, hraise]

theorem endWithSuccess_reordered (e : Eng) :
    endWithSuccess i e (s.reordered d o) = (endWithSuccess i e s).reordered d o := by
  have hmem : { s.reordered d o with mem := e.mem, busErrs := e.bus } =
      ({ s with mem := e.mem, busErrs := e.bus } : State).reordered d o := rfl
  have hcomplete : ∀ t : State, complete (t.reordered d o) = (complete t).reordered d o := fun _ => rfl
  unfold endWithSuccess
  rw [hmem, bufferOverlaps_reordered i s d o hi]
  split
  · simp only [freeBuffer_reordered i _ d o hi, settleRaces_reordered i _ d o hi, hcomplete]
  · simp only [settleRaces_reordered i _ d o hi, hcomplete]

/-- A command that uses N ends the same way under both values of the two fields. -/
theorem runCommand_reordered (body : EngM Unit) :
    ∃ t, runCommand i body s = .next t ∧ runCommand i body (s.reordered d o) = .next (t.reordered d o) := by
  unfold runCommand
  rw [validate_reordered i s d o hi, engStart_reordered i s d o hi]
  cases validate i s with
  | some x => exact ⟨_, rfl, congrArg _ (endWithError_reordered i s d o hi x)⟩
  | none =>
    cases body (engStart i s) with
    | ok u e => exact ⟨_, rfl, congrArg _ (endWithSuccess_reordered i s d o hi e)⟩
    | error x e => exact ⟨_, rfl, congrArg _ (endWithError_reordered i { s with busErrs := e.bus } d o hi x)⟩

end

/-- Settles O34: a command that uses N runs the same body between the same check and the same end, and the primitives
read no field of `CFG`. -/
theorem onlyXformReadsDirectionAndOrdering : Obligations.OnlyXformReadsDirectionAndOrdering := by
  intro s i d o hi
  cases hu : usesLength i with
  | true =>
    obtain ⟨t, hexec, hexec'⟩ := runCommand_reordered i s d o hi (commandBody i s)
    refine ⟨t, (exec_eq_runCommand i s hu).trans hexec, ?_⟩
    rw [← commandBody_reordered i s d o hi] at hexec'
    exact (exec_eq_runCommand i (s.reordered d o) hu).trans hexec'
  | false =>
    cases i with
    | nop => exact ⟨_, rfl, rfl⟩
    | rotf => exact ⟨_, rfl, rfl⟩
    | roti => exact ⟨_, rfl, rfl⟩
    | presc => exact ⟨_, rfl, rfl⟩
    | _ => cases hu

end Sys2Proof.Machine
end

section
/-! The check of the swap table without a bus error (44_permute_dispatch.md R201): it reads the pairs in ascending order,
goes on over the legal ones and stops at the first that is not, and writes nothing, whether or not the buffer overlaps
the table. -/

namespace Sys2Proof.Machine

/-- No answer among these is an error. -/
def Quiet (bus : List Bool) : Prop := ∀ b ∈ bus, b = false

/-- Both indices of a pair that memory `m` holds are below N. -/
def PairLegal (s : State) (m : Memory) (p : Nat) : Prop := (pairAt s m p).1 < s.fftLen ∧ (pairAt s m p).2 < s.fftLen

theorem engBind_of_ok {α β : Type} {x : EngM α} {e e' : Eng} {a : α} (h : x e = .ok a e') (f : α → EngM β) :
    (x >>= f) e = f a e' := by
  rw [engBind_apply, h]

theorem engBind_of_error {α β : Type} {x : EngM α} {e e' : Eng} {r : CmdError} (h : x e = .error r e')
    (f : α → EngM β) : (x >>= f) e = .error r e' := by
  rw [engBind_apply, h]

section

variable {e : Eng} (hq : Quiet e.bus)

include hq

theorem busAnswer_quiet (a : Nat) : ∃ bus, Quiet bus ∧ busAnswer a e = .ok () { e with bus := bus } := by
  obtain ⟨m, bus, dry⟩ := e
  match bus with
  | [] => exact ⟨[], hq, rfl⟩
  | false :: rest => exact ⟨rest, fun b hb => hq b (List.mem_cons_of_mem _ hb), rfl⟩
  | true :: _ => exact absurd (hq true List.mem_cons_self) (by decide)

theorem loadPair_quiet (s : State) (p : Nat) :
    ∃ bus, Quiet bus ∧ loadPair s p e = .ok (pairAt s e.mem p) { e with bus := bus } := by
  obtain ⟨bus, hbus, hanswer⟩ := busAnswer_quiet hq (pairAddr s p)
  have hread : engRead (pairAddr s p) e = .ok (wordAt e.mem (pairAddr s p)) { e with bus := bus } :=
    engBind_of_ok hanswer _
  exact ⟨bus, hbus, engBind_of_ok hread _⟩

theorem checkPair_quiet_legal {s : State} {p : Nat} (h : PairLegal s e.mem p) :
    ∃ bus, Quiet bus ∧ checkPair s p e = .ok () { e with bus := bus } := by
  obtain ⟨bus, hbus, hload⟩ := loadPair_quiet hq s p
  obtain ⟨h1, h2⟩ := h
  refine ⟨bus, hbus, (engBind_of_ok hload _).trans ?_⟩
  rw [if_neg (by omega)]
  rfl

theorem checkPair_quiet_bad {s : State} {p : Nat} (h : ¬ PairLegal s e.mem p) :
    ∃ bus, checkPair s p e = .error (.badTable (BitVec.ofNat 32 p)) { e with bus := bus } := by
  obtain ⟨bus, -, hload⟩ := loadPair_quiet hq s p
  unfold PairLegal at h
  refine ⟨bus, (engBind_of_ok hload _).trans ?_⟩
  rw [if_pos (by omega)]
  rfl

/-- The first `n` turns go on when their pairs are legal. -/
theorem forUp_checkPair_quiet_legal {s : State} {n : Nat} (h : ∀ p < n, PairLegal s e.mem p) :
    ∃ bus, Quiet bus ∧ forUp n (checkPair s) e = .ok () { e with bus := bus } := by
  induction n with
  | zero => exact ⟨e.bus, hq, rfl⟩
  | succ k ih =>
    obtain ⟨bus, hbus, hloop⟩ := ih fun p hp => h p (by omega)
    obtain ⟨bus', hbus', hlast⟩ := checkPair_quiet_legal (e := { e with bus := bus }) hbus (h k (by omega))
    exact ⟨bus', hbus', (engBind_of_ok hloop _).trans hlast⟩

/-- The check stops at the first pair that is not legal. -/
theorem forUp_checkPair_quiet_bad {s : State} {n p : Nat} (hp : p < n) (hlegal : ∀ q < p, PairLegal s e.mem q)
    (hbad : ¬ PairLegal s e.mem p) :
    ∃ bus, forUp n (checkPair s) e = .error (.badTable (BitVec.ofNat 32 p)) { e with bus := bus } := by
  induction n with
  | zero => exact absurd hp (Nat.not_lt_zero p)
  | succ k ih =>
    rcases Nat.lt_succ_iff_lt_or_eq.1 hp with hlt | rfl
    · obtain ⟨bus, hloop⟩ := ih hlt
      exact ⟨bus, engBind_of_error hloop _⟩
    · obtain ⟨bus, hbus, hloop⟩ := forUp_checkPair_quiet_legal hq hlegal
      obtain ⟨bus', hlast⟩ := checkPair_quiet_bad (e := { e with bus := bus }) hbus hbad
      exact ⟨bus', (engBind_of_ok hloop _).trans hlast⟩

end

/-- The commands with a table check it first (44_permute_dispatch.md R202, R206). -/
theorem commandBody_checks_table {i : Instr} {s : State} (h : ReadsTable i s) :
    ∃ rest, commandBody i s = checkTable s >>= rest := by
  rcases h with rfl | ⟨rfl, ho⟩
  · exact ⟨_, rfl⟩
  · exact ⟨_, transform_natural s ho⟩

theorem ReadsTable.usesLength {i : Instr} {s : State} (h : ReadsTable i s) : usesLength i = true := by
  rcases h with rfl | ⟨rfl, -⟩ <;> rfl

/-- `BAD_TABLE` settles the races and is raised; no buffer is freed (60_exceptions.md R235, R239). -/
theorem endWithError_badTable (i : Instr) (p : Word) (s : State) (hr : s.races = []) :
    endWithError i (.badTable p) s = raiseError (.badTable p) s := by
  unfold endWithError
  dsimp only
  rw [settleRaces_none i s hr]

/-- Settles O41: the body starts with the check, which stops at the first bad pair. -/
theorem badTableStopsBeforeAnyWrite : Obligations.BadTableStopsBeforeAnyWrite := by
  intro i s p hi hc ⟨hquiet, hr⟩ hp hlegal hbad
  obtain ⟨bus, hcheck⟩ := forUp_checkPair_quiet_bad (e := engStart i s) hquiet hp hlegal fun ⟨h1, h2⟩ =>
    hbad.elim h1.not_ge h2.not_ge
  obtain ⟨rest, hbody⟩ := commandBody_checks_table hi
  have herror := engBind_of_error hcheck rest
  rw [← checkTable, ← hbody] at herror
  have hend := endWithError_badTable i (BitVec.ofNat 32 p) { s with busErrs := bus } hr
  exact ⟨_, (exec_of_error i s _ _ (ReadsTable.usesLength hi) hc herror).trans (congrArg _ hend), rfl⟩

end Sys2Proof.Machine
end

section
/-! Commands one after another with the same registers (70_reset_and_hazards.md R268): the state a completed command
leaves differs from the one before in data memory, the answers used up, `STATUS` and the latch, and a command reads
neither `STATUS` nor the latch. -/

namespace Sys2Proof.Machine

/-- `s` after a successful completion that left data memory `m` and the answers `bus`. -/
def State.completedWith (s : State) (m : Memory) (bus : List Bool) : State := complete { s with mem := m, busErrs := bus }

/-- `m` holds what `s` holds outside the buffer. -/
def KeptOutside (s : State) (m : Memory) : Prop := ∀ a, OutsideRegion (bufRegion s) a → memByte m a = memByte s.mem a

theorem keptOutside_start (s : State) : KeptOutside s s.mem := fun _ _ => rfl

/-- A swap pair is as it was at acceptance, when the buffer is apart from the table (20_memory.md R82). -/
theorem pairAt_of_outside {s : State} {m : Memory} (hm : KeptOutside s m)
    (hapart : RegionsApart (bufRegion s) (brRegion s)) {p : Nat} (hp : p < s.pairCount) :
    pairAt s m p = pairAt s s.mem p :=
  congrArg (fun w : Word => ((loHalf w).toNat, (hiHalf w).toNat))
    (wordAt_table hm (brRegion s) p hapart (Nat.mul_le_mul_left 4 hp))

theorem completedInBuffer_completedWith {s : State} {m : Memory} (hm : KeptOutside s m) (bus : List Bool) :
    CompletedInBuffer s (s.completedWith m bus) :=
  ⟨rfl, hm⟩

theorem completedWith_twice (s : State) (m m' : Memory) (bus bus' : List Bool) :
    (s.completedWith m bus).completedWith m' bus' = s.completedWith m' bus' := rfl

theorem stageTwoLevels_completedWith (s : State) (m : Memory) (bus : List Bool) (dir : Dir) (levels : Nat) :
    ∀ n1 st, stageTwoLevels (s.completedWith m bus) dir levels n1 st = stageTwoLevels s dir levels n1 st := by
  induction levels with
  | zero => exact fun _ _ => rfl
  | succ k ih => exact fun n1 st => congrArg (stageTwoLevel s dir n1 st >>= fun _ => ·) (ih _ _)

theorem stageTwo_completedWith (s : State) (m : Memory) (bus : List Bool) (dir : Dir) :
    stageTwo (s.completedWith m bus) dir = stageTwo s dir :=
  stageTwoLevels_completedWith s m bus dir _ _ _

/-- What a command does to data memory is decided by its registers. -/
theorem commandBody_completedWith (i : Instr) (s : State) (m : Memory) (bus : List Bool) :
    commandBody i (s.completedWith m bus) = commandBody i s := by
  cases i with
  | stg2f => exact stageTwo_completedWith s m bus .fwd
  | stg2i => exact stageTwo_completedWith s m bus .inv
  | xform =>
    have hcfg : (s.completedWith m bus).cfg = s.cfg := rfl
    show transform _ = transform _
    unfold transform
    rw [hcfg, stageTwo_completedWith]
    rfl
  | _ => rfl

/-- Legal operands stay legal after a command that changed its buffer only, and met no bus error. -/
theorem ReadyFacts.completedWith {i : Instr} {s : State} (h : ReadyFacts i s) {m : Memory} (hm : KeptOutside s m)
    {bus : List Bool} (hbus : Quiet bus) : ReadyFacts i (s.completedWith m bus) where
  checks := h.checks
  calm := ⟨hbus, h.calm.2⟩
  apart := h.apart
  table htable p hp := by
    have hpair : pairAt (s.completedWith m bus) (s.completedWith m bus).mem p = pairAt s s.mem p :=
      pairAt_of_outside hm (h.apart _ (brRegion_mem_tail i s htable)) hp
    rw [hpair]
    exact h.table htable p hp

/-- A command with legal operands completes with the memory that its body leaves, and no bus error is coming then. -/
theorem ReadyFacts.exec {i : Instr} {s : State} (h : ReadyFacts i s) (hu : usesLength i = true) {m : Memory}
    (hrun : EngRuns (commandBody i s) s.mem () m) :
    ∃ bus, Quiet bus ∧ exec i s = .next (s.completedWith m bus) := by
  have ho := h.bufferOverlaps_eq_false
  obtain ⟨hquiet, hraces⟩ := h.calm
  obtain ⟨e, hbody, rfl, -, hbus⟩ := hrun (engStart i s) rfl ho hquiet
  exact ⟨e.bus, hbus, (exec_of_ok i s e hu h.checks hbody).trans (congrArg _ (endWithSuccess_apart i e s hraces ho))⟩

/-- The same of a command that comes after others with the same registers. -/
theorem ReadyFacts.exec_after {i : Instr} {s : State} (h : ReadyFacts i s) (hu : usesLength i = true) {m m' : Memory}
    (hm : KeptOutside s m) {bus : List Bool} (hbus : Quiet bus) (hrun : EngRuns (commandBody i s) m () m') :
    ∃ bus', Quiet bus' ∧ Machine.exec i (s.completedWith m bus) = .next (s.completedWith m' bus') := by
  rw [← commandBody_completedWith i s m bus] at hrun
  exact (h.completedWith hm hbus).exec hu hrun

end Sys2Proof.Machine
end

section
/-! The permuter on memory (44_permute_dispatch.md R200 to R203): the swaps of a table, one after the other, move whole
words, and so they move whatever is read from the words. -/

namespace Sys2Proof.Machine

/-! Swaps of indices. -/

/-- What the index `k` is exchanged with by a pair. -/
def pairSwap (ij : Nat × Nat) : Equiv.Perm Nat := Equiv.swap ij.1 ij.2

theorem pairSwap_lt {ij : Nat × Nat} {n k : Nat} (h1 : ij.1 < n) (h2 : ij.2 < n) (hk : k < n) : pairSwap ij k < n := by
  unfold pairSwap
  rw [Equiv.swap_apply_def]
  split
  · exact h2
  · split
    · exact h1
    · exact hk

/-- The last swap of a table's first `p + 1` comes after the others. -/
theorem swapsOut_succ {α : Type} (pairs : Nat → Nat × Nat) (p : Nat) (x : Nat → α) (k : Nat) :
    swapsOut pairs (p + 1) x k = swapsOut pairs p x (pairSwap (pairs p) k) := by
  rw [pairSwap, Equiv.swap_apply_def, apply_ite (swapsOut pairs p x), apply_ite (swapsOut pairs p x)]
  rfl

/-! One swap. -/

/-- Memory after the exchange of two sample words. -/
def swapMem (s : State) (m : Memory) (i j : Nat) : Memory :=
  memWrite (memWrite m (sampleAddr s i) 4 (wordAt m (sampleAddr s j)).toNat) (sampleAddr s j) 4
    (wordAt m (sampleAddr s i)).toNat

theorem engRuns_swapWords (s : State) (i j : Nat) (m : Memory) : EngRuns (swapWords s i j) m () (swapMem s m i j) :=
  engRuns_bind _ _ _ _ _ _ _ (engRuns_engRead _ m) <|
    engRuns_bind _ _ _ _ _ _ _ (engRuns_engRead _ m) <|
      engRuns_bind _ _ _ _ _ () _ (engRuns_engWrite _ _ m) (engRuns_engWrite _ _ _)

theorem wordAt_swapMem (s : State) (m : Memory) (i j k : Nat) :
    wordAt (swapMem s m i j) (sampleAddr s k) = wordAt m (sampleAddr s (pairSwap (i, j) k)) := by
  unfold swapMem
  by_cases hj : k = j
  · subst hj
    rw [wordAt_memWrite_same, pairSwap, Equiv.swap_apply_right]
  · rw [wordAt_memWrite_otherSample s _ k j _ hj]
    by_cases hi : k = i
    · subst hi
      rw [wordAt_memWrite_same, pairSwap, Equiv.swap_apply_left]
    · rw [wordAt_memWrite_otherSample s _ k i _ hi, pairSwap, Equiv.swap_apply_of_ne_of_ne hi hj]

theorem keptOutside_swapMem {s : State} {m : Memory} (hm : KeptOutside s m) {i j : Nat} (hi : i < s.fftLen)
    (hj : j < s.fftLen) : KeptOutside s (swapMem s m i j) := fun a ha =>
  survivesSamples_byteOutside s a _ ha j hj _ _ (survivesSamples_byteOutside s a _ ha i hi m _ (hm a ha))

/-! The swaps of the table. -/

/-- `f` reads `x` from the words of the buffer in `m`, and `m` holds what `s` holds outside it. -/
structure HoldsBuffer {α : Type} (s : State) (f : Word → α) (x : Nat → α) (m : Memory) : Prop where
  outside : KeptOutside s m
  word : ∀ k < s.fftLen, f (wordAt m (sampleAddr s k)) = x k

section

variable {α : Type} {s : State} (hapart : RegionsApart (bufRegion s) (brRegion s)) (ht : TableLegal s) {f : Word → α}
  {x : Nat → α} {m : Memory}

include hapart ht

/-- One turn of `BitRev`: what is read from the words is exchanged with them. A pair (i, i) exchanges nothing. -/
theorem HoldsBuffer.runs_swapPair (h : HoldsBuffer s f x m) {p : Nat} (hp : p < s.pairCount) :
    ∃ m', EngRuns (swapPair s p) m () m' ∧ HoldsBuffer s f (fun k => x (pairSwap (pairAt s s.mem p) k)) m' := by
  obtain ⟨hi, hj⟩ := ht p hp
  have hload := engRuns_loadPair s p m
  rw [pairAt_of_outside h.outside hapart hp] at hload
  by_cases heq : (pairAt s s.mem p).1 = (pairAt s s.mem p).2
  · refine ⟨m, engRuns_bind _ _ _ _ _ _ _ hload ?_, h.outside, fun k hk => ?_⟩
    · rw [if_neg (not_not.2 heq)]
      exact engRuns_pure () m
    · rw [h.word k hk, pairSwap, heq, Equiv.swap_self, Equiv.refl_apply]
  · refine ⟨_, engRuns_bind _ _ _ _ _ _ _ hload ?_, keptOutside_swapMem h.outside hi hj, fun k hk => ?_⟩
    · rw [if_pos heq]
      exact engRuns_swapWords s _ _ m
    · rw [wordAt_swapMem]
      exact h.word _ (pairSwap_lt hi hj hk)

/-- `BitRev` applies the swaps of the table in ascending order (44_permute_dispatch.md R200). -/
theorem engRuns_bitRev (h : HoldsBuffer s f x m) :
    ∃ m', EngRuns (bitRev s) m () m' ∧ HoldsBuffer s f (swapsOut (pairAt s s.mem) s.pairCount x) m' :=
  engRuns_forUp (fun p m => HoldsBuffer s f (swapsOut (pairAt s s.mem) p x) m) _ _
    (fun p hp m hm => by
      obtain ⟨m', hrun, hm'⟩ := hm.runs_swapPair hapart ht hp
      exact ⟨m', hrun, hm'.outside, fun k hk => (hm'.word k hk).trans (swapsOut_succ _ p x k).symm⟩)
    m h

omit x in
/-- `CheckTable` accepts a legal table, also after changes of the buffer. -/
theorem engRuns_checkTable (hm : KeptOutside s m) : EngRuns (checkTable s) m () m := by
  intro e hmem hdry hbus
  obtain ⟨bus, hquiet, hcheck⟩ := forUp_checkPair_quiet_legal (s := s) (n := s.pairCount) hbus fun p hp => by
    rw [hmem, PairLegal, pairAt_of_outside hm hapart hp]
    exact ht p hp
  exact ⟨_, hcheck, hmem, hdry, hquiet⟩

end

/-- `BITREV` completes after its swaps, whatever the words of the buffer are read as; and so it does when it comes
after another command. -/
theorem PermuteReady.runs {α : Type} {s : State} (h : PermuteReady s) {f : Word → α} {x : Nat → α} {m : Memory}
    (hm : HoldsBuffer s f x m) :
    ∃ m', EngRuns (bitRev s) m () m' ∧ EngRuns (permuteBuffer s) m () m' ∧
      HoldsBuffer s f (swapsOut (pairAt s s.mem) s.pairCount x) m' := by
  obtain ⟨m', hrun, hm'⟩ := engRuns_bitRev h.apartBr h.table hm
  exact ⟨m', hrun, engRuns_bind _ _ _ _ _ () _ (engRuns_checkTable h.apartBr h.table hm.outside) hrun, hm'⟩

/-- The words of the buffer of `s`. -/
def bufferWord (s : State) (k : Nat) : Word := wordAt s.mem (sampleAddr s k)

theorem holdsBuffer_start (s : State) : HoldsBuffer s id (bufferWord s) s.mem := ⟨keptOutside_start s, fun _ _ => rfl⟩

/-- Settles O35: after the check, which writes nothing, the swaps move the words. -/
theorem bitrevAppliesItsTable : Obligations.BitrevAppliesItsTable := by
  intro s hready
  obtain ⟨m, -, hrun, hm⟩ := hready.runs (holdsBuffer_start s)
  obtain ⟨bus, -, hexec⟩ := hready.facts.exec rfl hrun
  exact ⟨_, hexec, completedInBuffer_completedWith hm.outside bus, hm.word⟩

/-! A table without a shared index (44_permute_dispatch.md R203). -/

/-- The first `p` swaps of a table as one permutation of the indices. -/
def swapsPerm (pairs : Nat → Nat × Nat) (p : Nat) : Equiv.Perm Nat :=
  match p with
  | 0 => 1
  | k + 1 => swapsPerm pairs k * pairSwap (pairs k)

theorem swapsOut_eq_swapsPerm {α : Type} (pairs : Nat → Nat × Nat) (p : Nat) (x : Nat → α) (k : Nat) :
    swapsOut pairs p x k = x (swapsPerm pairs p k) := by
  induction p generalizing k with
  | zero => rfl
  | succ p ih => exact (swapsOut_succ pairs p x k).trans (ih _)

/-- Two pairs with no index in common. -/
def PairsApart (a b : Nat × Nat) : Prop := a.1 ≠ b.1 ∧ a.1 ≠ b.2 ∧ a.2 ≠ b.1 ∧ a.2 ≠ b.2

/-- An index of none of the first `p` pairs stays. -/
theorem swapsPerm_apply_of_not_mem {pairs : Nat → Nat × Nat} {p k : Nat}
    (h : ∀ q < p, k ≠ (pairs q).1 ∧ k ≠ (pairs q).2) : swapsPerm pairs p k = k := by
  induction p with
  | zero => rfl
  | succ p ih =>
    obtain ⟨h1, h2⟩ := h p (by omega)
    rw [swapsPerm, Equiv.Perm.mul_apply, pairSwap, Equiv.swap_apply_of_ne_of_ne h1 h2]
    exact ih fun q hq => h q (by omega)

/-- Without a shared index each swap commutes with those before it, so that together they undo themselves. -/
theorem swapsPerm_mul_self {pairs : Nat → Nat × Nat} {p : Nat}
    (h : ∀ q < p, ∀ r < p, q ≠ r → PairsApart (pairs q) (pairs r)) : swapsPerm pairs p * swapsPerm pairs p = 1 := by
  induction p with
  | zero => rfl
  | succ p ih =>
    have hapart : ∀ q < p, PairsApart (pairs p) (pairs q) := fun q hq => h p (by omega) q (by omega) (by omega)
    have hfst : swapsPerm pairs p (pairs p).1 = (pairs p).1 :=
      swapsPerm_apply_of_not_mem fun q hq => by
        obtain ⟨h1, h2, -, -⟩ := hapart q hq
        exact ⟨h1, h2⟩
    have hsnd : swapsPerm pairs p (pairs p).2 = (pairs p).2 :=
      swapsPerm_apply_of_not_mem fun q hq => by
        obtain ⟨-, -, h⟩ := hapart q hq
        exact h
    have hcomm : swapsPerm pairs p * pairSwap (pairs p) = pairSwap (pairs p) * swapsPerm pairs p := by
      rw [pairSwap, Equiv.mul_swap_eq_swap_mul, hfst, hsnd]
    calc swapsPerm pairs (p + 1) * swapsPerm pairs (p + 1)
        = pairSwap (pairs p) * (swapsPerm pairs p * swapsPerm pairs p) * pairSwap (pairs p) := by
          rw [swapsPerm]
          nth_rewrite 1 [hcomm]
          simp only [mul_assoc]
      _ = 1 := by
          rw [ih fun q hq r hr => h q (by omega) r (by omega), mul_one]
          exact Equiv.swap_mul_self _ _

/-- Memory with the words of the buffer of `s`, and the bytes of `s` outside it, has every byte of `s`. -/
theorem HoldsBuffer.memByte_eq {s : State} {m : Memory} (h : HoldsBuffer s id (bufferWord s) m) (a : Nat) :
    memByte m a = memByte s.mem a := by
  by_cases ha : OutsideRegion (bufRegion s) a
  · exact h.outside a ha
  · simp only [OutsideRegion, bufRegion] at ha
    refine memByte_of_wordAt m s.mem _ (h.word ((a - s.bufAddr.toNat) / 4) (by omega)) a ?_ ?_
    · unfold sampleAddr
      omega
    · unfold sampleAddr
      omega

/-- Settles O36: the second run applies the same swaps again, which without a shared index restores each word. -/
theorem bitrevTwiceRestoresTheBuffer : Obligations.BitrevTwiceRestoresTheBuffer := by
  intro s hready hpairs
  obtain ⟨m, -, hrun, hm⟩ := hready.runs (holdsBuffer_start s)
  obtain ⟨m', -, hrun', hm'⟩ := hready.runs hm
  obtain ⟨bus, hbus, hexec⟩ := hready.facts.exec rfl hrun
  obtain ⟨bus', -, hexec'⟩ := hready.facts.exec_after rfl hm.outside hbus hrun'
  have hrestored : HoldsBuffer s id (bufferWord s) m' := ⟨hm'.outside, fun k hk => by
    rw [hm'.word k hk, swapsOut_eq_swapsPerm, swapsOut_eq_swapsPerm, ← Equiv.Perm.mul_apply,
      swapsPerm_mul_self hpairs, Equiv.Perm.one_apply]⟩
  exact ⟨_, _, hexec, hexec', hrestored.memByte_eq⟩

end Sys2Proof.Machine
end

section
/-! `XFORM` on memory (44_permute_dispatch.md R205 to R208): the passes one after the other, in one command or in separate
ones. -/

namespace Sys2Proof.Machine

/-- What the three stages make of the samples `x` in the direction of `CFG.DIR` (44_permute_dispatch.md R205). -/
def stagesOut (s : State) (x : Nat → Sample) : Nat → Sample :=
  stageThreeOut s s.cfg.dir
    (if 2 < s.log4n then stageTwoOut s s.cfg.dir (stageOneOut s s.cfg.dir x) else stageOneOut s s.cfg.dir x)

theorem transformOut_bitReversed {s : State} (h : s.cfg.ord = .bitReversed) (x : Nat → Sample) :
    transformOut s x = stagesOut s x := by
  unfold transformOut
  rw [h]
  rfl

theorem transformOut_natural {s : State} (h : s.cfg.ord = .natural) (x : Nat → Sample) :
    transformOut s x = swapsOut (pairAt s s.mem) s.pairCount (stagesOut s x) := by
  unfold transformOut
  rw [h]
  rfl

/-! A pass that is left out under a condition. -/

/-- `x` takes memory `m` to `m'` if `c` holds, and else nothing is run. -/
def RunsIf (c : Prop) [Decidable c] (x : EngM Unit) (m m' : Memory) : Prop := if c then EngRuns x m () m' else m' = m

section

variable {c : Prop} [Decidable c] {x : EngM Unit} {m m' : Memory}

theorem RunsIf.of_true (h : RunsIf c x m m') (hc : c) : EngRuns x m () m' := by
  rwa [RunsIf, if_pos hc] at h

theorem RunsIf.of_false (h : RunsIf c x m m') (hc : ¬ c) : m' = m := by
  rwa [RunsIf, if_neg hc] at h

theorem RunsIf.runs (h : RunsIf c x m m') : EngRuns (if c then x else pure ()) m () m' := by
  split
  · exact h.of_true ‹_›
  · rw [h.of_false ‹_›]
    exact engRuns_pure () m

/-- A command that comes after others with the same registers, if `c` holds. -/
theorem RunsIf.exec {i : Instr} {s : State} (h : RunsIf c (commandBody i s) m m') (hready : c → ReadyFacts i s)
    (hu : usesLength i = true) (hm : KeptOutside s m) {bus : List Bool} (hbus : Quiet bus) :
    ∃ bus', Quiet bus' ∧ if c then Machine.exec i (s.completedWith m bus) = .next (s.completedWith m' bus')
      else s.completedWith m' bus' = s.completedWith m bus := by
  split
  · exact (hready ‹_›).exec_after hu hm hbus (h.of_true ‹_›)
  · exact ⟨bus, hbus, by rw [h.of_false ‹_›]⟩

end

/-! The passes of the transform. -/

/-- The memories `m1` to `m4` after StageOne, StageTwo for L > 2, StageThree and, in natural order, the swaps, each
from the one before (44_permute_dispatch.md R205). The check of the table before the swaps, which `BITREV` makes again,
writes nothing. -/
structure TransformRun (s : State) (m1 m2 m3 m4 : Memory) : Prop where
  stageOne : EngRuns (stageOne s s.cfg.dir) s.mem () m1
  stageTwo : RunsIf (2 < s.log4n) (stageTwo s s.cfg.dir) m1 m2
  stageThree : EngRuns (stageThree s s.cfg.dir) m2 () m3
  swaps : RunsIf (s.cfg.ord = .natural) (bitRev s) m3 m4
  permute : RunsIf (s.cfg.ord = .natural) (permuteBuffer s) m3 m4
  outside1 : KeptOutside s m1
  outside2 : KeptOutside s m2
  outside3 : KeptOutside s m3
  samples : HoldsSamples s (transformOut s (sampleAt s s.mem)) m4

theorem TransformReady.runs_stageTwo {s : State} (h : TransformReady s) {x : Nat → Sample} {m : Memory}
    (hm : HoldsSamples s x m) :
    ∃ m', RunsIf (2 < s.log4n) (stageTwo s s.cfg.dir) m m' ∧
      HoldsSamples s (if 2 < s.log4n then stageTwoOut s s.cfg.dir x else x) m' := by
  unfold RunsIf
  split
  · exact engRuns_stageTwo h.len h.stride h.apart s.cfg.dir hm
  · exact ⟨m, rfl, hm⟩

/-- The swaps move the samples with their words. -/
theorem TransformReady.runs_swaps {s : State} (h : TransformReady s) {x : Nat → Sample} {m : Memory}
    (hm : HoldsSamples s (stagesOut s x) m) :
    ∃ m', RunsIf (s.cfg.ord = .natural) (bitRev s) m m' ∧ RunsIf (s.cfg.ord = .natural) (permuteBuffer s) m m' ∧
      HoldsSamples s (transformOut s x) m' := by
  unfold RunsIf
  cases ho : s.cfg.ord with
  | bitReversed =>
    rw [transformOut_bitReversed ho]
    exact ⟨m, rfl, rfl, hm⟩
  | natural =>
    obtain ⟨m', hswaps, hpermute, hm'⟩ :=
      (h.permute ho).runs (f := sampleOfWord s.params.packOrder) ⟨hm.outside, hm.sample⟩
    rw [transformOut_natural ho]
    exact ⟨m', hswaps, hpermute, hm'.outside, hm'.word⟩

theorem TransformReady.passes {s : State} (h : TransformReady s) : ∃ m1 m2 m3 m4, TransformRun s m1 m2 m3 m4 := by
  obtain ⟨m1, hrun1, hm1⟩ := engRuns_stageOne h.len h.stride h.apart s.cfg.dir (holdsSamples_start s)
  obtain ⟨m2, hrun2, hm2⟩ := h.runs_stageTwo hm1
  obtain ⟨m3, hrun3, hm3⟩ := engRuns_stageThree h.len s.cfg.dir hm2
  obtain ⟨m4, hswaps, hpermute, hm4⟩ := h.runs_swaps hm3
  exact ⟨m1, m2, m3, m4, hrun1, hrun2, hrun3, hswaps, hpermute, hm1.outside, hm2.outside, hm3.outside, hm4⟩

/-- The body of `XFORM` runs the passes in this order, after the check of its table. -/
theorem TransformRun.runs {s : State} {m1 m2 m3 m4 : Memory} (r : TransformRun s m1 m2 m3 m4) (h : TransformReady s) :
    EngRuns (transform s) s.mem () m4 := by
  have hstages : EngRuns (stages s) s.mem () m3 :=
    engRuns_bind _ _ _ _ _ () _ r.stageOne (engRuns_bind _ _ _ _ _ () _ r.stageTwo.runs r.stageThree)
  cases ho : s.cfg.ord with
  | bitReversed =>
    rw [transform_bitReversed s ho, r.swaps.of_false (by simp [ho])]
    exact hstages
  | natural =>
    have hp := h.permute ho
    rw [transform_natural s ho]
    exact engRuns_bind _ _ _ _ _ () _ (engRuns_checkTable hp.apartBr hp.table (keptOutside_start s))
      (engRuns_bind _ _ _ _ _ () _ hstages (r.swaps.of_true ho))

/-- Settles O37: the passes, one after the other, turn the samples before into the transform's. -/
theorem xformComputesTheTransform : Obligations.XformComputesTheTransform := by
  intro s hready
  obtain ⟨m1, m2, m3, m4, hpasses⟩ := hready.passes
  exact exec_completes_with rfl hready.facts ⟨m4, hpasses.runs hready, hpasses.samples⟩

/-! The separate commands. -/

/-- The command of a stage and a direction (30_encoding.md R91). -/
def stageInstr (k : Kind) (dir : Dir) : Instr :=
  match k with
  | .s1 => match dir with
    | .fwd => .stg1f
    | .inv => .stg1i
  | .s2 => match dir with
    | .fwd => .stg2f
    | .inv => .stg2i
  | .s3 => match dir with
    | .fwd => .stg3f
    | .inv => .stg3i

theorem usesLength_stageInstr (k : Kind) (dir : Dir) : usesLength (stageInstr k dir) = true := by
  cases k <;> cases dir <;> rfl

theorem commandBody_stageInstr_one (s : State) (dir : Dir) : commandBody (stageInstr .s1 dir) s = stageOne s dir := by
  cases dir <;> rfl

theorem commandBody_stageInstr_two (s : State) (dir : Dir) : commandBody (stageInstr .s2 dir) s = stageTwo s dir := by
  cases dir <;> rfl

theorem commandBody_stageInstr_three (s : State) (dir : Dir) :
    commandBody (stageInstr .s3 dir) s = stageThree s dir := by
  cases dir <;> rfl

/-- What is legal for the stages that rotate is legal for stage three. -/
theorem TwiddleReady.stageInstr_facts {s : State} (h : TwiddleReady s) (k : Kind) (dir : Dir) :
    ReadyFacts (stageInstr k dir) s :=
  CommandReady.facts
    (match k, dir with
      | .s1, .fwd => h
      | .s1, .inv => h
      | .s2, .fwd => h
      | .s2, .inv => h
      | .s3, .fwd => h.toBufferReady
      | .s3, .inv => h.toBufferReady)
    (usesLength_stageInstr k dir)

/-- Settles O38: each separate command runs its pass of `XFORM` from where the one before it ended. -/
theorem xformEqualsTheSeparateCommands : Obligations.XformEqualsTheSeparateCommands := by
  intro s hready
  have hstage := hready.stageInstr_facts
  have hu := usesLength_stageInstr
  obtain ⟨m1, m2, m3, m4, hpasses⟩ := hready.passes
  obtain ⟨bus, -, hxform⟩ := hready.facts.exec rfl (hpasses.runs hready)
  have hrun1 := hpasses.stageOne
  have hrun2 := hpasses.stageTwo
  have hrun3 := hpasses.stageThree
  rw [← commandBody_stageInstr_one] at hrun1
  rw [← commandBody_stageInstr_two] at hrun2
  rw [← commandBody_stageInstr_three] at hrun3
  obtain ⟨bus1, hbus1, hexec1⟩ := (hstage .s1 s.cfg.dir).exec (hu _ _) hrun1
  obtain ⟨bus2, hbus2, hexec2⟩ := hrun2.exec (fun _ => hstage .s2 s.cfg.dir) (hu _ _) hpasses.outside1 hbus1
  obtain ⟨bus3, hbus3, hexec3⟩ := (hstage .s3 s.cfg.dir).exec_after (hu _ _) hpasses.outside2 hbus2 hrun3
  obtain ⟨bus4, -, hexec4⟩ := RunsIf.exec (i := .bitrev) hpasses.permute (fun ho => (hready.permute ho).facts) rfl
    hpasses.outside3 hbus3
  exact ⟨s.completedWith m4 bus, s.completedWith m1 bus1, s.completedWith m2 bus2, s.completedWith m3 bus3,
    s.completedWith m4 bus4, hxform, hexec1, hexec2, hexec3, hexec4, rfl, fun _ => rfl⟩

end Sys2Proof.Machine
end

section
/-! The ends of a command (60_exceptions.md R230, R237 to R239): what success and error leave in `STATUS` and `ERRINFO`,
and that without a race every error but `BUS_ERR` is precise. -/

namespace Sys2Proof.Machine

/-! `STATUS` and `ERRINFO` at the end. -/

theorem endWithSuccess_status (i : Instr) (e : Eng) (s : State) :
    (endWithSuccess i e s).status = s.status.completed := by
  unfold endWithSuccess
  split
  · simp
  · simp

theorem endWithSuccess_errInfo (i : Instr) (e : Eng) (s : State) : (endWithSuccess i e s).errInfo = s.errInfo := by
  unfold endWithSuccess
  split
  · simp
  · simp

theorem endWithError_status (i : Instr) (x : CmdError) (s : State) :
    (endWithError i x s).status = s.status.failed (errorCode x) := by
  rcases endWithError_cases i x s with h | ⟨-, h⟩
  · simp [h]
  · simp [h]

theorem endWithError_errInfo (i : Instr) (x : CmdError) (s : State) : (endWithError i x s).errInfo = errorInfo x := by
  rcases endWithError_cases i x s with h | ⟨-, h⟩
  · simp [h]
  · simp [h]

/-- Settles O39: a primitive command and a body that goes through succeed, and everything else is an error. -/
theorem everyCommandEndsInSuccessOrError : Obligations.EveryCommandEndsInSuccessOrError := by
  intro i s
  obtain ⟨t, ht⟩ := exec_next i s
  obtain ⟨hlatch, -, -⟩ := exec_end i s t ht
  refine ⟨t, ht, hlatch, ?_⟩
  rcases exec_cases i s t ht with ⟨-, r, rfl⟩ | ⟨-, x, bus, rfl⟩ | ⟨-, -, e, -, rfl⟩
  · exact .inl ⟨rfl, rfl⟩
  · obtain ⟨hmin, hmax⟩ := errorCode_range x
    exact .inr ⟨x, endWithError_status i x _, endWithError_errInfo i x _, hmin, hmax, endWithError_res i x _⟩
  · exact .inl ⟨endWithSuccess_status i e s, endWithSuccess_errInfo i e s⟩

/-! Precise errors (60_exceptions.md R239). -/

theorem endedWith_raiseError (x : CmdError) (s : State) (bus : List Bool) :
    EndedWith x s (raiseError x { s with busErrs := bus }) := rfl

/-- Without a race an error that is not `BUS_ERR` is raised and does nothing else. -/
theorem endWithError_precise (i : Instr) (x : CmdError) (s : State) (hx : ∀ a, x ≠ .busErr a) (hr : s.races = []) :
    endWithError i x s = raiseError x s := by
  rcases endWithError_cases i x s with h | ⟨⟨a, h⟩, -⟩
  · rw [h, settleRaces_none i s hr]
  · exact absurd h (hx a)

/-- Settles O44: a command that ends with `ERR` set and a code other than 7 has raised an error that is not `BUS_ERR`. -/
theorem errorsOtherThanBusErrorArePrecise : Obligations.ErrorsOtherThanBusErrorArePrecise := by
  intro i s t hr hs ht he hcode
  rcases exec_cases i s t ht with ⟨-, r, rfl⟩ | ⟨-, x, bus, rfl⟩ | ⟨-, -, e, -, rfl⟩
  · cases hs.symm.trans he
  · rw [endWithError_errcode] at hcode
    have hx : ∀ a, x ≠ .busErr a := fun a h => hcode (congrArg errorCode h)
    rw [endWithError_precise i x { s with busErrs := bus } hx hr]
    exact ⟨x, endedWith_raiseError x s bus⟩
  · rw [endWithSuccess_err] at he
    cases hs.symm.trans he

end Sys2Proof.Machine
end

section
/-! The register checks in their order (60_exceptions.md R233, R234): which error `Validate` reports. -/

namespace Sys2Proof.Machine

/-! The checks over regions report the first region that fails. -/

theorem checkRegions_badAlign {before after : List Region} {r : Region} (w : Nat)
    (hbefore : ∀ q ∈ before, RegionAligned q) (hr : ¬ RegionAligned r) :
    checkRegions (before ++ r :: after) w = some (.badAlign r.base) := by
  have hfirst : (before ++ r :: after).find? (fun q => q.misaligned) = some r := by
    rw [List.find?_eq_some_iff_append]
    refine ⟨(misaligned_iff r).2 hr, before, after, rfl, fun q hq => ?_⟩
    rw [Bool.not_eq_true', Bool.eq_false_iff, ne_eq, misaligned_iff, not_not]
    exact hbefore q hq
  unfold checkRegions
  rw [hfirst]

theorem checkRegions_badRange {s : State} {before after : List Region} {r : Region}
    (haligned : ∀ q ∈ before ++ r :: after, RegionAligned q) (hbefore : ∀ q ∈ before, RegionInRange s q)
    (hr : ¬ RegionInRange s r) :
    checkRegions (before ++ r :: after) s.params.addrW = some (.badRange r.base) := by
  have hnone : (before ++ r :: after).find? (fun q => q.misaligned) = none := by
    rw [List.find?_eq_none]
    intro q hq
    rw [misaligned_iff, not_not]
    exact haligned q hq
  have hfirst : (before ++ r :: after).find? (fun q => q.outOfRange s.params.addrW) = some r := by
    rw [List.find?_eq_some_iff_append]
    refine ⟨(outOfRange_iff r _).2 (Nat.lt_of_not_le hr), before, after, rfl, fun q hq => ?_⟩
    rw [Bool.not_eq_true', Bool.eq_false_iff, ne_eq, outOfRange_iff]
    exact (hbefore q hq).not_gt
  unfold checkRegions
  rw [hnone, hfirst]

/-! `Validate` by the first check that fails; `validate_badStride` is the second of its checks. -/

section

variable {i : Instr} {s : State} (hu : usesLength i = true)

include hu

theorem validate_badN (hl : ¬ LengthLegal s) : validate i s = some (.badN (s.cfg.log4n.setWidth 32)) := by
  unfold LengthLegal at hl
  unfold validate
  rw [if_neg (by simp [hu]), if_pos (by omega)]

/-- With the length and the stride legal the regions decide. -/
theorem validate_regions (hl : LengthLegal s) (hs : readsTwiddles i = true → StrideLegal s) :
    validate i s = checkRegions (regions i s) s.params.addrW := by
  obtain ⟨hmin, hmax⟩ := hl
  have hstride : ¬ (readsTwiddles i = true ∧ (s.stride = 0 ∨ s.stride * s.fftLen ≠ s.twLen.toNat)) := by
    rintro ⟨ht, hbad⟩
    obtain ⟨hzero, hsize⟩ := hs ht
    exact hbad.elim hzero (absurd hsize)
  unfold validate
  rw [if_neg (by simp [hu]), if_neg (by omega), if_neg hstride]

/-- A check that fails ends the command before any access (60_exceptions.md R239). -/
theorem exec_of_invalid {x : CmdError} (hr : s.races = []) (hv : validate i s = some x) :
    ∃ t, exec i s = .next t ∧ t.busErrs = s.busErrs ∧ EndedWith x s t := by
  have hx : ∀ a, x ≠ .busErr a := fun a h => validate_not_busErr i s a (h ▸ hv)
  have hexec := (exec_eq_runCommand i s hu).trans (runCommand_of_invalid i _ s x hv hx hr)
  exact ⟨_, hexec, rfl, endedWith_raiseError x s s.busErrs⟩

end

/-- Settles O40: each failing check is the first that `Validate` meets. -/
theorem registerChecksReportTheFirstFailure : Obligations.RegisterChecksReportTheFirstFailure := by
  intro i s hu hr
  refine ⟨fun hl => exec_of_invalid hu hr (validate_badN hu hl),
    fun hl ht hs => exec_of_invalid hu hr (validate_badStride i s hu ht hl hs),
    fun hl hs before r after hregions => ?_⟩
  have hv := validate_regions hu hl hs
  rw [hregions] at hv ⊢
  exact ⟨fun hbefore hbad => exec_of_invalid hu hr (hv.trans (checkRegions_badAlign _ hbefore hbad)),
    fun haligned hbefore hbad => exec_of_invalid hu hr (hv.trans (checkRegions_badRange haligned hbefore hbad))⟩

end Sys2Proof.Machine
end

section
/-! The acceptance of a command word, the step that runs it (60_exceptions.md R232, R233), and the interrupt level
(60_exceptions.md R240). -/

namespace Sys2Proof.Machine

/-- A `CMD` write is dropped while `BUSY` or `ERR` is set (60_exceptions.md R232). -/
theorem writeCmd_blocked (w : Word) (s : State) (h : s.status.busy = true ∨ s.status.err = true) :
    writeCmd w s = dropWrite s := by
  unfold writeCmd
  rw [if_pos (by simpa using h)]

/-- Settles O9: the write reaches `CMD`, where `BUSY` and `ERR` decide. -/
theorem cmdWriteIsAcceptedOrDropped : Obligations.CmdWriteIsAcceptedOrDropped := by
  intro s w rest hin hreset
  rw [step_regWrite s .cmd w rest hin hreset]
  exact ⟨fun hset => congrArg _ (writeCmd_blocked w { s with inbox := rest } hset),
    fun hb he => congrArg _ (writeCmd_free w { s with inbox := rest } hb he)⟩

/-- Settles O5: under both schedules the step is the engine's turn. -/
theorem stepRunsTheLatchedCommand : Obligations.StepRunsTheLatchedCommand := by
  intro s w i _ hl hd
  refine ⟨fun hin => ?_, fun rest hin => ?_⟩
  · rw [step_nil s hin]
    exact engineTurn_command s w i hl hd
  · rw [step_engine s rest (.inr hin)]
    exact engineTurn_command { s with inbox := rest } w i hl hd

theorem withFetchWord_encode (s : State) (i : Instr) :
    s.withFetchWord 32 (encode i).toNat = placeWord (encode i) s := by
  unfold State.withFetchWord
  rw [Nat.mod_eq_of_lt (encode i).isLt, BitVec.ofNat_toNat, BitVec.setWidth_eq]

/-- Settles O6: the placed word is the latched one, and it decodes to the command it encodes. -/
theorem placedWordRunsNext : Obligations.PlacedWordRunsNext := by
  intro s i
  rw [withFetchWord_encode, step_engine (placeWord (encode i) s) s.inbox (.inr rfl)]
  exact engineTurn_command (accept (encode i) s) (encode i) i rfl (decode_encode i)

theorem writeCtrl_enables (v : Word) (s : State) (h : v.getLsbD 31 = false) :
    writeCtrl v s = { s with ctrl := ctrlOfWord v } := by
  unfold writeCtrl
  rw [if_neg (Bool.eq_false_iff.1 h)]

/-- Settles O16: the words the host reads hold the flags and the enables of which the level is a function. -/
theorem interruptFollowsStatusAndEnables : Obligations.InterruptFollowsStatusAndEnables := by
  intro s v
  obtain ⟨hieDone, hieErr, -⟩ := ctrlWord_fields s.ctrl
  obtain ⟨-, hdone, herr, -, -⟩ := statusWord_fields s.status
  refine ⟨?_, fun hv => congrArg State.irq (writeCtrl_enables v s hv), rfl⟩
  dsimp only [readReg]
  rw [hieDone, hieErr, hdone, herr]
  rfl

end Sys2Proof.Machine
end

section
/-! Register writes while the reset input is asserted (70_reset_and_hazards.md R260). -/

namespace Sys2Proof.Machine

/-- A register in reset keeps its value (log entry 12). -/
theorem hostRegWrite_inReset (r : Reg) (v : Word) (s : State) (h : s.resetIn = true) :
    hostRegWrite (regAddr s.params r) .b32 v s = .next s := by
  unfold hostRegWrite
  rw [decodeAccess_regAddr]
  exact congrArg _ (if_pos h)

/-- Settles O15: the write reaches its register, which is held in reset. -/
theorem writesDuringResetChangeNothing : Obligations.WritesDuringResetChangeNothing := by
  intro s r v rest hr hin
  rw [step_cons s _ rest hin]
  exact hostRegWrite_inReset r v { s with inbox := rest } hr

end Sys2Proof.Machine
end

section
/-! What a running command holds for its end: `RES`, `ERRINFO` and `ERRCODE` (70_reset_and_hazards.md R267). -/

namespace Sys2Proof.Machine

/-- The registers that tell how the last command ended (10_state.md R27, R36, R39). -/
def commandResults (s : State) : Word × Word × Byte := (s.res, s.errInfo, s.status.errcode)

/-- Of the register writes that leave `BUSY` = 1, only the acknowledge can change a result. -/
theorem regWrite_staysBusy {r : Reg} {v : Word} {s t : State} (h : RegWrite r v s t) (hb : s.status.busy = true)
    (hb' : t.status.busy = true) : t = acknowledge v s ∨ commandResults t = commandResults s := by
  cases h with
  | accepted _ hidle _ => rw [hb] at hidle; cases hidle
  | stored _ hidle => rw [hb] at hidle; cases hidle
  | acknowledged _ => exact .inl rfl
  | softReset _ _ => simp at hb'
  | _ => exact .inr rfl

/-- Of the moves that leave `BUSY` = 1, only the acknowledge can change a result. -/
theorem move_staysBusy {s t : State} (h : Move s t) (hb : s.status.busy = true) (hb' : t.status.busy = true) :
    (∃ v q, t = acknowledge v { s with inbox := q }) ∨ commandResults t = commandResults s := by
  cases h with
  | engine q d _ ht =>
    rcases engineTurn_end _ t ht with rfl | ⟨-, hidle, -⟩
    · exact .inr rfl
    · rw [hb'] at hidle; cases hidle
  | quiet q n d => exact .inr rfl
  | write r v q _ _ =>
    rcases regWrite_staysBusy (regWrite_writeReg r v { s with inbox := q }) hb hb' with hack | hkept
    · exact .inl ⟨v, q, hack⟩
    · exact .inr hkept
  | store a size v q _ ht =>
    obtain ⟨m, n, ws, rfl⟩ := hostStore_next _ _ _ _ _ ht
    exact .inr rfl
  | reset b q _ =>
    rcases setResetLine_cases b { s with inbox := q } with ⟨-, he⟩ | he
    · simp [he] at hb'
    · exact .inr (congrArg commandResults he :)

/-- Where `ERRCODE` and `ERRINFO` are 0 already, an acknowledge changes no result (10_state.md R27, R36). -/
theorem commandResults_acknowledge (v : Word) (s : State) (hcode : s.status.errcode = 0#8) (hinfo : s.errInfo = 0#32) :
    commandResults (acknowledge v s) = commandResults s := by
  simp [commandResults, acknowledge, Status.writeOneToClear, hcode, hinfo]

/-- Settles O49: while a command runs the invariant has `ERRCODE` and `ERRINFO` at 0, where a write that clears `ERR`
leaves them. -/
theorem resultsHoldWhileBusy : Obligations.ResultsHoldWhileBusy := by
  intro s t hinv hstep hb hb'
  have hkept : commandResults t = commandResults s := by
    rcases move_staysBusy (move_of_step s t hstep) hb hb' with ⟨v, q, rfl⟩ | hkept
    · obtain ⟨-, herr⟩ := hinv.busyFlags hb
      obtain ⟨hcode, hinfo⟩ := hinv.noError herr
      exact commandResults_acknowledge v { s with inbox := q } hcode hinfo
    · exact hkept
  simpa [commandResults] using hkept

end Sys2Proof.Machine
end

section
/-! The end of an accepted command (70_reset_and_hazards.md R270): every step takes the head of the inbox or empties the
latch (log entries 4, 5 and 17). -/

namespace Sys2Proof.Machine

/-! What keeps the inbox. -/

@[simp] theorem applyReset_inbox (s : State) : (applyReset s).inbox = s.inbox := by
  rw [applyReset_eq]

@[simp] theorem storeInput_inbox (r : Reg) (v : Word) (s : State) : (storeInput r v s).inbox = s.inbox := by
  cases r <;> rfl

theorem regWrite_inbox {r : Reg} {v : Word} {s t : State} (h : RegWrite r v s t) : t.inbox = s.inbox := by
  cases h with
  | stored _ _ => exact storeInput_inbox r v s
  | softReset _ _ => exact applyReset_inbox s
  | _ => rfl

@[simp] theorem setResetLine_inbox (b : Bool) (s : State) : (setResetLine b s).inbox = s.inbox := by
  rcases setResetLine_cases b s with ⟨-, he⟩ | he
  · rw [he]
    exact applyReset_inbox s
  · rw [he]

/-! Progress. -/

/-- The engine's turn leaves no word in the latch (60_exceptions.md R237, R238). -/
theorem engineTurn_latch {s t : State} (h : engineTurn s = .next t) : t.latch = none := by
  rcases engineTurn_cases s with ⟨hl, he⟩ | ⟨w, i, -, -, he⟩ | ⟨w, r, -, -, he⟩
  · rw [he] at h
    cases h
    exact hl
  · rw [he] at h
    obtain ⟨hlatch, -, -⟩ := exec_end i s t h
    exact hlatch
  · rw [he] at h
    cases h
    rfl

/-- An input that is taken puts nothing back, unless it gave the engine its turn. -/
theorem inputTurn_progress {e : Event} {again s t : State} (h : inputTurn e again s = .next t) :
    t.latch = none ∨ t.inbox = s.inbox := by
  cases e with
  | regWrite addr size v =>
    obtain ⟨r, -, -, rfl⟩ := hostRegWrite_next _ _ _ _ _ h
    refine .inr ?_
    split
    · rfl
    · exact regWrite_inbox (regWrite_writeReg r v s)
  | regRead addr size =>
    obtain ⟨d, rfl⟩ := hostRegRead_next _ _ _ _ h
    exact .inr rfl
  | regPoll addr mask value =>
    obtain ⟨d, rfl | he⟩ := pollTurn_next _ _ _ _ _ _ h
    · exact .inr rfl
    · exact .inl (engineTurn_latch he)
  | regExpect addr mask value =>
    obtain ⟨d, rfl⟩ := hostRegExpect_next _ _ _ _ _ h
    exact .inr rfl
  | memWrite a size v =>
    obtain ⟨m, n, ws, rfl⟩ := hostStore_next _ _ _ _ _ h
    exact .inr rfl
  | memRead a size =>
    obtain ⟨n, d, rfl⟩ := hostLoad_next _ _ _ _ h
    exact .inr rfl
  | memExpect a value =>
    obtain ⟨n, d, rfl⟩ := hostMemExpect_next _ _ _ _ h
    exact .inr rfl
  | resetLine b =>
    cases h
    exact .inr (setResetLine_inbox b s)
  | engine => exact .inl (engineTurn_latch h)

/-- Every step empties the latch or shortens the inbox by its head. -/
theorem step_progress {s t : State} (h : step s = .next t) : t.latch = none ∨ ∃ e, s.inbox = e :: t.inbox := by
  cases hq : s.inbox with
  | nil =>
    rw [step_nil s hq] at h
    exact .inl (engineTurn_latch h)
  | cons e rest =>
    rw [step_cons s e rest hq] at h
    rcases inputTurn_progress h with hlatch | hinbox
    · exact .inl hlatch
    · exact .inr ⟨e, by rw [hinbox]⟩

/-! Runs. -/

/-- After `k` steps the latch is empty, or the machine has stopped. -/
def EndsAfter (k : Nat) (s : State) : Prop :=
  (∃ t, Host.Core.run core k s = .next t ∧ t.latch = none) ∨ ∀ t, Host.Core.run core k s ≠ .next t

theorem endsAfter_zero {s : State} (h : s.latch = none) : EndsAfter 0 s := .inl ⟨s, rfl, h⟩

theorem run_succ_of_step {s t : State} (k : Nat) (h : step s = .next t) :
    Host.Core.run core (k + 1) s = Host.Core.run core k t := by
  have hcore : core.step s = .next t := h
  simp only [Host.Core.run, hcore]

theorem EndsAfter.of_step {s t : State} {k : Nat} (ht : EndsAfter k t) (h : step s = .next t) :
    EndsAfter (k + 1) s := by
  unfold EndsAfter
  rw [run_succ_of_step k h]
  exact ht

theorem endsAfter_one_of_stop {s : State} (h : ∀ t, step s ≠ .next t) : EndsAfter 1 s := by
  refine .inr fun t ht => ?_
  cases hs : core.step s with
  | next u => exact h u hs
  | fault r => simp [Host.Core.run, hs] at ht
  | refused r => simp [Host.Core.run, hs] at ht

/-- By induction on the inputs to come: a step that does not end the word takes one of them. -/
theorem exists_endsAfter_le (s : State) : ∃ k ≤ s.inbox.length + 1, EndsAfter k s := by
  by_cases hstop : ∀ t, step s ≠ .next t
  · exact ⟨1, by omega, endsAfter_one_of_stop hstop⟩
  obtain ⟨t, ht⟩ : ∃ t, step s = .next t := by simpa using hstop
  rcases step_progress ht with hlatch | ⟨e, hinbox⟩
  · exact ⟨1, by omega, (endsAfter_zero hlatch).of_step ht⟩
  have hlen : s.inbox.length = t.inbox.length + 1 := by rw [hinbox, List.length_cons]
  obtain ⟨k, hk, hend⟩ := exists_endsAfter_le t
  exact ⟨k + 1, by omega, hend.of_step ht⟩
termination_by s.inbox.length
decreasing_by omega

/-- Settles O52: the bound holds of every state, as an empty latch needs no step. -/
theorem acceptedCommandsEndInTime : Obligations.AcceptedCommandsEndInTime := fun s _ => exists_endsAfter_le s

end Sys2Proof.Machine
end
